-- ==== Sys2Proof/Word.lean ====
section
/-! DEFINITION. The block's words: bytes, the 32-bit bus words, and the 8-byte frame (spec 00_scope.md R7). -/

namespace Sys2Proof

/-- `u8` of 00_scope.md R7. -/
abbrev Byte := BitVec 8

/-- `u32` of 00_scope.md R7: a data word or a control word. -/
abbrev Word32 := BitVec 32

/-- One line level or one bit on the bus: `true` is the high level, 1. -/
abbrev LineLevel := Bool

/-- A frame `p` (00_scope.md R7): 8 bytes, `b0` = `p[0]` the first on the wire. -/
structure Frame where
  b0 : Byte
  b1 : Byte
  b2 : Byte
  b3 : Byte
  b4 : Byte
  b5 : Byte
  b6 : Byte
  b7 : Byte
  deriving DecidableEq, Repr

/-- The frame of eight zero bytes. -/
def Frame.zero : Frame := ⟨0, 0, 0, 0, 0, 0, 0, 0⟩

end Sys2Proof
end

