-- ==== Sys2Proof/Config.lean ====
section
/-! DEFINITION. What is fixed for a machine: the parameters of spec 00_scope.md R6, the agents whose turn it can be,
and the free values (opaque constants: nothing in Lean can prove a value of one). -/

namespace Sys2Proof

/-- `CS_IDLE` (00_scope.md R6): the select lines all high. -/
abbrev Config.csIdle : BitVec 5 := 0b11111#5

/-- `PING_ID` (00_scope.md R6). -/
abbrev Config.pingId : BitVec 16 := 0#16

/-- `RESERVED_BYTE` (00_scope.md R6, decision D11): what SER writes into byte 7. -/
abbrev Config.reservedByte : Byte := 0x00#8

/-- The parameters of 00_scope.md R6 that the spec leaves open or names so that a model can be instantiated again, each with
the value R6 gives it as its default. They are plain data and stand in `State.params`; no step writes them (log 6). -/
structure Params where
  /-- `QCAP`, the capacity of every event queue (U7). -/
  qcap : Nat := 4
  /-- `PING_VALUE` (90_conflicts.md C5). -/
  pingValue : BitVec 16 := 0x0039#16
  /-- `PING_CONTROLLER` (90_conflicts.md C5). -/
  pingController : Byte := 39#8
  /-- `PING_SEQUENCE` (decision D12). -/
  pingSequence : Byte := 0#8
  /-- `SCK_IDLE` (decision D5). -/
  sckIdle : LineLevel := false
  /-- `WFIFO_DEPTH`, the depth of the word channels (decision D7). -/
  wfifoDepth : Nat := 4
  /-- `S_SEL_ACTIVE` (decision D9). -/
  sSelActive : LineLevel := false
  /-- `XFER_TIMEOUT` (43_transfer.md R135): `none` waits for ever. -/
  xferTimeout : Option Nat := none
  /-- `SLOT31_ALIASES_IDLE` (70_reset_and_hazards.md R190): a fact about the board. -/
  slot31AliasesIdle : Bool := true
  /-- The predicate `frame_valid` (40_codec.md R84) as plain data: the frames it rejects; none by default (log 5). -/
  invalidFrames : List Frame := []
  deriving DecidableEq, Repr

/-- The input lines ENV moves with ENV-SET (42_waveform.md R117). -/
inductive InLine where
  | sSel
  | sSck
  | sDin
  deriving DecidableEq, Repr, Inhabited

/-- Whose turn it is (00_scope.md R5, 42_waveform.md R100). HOST has two: its next sub-step or call, and its choice to
time out (43_transfer.md R135 (b)). ENV's turn says which line it sets to which level. -/
inductive Turn where
  | host
  | hostTimeout
  | cse
  | mcg
  | scr
  | env (line : InLine) (v : LineLevel)
  deriving DecidableEq, Repr, Inhabited

/-- Free value: the turn taken when the state names none; any interleaving is a run (20_memory.md R55; log 2). -/
opaque Config.freeTurn : Nat → Turn

/-- Free value: the level of MISO at a sample for which the state names none (20_memory.md R52; log 3). -/
opaque Config.freeMiso : Nat → LineLevel

/-- Free value: the bit SCR shifts out when it has nothing to send (42_waveform.md R113; log 21). -/
opaque Config.freeDout : Nat → LineLevel

end Sys2Proof
end

