-- ==== Sys2Proof/Syntax.lean ====
section
/-! DEFINITION. Events, operands and instructions: one constructor of `Instr` per row of spec/opcode_table.json. -/

namespace Sys2Proof

/-- `event_type` with `sub_id` as a component of `Input` alone (10_state.md R10, decision D11). -/
inductive EventType where
  | input (subId : BitVec 7)
  | output
  | memWrite
  | reboot
  | setControllerId
  | log
  deriving DecidableEq, Repr

/-- An event (10_state.md R10). `value` is the `i16` as its two's-complement pattern (30_encoding.md R70). -/
structure Event where
  eventType : EventType
  id : BitVec 16
  value : BitVec 16
  controllerId : Byte
  sequence : Byte
  deriving DecidableEq, Repr

/-- `sub_id` of an event: 0 for every type but `Input` (10_state.md R10). -/
def Event.subId (e : Event) : BitVec 7 :=
  match e.eventType with
  | .input s => s
  | .output | .memWrite | .reboot | .setControllerId | .log => 0

/-- `value` read as a signed 16-bit number (30_encoding.md R64). -/
def Event.valueInt (e : Event) : Int := e.value.toInt

/-- The two queues of a slot (10_state.md R13). -/
inductive Side where
  | tx
  | rx
  deriving DecidableEq, Repr

/-- A queue operand: `slot[slot].txq` or `slot[slot].rxq`. The index is a `u8`; above 31 it names no slot. -/
structure QueueRef where
  slot : Byte
  side : Side
  deriving DecidableEq, Repr

/-- Bytes 1 to 7 of a frame, which every row of the FRAME group lays out alike (30_encoding.md R61). -/
structure Body where
  id : BitVec 16
  value : BitVec 16
  controllerId : Byte
  sequence : Byte
  reserved : Byte
  deriving DecidableEq, Repr

/-- The rows of spec/opcode_table.json: twelve FRAME rows, the control word, ten operations (30_encoding.md R67, R68). -/
inductive Instr where
  /-- EV_INPUT: byte 0 = 1sssssss. -/
  | evInput (subId : BitVec 7) (body : Body)
  /-- EV_OUTPUT: byte 0 = 0x01. -/
  | evOutput (body : Body)
  /-- EV_MEMWRITE: byte 0 = 0x02. -/
  | evMemWrite (body : Body)
  /-- EV_REBOOT: byte 0 = 0x03. -/
  | evReboot (body : Body)
  /-- EV_SETCONTROLLERID: byte 0 = 0x04. -/
  | evSetControllerId (body : Body)
  /-- EV_LOG: byte 0 = 0x05. -/
  | evLog (body : Body)
  /-- EV_FALLBACK_00: byte 0 = 0x00. -/
  | evFallback00 (body : Body)
  /-- EV_FALLBACK_06_07: byte 0 = 0000011x. -/
  | evFallback06 (x : BitVec 1) (body : Body)
  /-- EV_FALLBACK_08_0F: byte 0 = 00001xxx. -/
  | evFallback08 (x : BitVec 3) (body : Body)
  /-- EV_FALLBACK_10_1F: byte 0 = 0001xxxx. -/
  | evFallback10 (x : BitVec 4) (body : Body)
  /-- EV_FALLBACK_20_3F: byte 0 = 001xxxxx. -/
  | evFallback20 (x : BitVec 5) (body : Body)
  /-- EV_FALLBACK_40_7F: byte 0 = 01xxxxxx. -/
  | evFallback40 (x : BitVec 6) (body : Body)
  /-- CSW_SELECT: the control word; `upper` is bits 31:5, ignored by CSE (30_encoding.md R66). -/
  | cswSelect (index : BitVec 5) (upper : BitVec 27)
  | ser (e : Event)
  | des (p : Frame)
  | qpush (q : QueueRef) (x : Event)
  | qpop (q : QueueRef)
  | qpeek (q : QueueRef)
  | qdiscard (q : QueueRef)
  | xfer (c : Byte) (p : Frame)
  | slotPoll (i : Byte)
  | slotSend (i : Byte) (e : Event)
  | slotRecv (i : Byte)
  deriving DecidableEq, Repr

/-- The formats of 30_encoding.md R60. -/
inductive Format where
  | frame
  | dw
  | csw
  | op
  deriving DecidableEq, Repr

/-- A call HOST is still to make: its format and its bytes (log 10). -/
structure Call where
  format : Format
  bytes : List Byte
  deriving DecidableEq, Repr

end Sys2Proof
end

