-- ==== Sys2Proof/WellFormed.lean ====
section
/-! DEFINITION. Well-formed instructions: the operands that spec 60_exceptions.md R156 admits. -/

namespace Sys2Proof

/-- A slot index names a slot when it is in 0..31 (10_state.md R13, 60_exceptions.md R156). -/
def slotIndexOk (i : Byte) : Bool := decide (i.toNat < 32)

/-- The check of an instruction's operands. A chip-select above 31 is NOT ill-formed: XFER answers it with an error result
(43_transfer.md R137). -/
def Instr.wellFormed : Instr → Bool
  | .evInput _ _ | .evOutput _ | .evMemWrite _ | .evReboot _ | .evSetControllerId _ | .evLog _ => true
  | .evFallback00 _ | .evFallback06 _ _ | .evFallback08 _ _ | .evFallback10 _ _ => true
  | .evFallback20 _ _ | .evFallback40 _ _ => true
  | .cswSelect _ _ => true
  | .ser _ | .des _ => true
  | .qpush q _ => slotIndexOk q.slot
  | .qpop q => slotIndexOk q.slot
  | .qpeek q => slotIndexOk q.slot
  | .qdiscard q => slotIndexOk q.slot
  | .xfer _ _ => true
  | .slotPoll i => slotIndexOk i
  | .slotSend i _ => slotIndexOk i
  | .slotRecv i => slotIndexOk i

end Sys2Proof
end

