-- ==== Sys2Proof/Decode.lean ====
section
/-! DEFINITION. From bits to instructions, total and rejecting by name, and back. The FRAME rows and the control word follow
spec 30_encoding.md R61 to R67. An operation has no bits in the hardware but the spec's 8-bit ordinal (decision D19); the bytes
of its operands after the ordinal are the model's own (log 10). -/

namespace Sys2Proof

/-- Why bytes are no instruction. Each is safe: the machine refuses. -/
inductive DecodeError where
  /-- No bytes at all. -/
  | noBytes
  /-- The bytes end before the operands do. -/
  | truncated
  /-- The ordinal is none of 1 to 10 (30_encoding.md R67). -/
  | unknownOrdinal (b : Byte)
  /-- The side byte of a queue operand is neither 0 (tx) nor 1 (rx). -/
  | unknownSide (b : Byte)
  /-- The type byte of an event operand is none of 0 to 5. -/
  | unknownEventType (b : Byte)
  /-- The `sub_id` byte of an event operand is above 127, or not 0 though the type is not Input (10_state.md R10). -/
  | illegalSubId (b : Byte)
  /-- A data word has no fields and names no instruction (30_encoding.md R60). -/
  | dataWord
  deriving DecidableEq, Repr

/-! ### Bytes and words -/

/-- The more significant byte of a 16-bit field (30_encoding.md R64). -/
def hiByte (v : BitVec 16) : Byte := v.extractLsb' 8 8

/-- The less significant byte of a 16-bit field (30_encoding.md R64). -/
def loByte (v : BitVec 16) : Byte := v.extractLsb' 0 8

/-- A frame as a 64-bit number, `p[0]` most significant (30_encoding.md R60). -/
def Frame.toBits (p : Frame) : BitVec 64 :=
  p.b0 ++ (p.b1 ++ (p.b2 ++ (p.b3 ++ (p.b4 ++ (p.b5 ++ (p.b6 ++ p.b7))))))

/-- The frame whose 64-bit number is `w` (30_encoding.md R60). -/
def Frame.ofBits (w : BitVec 64) : Frame where
  b0 := w.extractLsb' 56 8
  b1 := w.extractLsb' 48 8
  b2 := w.extractLsb' 40 8
  b3 := w.extractLsb' 32 8
  b4 := w.extractLsb' 24 8
  b5 := w.extractLsb' 16 8
  b6 := w.extractLsb' 8 8
  b7 := w.extractLsb' 0 8

/-- The bytes of a frame, first on the wire first. -/
def Frame.bytes (p : Frame) : List Byte := [p.b0, p.b1, p.b2, p.b3, p.b4, p.b5, p.b6, p.b7]

/-- The frame at the head of a list of bytes, and the rest. -/
def takeFrame : List Byte → Except DecodeError (Frame × List Byte)
  | b0 :: b1 :: b2 :: b3 :: b4 :: b5 :: b6 :: b7 :: rest => .ok (⟨b0, b1, b2, b3, b4, b5, b6, b7⟩, rest)
  | _ => .error .truncated

/-! ### The FRAME group -/

/-- Bytes 1 to 7 of a frame as fields (30_encoding.md R61). -/
def Frame.body (p : Frame) : Body where
  id := p.b1 ++ p.b2
  value := p.b3 ++ p.b4
  controllerId := p.b5
  sequence := p.b6
  reserved := p.b7

/-- The frame with byte 0 `b0` and bytes 1 to 7 from `b` (30_encoding.md R61). -/
def Body.frame (b : Body) (b0 : Byte) : Frame :=
  ⟨b0, hiByte b.id, loByte b.id, hiByte b.value, loByte b.value, b.controllerId, b.sequence, b.reserved⟩

/-- The row of the FRAME group a frame matches (30_encoding.md R67): match and mask on byte 0. -/
def decodeFrame (p : Frame) : Instr :=
  if p.b0 &&& 0x80#8 = 0x80#8 then .evInput (p.b0.extractLsb' 0 7) p.body
  else if p.b0 = 0x01#8 then .evOutput p.body
  else if p.b0 = 0x02#8 then .evMemWrite p.body
  else if p.b0 = 0x03#8 then .evReboot p.body
  else if p.b0 = 0x04#8 then .evSetControllerId p.body
  else if p.b0 = 0x05#8 then .evLog p.body
  else if p.b0 = 0x00#8 then .evFallback00 p.body
  else if p.b0 &&& 0xFE#8 = 0x06#8 then .evFallback06 (p.b0.extractLsb' 0 1) p.body
  else if p.b0 &&& 0xF8#8 = 0x08#8 then .evFallback08 (p.b0.extractLsb' 0 3) p.body
  else if p.b0 &&& 0xF0#8 = 0x10#8 then .evFallback10 (p.b0.extractLsb' 0 4) p.body
  else if p.b0 &&& 0xE0#8 = 0x20#8 then .evFallback20 (p.b0.extractLsb' 0 5) p.body
  else .evFallback40 (p.b0.extractLsb' 0 6) p.body

/-! ### The control word -/

/-- The control word: the index in bits 4:0, every word accepted (30_encoding.md R66, R67). -/
def decodeCsw (w : Word32) : Instr := .cswSelect (w.extractLsb' 0 5) (w.extractLsb' 5 27)

/-- The control word of its two fields (30_encoding.md R66). -/
def cswWord (index : BitVec 5) (upper : BitVec 27) : Word32 := upper ++ index

/-- The 32-bit word at the head of a list of bytes, most significant byte first. -/
def takeWord : List Byte → Except DecodeError (Word32 × List Byte)
  | b0 :: b1 :: b2 :: b3 :: rest => .ok (b0 ++ (b1 ++ (b2 ++ b3)), rest)
  | _ => .error .truncated

/-- The four bytes of a 32-bit word, most significant first. -/
def wordBytes (w : Word32) : List Byte :=
  [w.extractLsb' 24 8, w.extractLsb' 16 8, w.extractLsb' 8 8, w.extractLsb' 0 8]

/-! ### The operations -/

/-- One byte, and the rest. -/
def takeByte : List Byte → Except DecodeError (Byte × List Byte)
  | b :: rest => .ok (b, rest)
  | [] => .error .truncated

/-- The type of an event operand from its type byte and its `sub_id` byte (log 11). -/
def decodeEventType (t s : Byte) : Except DecodeError EventType :=
  if t = 0#8 then
    if s &&& 0x80#8 = 0#8 then .ok (.input (s.extractLsb' 0 7)) else .error (.illegalSubId s)
  else if s ≠ 0#8 then .error (.illegalSubId s)
  else if t = 1#8 then .ok .output
  else if t = 2#8 then .ok .memWrite
  else if t = 3#8 then .ok .reboot
  else if t = 4#8 then .ok .setControllerId
  else if t = 5#8 then .ok .log
  else .error (.unknownEventType t)

/-- An event operand: type, `sub_id`, `id` and `value` big-endian, `controller_id`, `sequence` (log 11). -/
def takeEvent : List Byte → Except DecodeError (Event × List Byte)
  | t :: s :: i1 :: i0 :: v1 :: v0 :: c :: q :: rest =>
    match decodeEventType t s with
    | .ok ty => .ok (⟨ty, i1 ++ i0, v1 ++ v0, c, q⟩, rest)
    | .error e => .error e
  | _ => .error .truncated

/-- A queue operand: the slot index, then 0 for its transmit queue or 1 for its receive queue (log 10). -/
def takeQueue : List Byte → Except DecodeError (QueueRef × List Byte)
  | i :: d :: rest =>
    if d = 0#8 then .ok (⟨i, .tx⟩, rest)
    else if d = 1#8 then .ok (⟨i, .rx⟩, rest)
    else .error (.unknownSide d)
  | _ => .error .truncated

/-- A chip-select and a frame. -/
def takeXfer (bs : List Byte) : Except DecodeError ((Byte × Frame) × List Byte) :=
  match takeByte bs with
  | .error e => .error e
  | .ok (c, r) =>
    match takeFrame r with
    | .error e => .error e
    | .ok (p, r') => .ok ((c, p), r')

/-- A queue and an event. -/
def takePush (bs : List Byte) : Except DecodeError ((QueueRef × Event) × List Byte) :=
  match takeQueue bs with
  | .error e => .error e
  | .ok (q, r) =>
    match takeEvent r with
    | .error e => .error e
    | .ok (x, r') => .ok ((q, x), r')

/-- A slot index and an event. -/
def takeSend (bs : List Byte) : Except DecodeError ((Byte × Event) × List Byte) :=
  match takeByte bs with
  | .error e => .error e
  | .ok (i, r) =>
    match takeEvent r with
    | .error e => .error e
    | .ok (x, r') => .ok ((i, x), r')

/-- An instruction made of the operand just read, with the bytes left over. -/
def withOperand {α : Type} (mk : α → Instr) (x : Except DecodeError (α × List Byte)) :
    Except DecodeError (Instr × List Byte) :=
  match x with
  | .ok (a, rest) => .ok (mk a, rest)
  | .error e => .error e

/-- An operation: its ordinal (30_encoding.md R67, decision D19), then its operands. -/
def decodeOp : List Byte → Except DecodeError (Instr × List Byte)
  | [] => .error .noBytes
  | o :: r =>
    if o = 1#8 then withOperand .ser (takeEvent r)
    else if o = 2#8 then withOperand .des (takeFrame r)
    else if o = 3#8 then withOperand (fun a => .qpush a.1 a.2) (takePush r)
    else if o = 4#8 then withOperand .qpop (takeQueue r)
    else if o = 5#8 then withOperand .qpeek (takeQueue r)
    else if o = 6#8 then withOperand .qdiscard (takeQueue r)
    else if o = 7#8 then withOperand (fun a => .xfer a.1 a.2) (takeXfer r)
    else if o = 8#8 then withOperand .slotPoll (takeByte r)
    else if o = 9#8 then withOperand (fun a => .slotSend a.1 a.2) (takeSend r)
    else if o = 10#8 then withOperand .slotRecv (takeByte r)
    else .error (.unknownOrdinal o)

/-- The decoder: a format and bytes give an instruction and the bytes left over, or a named rejection. -/
def decode (f : Format) (bs : List Byte) : Except DecodeError (Instr × List Byte) :=
  match f with
  | .frame => withOperand decodeFrame (takeFrame bs)
  | .csw => withOperand decodeCsw (takeWord bs)
  | .op => decodeOp bs
  | .dw => .error .dataWord

/-! ### The encoder -/

/-- The type byte and the `sub_id` byte of an event operand (log 11). -/
def encodeEventType : EventType → Byte × Byte
  | .input s => (0#8, 0#1 ++ s)
  | .output => (1#8, 0#8)
  | .memWrite => (2#8, 0#8)
  | .reboot => (3#8, 0#8)
  | .setControllerId => (4#8, 0#8)
  | .log => (5#8, 0#8)

/-- The eight bytes of an event operand (log 11). -/
def encodeEvent (e : Event) : List Byte :=
  [(encodeEventType e.eventType).1, (encodeEventType e.eventType).2, hiByte e.id, loByte e.id, hiByte e.value, loByte e.value,
    e.controllerId, e.sequence]

/-- The side byte of a queue operand (log 10). -/
def encodeSide : Side → Byte
  | .tx => 0#8
  | .rx => 1#8

/-- The two bytes of a queue operand (log 10). -/
def encodeQueue (q : QueueRef) : List Byte := [q.slot, encodeSide q.side]

/-- The format an instruction belongs to (30_encoding.md R67). -/
def Instr.format : Instr → Format
  | .evInput _ _ | .evOutput _ | .evMemWrite _ | .evReboot _ | .evSetControllerId _ | .evLog _ => .frame
  | .evFallback00 _ | .evFallback06 _ _ | .evFallback08 _ _ | .evFallback10 _ _ => .frame
  | .evFallback20 _ _ | .evFallback40 _ _ => .frame
  | .cswSelect _ _ => .csw
  | .ser _ | .des _ | .qpush _ _ | .qpop _ | .qpeek _ | .qdiscard _ => .op
  | .xfer _ _ | .slotPoll _ | .slotSend _ _ | .slotRecv _ => .op

/-- The bytes of an instruction, from the `encoding` column of the table. -/
def encode : Instr → List Byte
  | .evInput s b => (b.frame (1#1 ++ s)).bytes
  | .evOutput b => (b.frame 0x01#8).bytes
  | .evMemWrite b => (b.frame 0x02#8).bytes
  | .evReboot b => (b.frame 0x03#8).bytes
  | .evSetControllerId b => (b.frame 0x04#8).bytes
  | .evLog b => (b.frame 0x05#8).bytes
  | .evFallback00 b => (b.frame 0x00#8).bytes
  | .evFallback06 x b => (b.frame (0b0000011#7 ++ x)).bytes
  | .evFallback08 x b => (b.frame (0b00001#5 ++ x)).bytes
  | .evFallback10 x b => (b.frame (0b0001#4 ++ x)).bytes
  | .evFallback20 x b => (b.frame (0b001#3 ++ x)).bytes
  | .evFallback40 x b => (b.frame (0b01#2 ++ x)).bytes
  | .cswSelect i u => wordBytes (cswWord i u)
  | .ser e => 1#8 :: encodeEvent e
  | .des p => 2#8 :: p.bytes
  | .qpush q x => 3#8 :: (encodeQueue q ++ encodeEvent x)
  | .qpop q => 4#8 :: encodeQueue q
  | .qpeek q => 5#8 :: encodeQueue q
  | .qdiscard q => 6#8 :: encodeQueue q
  | .xfer c p => 7#8 :: c :: p.bytes
  | .slotPoll i => [8#8, i]
  | .slotSend i e => 9#8 :: i :: encodeEvent e
  | .slotRecv i => [10#8, i]

/-! ### Words of the opcode table -/

/-- A word of `nbits` bits numbered as spec/opcode_table.json numbers it, laid out as a call: a FRAME row is one 64-bit number
with `p[0]` most significant (30_encoding.md R60), a CSW row the control word, an OP row the ordinal followed by operand bytes
of zero (10 of them, as many as the longest operation, QPUSH, has). -/
def tableCall (nbits w : Nat) : Option Call :=
  if nbits = 64 then some ⟨.frame, (Frame.ofBits (BitVec.ofNat 64 w)).bytes⟩
  else if nbits = 32 then some ⟨.csw, wordBytes (BitVec.ofNat 32 w)⟩
  else if nbits = 8 then some ⟨.op, BitVec.ofNat 8 w :: List.replicate 10 0#8⟩
  else none

/-- The instruction the decoder reads from a word of the opcode table. -/
def decodeTableWord (nbits w : Nat) : Option Instr :=
  match tableCall nbits w with
  | none => none
  | some c =>
    match decode c.format c.bytes with
    | .ok (i, _) => some i
    | .error _ => none

end Sys2Proof
end

