-- ==== Sys2Proof/Machine/State.lean ====
section
/-! DEFINITION. The machine's state: everything spec 10_state.md gives the block, each part with the one agent that drives it,
and beside it the model's own fields (parameters, level, HOST's pending calls and results, the oracle). Plain data throughout. -/

namespace Sys2Proof.Machine

/-- The two levels of description of 00_scope.md R8 (log 1). -/
inductive Level where
  /-- XFER is one atomic step. -/
  | transaction
  /-- XFER is a sequence of HOST sub-steps interleaved with the machines. -/
  | waveform
  deriving DecidableEq, Repr

/-- `phase0` (10_state.md R17). -/
inductive CsePhase where
  | cIdle
  | cHold
  deriving DecidableEq, Repr

/-- `phase1` (10_state.md R19). -/
inductive McgPhase where
  | mLoad
  | mShift
  | mSample
  | mPush
  | mDone
  deriving DecidableEq, Repr

/-- `phase2` (10_state.md R21). -/
inductive ScrPhase where
  | sIdle
  | sWaitShift
  | sWaitSample
  deriving DecidableEq, Repr

/-- `hphase` (10_state.md R22). -/
inductive HostPhase where
  | hNone
  | hCtl
  | hW0
  | hW1
  | hR0
  | hR1
  deriving DecidableEq, Repr

/-- The causes of `BusError` (60_exceptions.md R151, E5 to E7). -/
inductive BusCause where
  | invalidChipSelect
  | timeout
  | fault
  deriving DecidableEq, Repr

/-- The error results of 60_exceptions.md R151. They are results, not faults: HOST carries on (R150). -/
inductive OpError where
  | overflow
  | txOverflow
  | rxOverflow
  | invalidMessage
  | busError (cause : BusCause)
  deriving DecidableEq, Repr

/-- What an operation returns to HOST (30_encoding.md R68). -/
inductive Result where
  /-- `ok`. -/
  | ok
  /-- QDISCARD returns nothing. -/
  | unit
  /-- `empty` of QPOP and QPEEK (60_exceptions.md R152). -/
  | empty
  /-- `none` of SLOT_RECV (60_exceptions.md R152). -/
  | noEvent
  | event (e : Event)
  | frame (p : Frame)
  | error (e : OpError)
  deriving DecidableEq, Repr

/-- One slot (10_state.md R13); a queue is the sequence `items` of R11, oldest first. -/
structure Slot where
  cs : BitVec 5
  txq : List Event
  rxq : List Event
  deriving DecidableEq, Repr

/-- CSE with the select lines it drives (10_state.md R16 to R18). -/
structure Cse where
  phase0 : CsePhase
  ctlf : List Word32
  en0 : Bool
  csActive : Bool
  csIndex : BitVec 5
  csl : BitVec 5
  deriving DecidableEq, Repr

/-- MCG with the clock and data-out lines it drives (10_state.md R19). -/
structure Mcg where
  phase1 : McgPhase
  osr : Word32
  isr : Word32
  bitcnt : Nat
  wordcnt : Nat
  txf : List Word32
  rxf : List Word32
  en1 : Bool
  sck : LineLevel
  mosi : LineLevel
  deriving DecidableEq, Repr

/-- SCR with the data-out line it drives (10_state.md R21). -/
structure Scr where
  phase2 : ScrPhase
  sOut : List LineLevel
  sIn : List LineLevel
  en2 : Bool
  sDout : LineLevel
  deriving DecidableEq, Repr

/-- The input lines that ENV drives and the block keeps (10_state.md R15). -/
structure Lines where
  sSel : LineLevel
  sSck : LineLevel
  sDin : LineLevel
  deriving DecidableEq, Repr

/-- Which operation the XFER in progress serves (log 9). -/
inductive Caller where
  | xfer
  | slotPoll (i : Fin 32)
  deriving DecidableEq, Repr

/-- HOST: its position inside XFER with the latched operands (10_state.md R22), the calls it is still to make (log 10) and the
results it has had (log 14). -/
structure HostFlow where
  hphase : HostPhase
  hCs : Byte
  hW0 : Word32
  hW1 : Word32
  hR0 : Word32
  caller : Caller
  polls : Nat
  calls : List Call
  returned : List Result
  deriving DecidableEq, Repr

/-- One entry of the bus history (43_transfer.md R130): chip-select, frame sent, frame received. -/
structure Transaction where
  cs : Byte
  sent : Frame
  received : Frame
  deriving DecidableEq, Repr

/-- What comes from outside under no law: whose turn it is (log 2), the bits of MISO (log 3), the answers of `bus_fault`
(log 4), and the counters of the free values drawn so far. -/
structure Oracle where
  turns : List Turn
  turnDraws : Nat
  miso : List LineLevel
  misoDraws : Nat
  doutDraws : Nat
  busFault : List Bool
  deriving DecidableEq, Repr

/-- The state. `chosenLevel` is the level the run asks for; the level it is at is `State.level`. -/
structure State where
  params : Params
  chosenLevel : Level
  slots : Vector Slot 32
  cse : Cse
  mcg : Mcg
  done : Bool
  scr : Scr
  lines : Lines
  host : HostFlow
  busLog : List Transaction
  oracle : Oracle
  deriving DecidableEq, Repr

/-- A fault would stop the machine. The block has none: "Nothing in the block traps, vectors, saves state or changes mode"
(60_exceptions.md R150), so the type has no constructor; every error is a result (`OpError`). Safe (log 18). -/
inductive Fault where
  deriving DecidableEq, Repr

/-- Why the model refuses (60_exceptions.md R156: the whole run is then outside the model). Every refusal is safe (log 17). -/
inductive Refusal where
  /-- Raised by an arm of `exec` whose instruction has no meaning yet; none is left. Safe. -/
  | notModelled (mnemonic : String)
  /-- Raised by the fetch of a HOST call whose bytes are no instruction. Safe. -/
  | undecodable (reason : DecodeError)
  /-- Raised by every operation on a slot or a queue: "an operation on a slot index above 31" (R156). Safe. -/
  | slotIndexAbove31
  /-- Raised by XFER and SLOT_POLL: "XFER from a driver state that is not clean" (R156, 43_transfer.md R131). Safe. -/
  | driverNotClean
  /-- Raised by every operation while HOST is inside XFER: "a second HOST flow calling operations concurrently with the
  first" (R156). Safe. -/
  | hostInsideXfer
  /-- Raised by the fetch of a HOST call that is a control word or a data word: "any HOST access to ctlf, txf, rxf other
  than through XFER" (R156). Safe. -/
  | wordChannelAccess
  deriving DecidableEq, Repr

/-- A slot just created: its index and two empty queues (70_reset_and_hazards.md R187, decision D23). -/
def Slot.fresh (i : Fin 32) : Slot := ⟨BitVec.ofFin i, [], []⟩

/-- The slots at reset: `slot[i].cs = i` (10_state.md R13, R26). -/
def State.resetSlots : Vector Slot 32 := Vector.ofFn Slot.fresh

/-- The state after reset and bring-up (10_state.md R26). `osr`, `isr`, MOSI, S_DOUT, `cs_index` (log 7), the input lines
(log 8) and HOST's latches (log 9) have no value in the spec: DESIGN CHOICE, unsafe. -/
def State.reset : State where
  params := {}
  chosenLevel := .transaction
  slots := State.resetSlots
  cse := { phase0 := .cIdle, ctlf := [], en0 := true, csActive := false, csIndex := 0, csl := Config.csIdle }
  mcg := { phase1 := .mLoad, osr := 0, isr := 0, bitcnt := 0, wordcnt := 0, txf := [], rxf := [], en1 := true, sck := false,
           mosi := false }
  done := false
  scr := { phase2 := .sIdle, sOut := [], sIn := [], en2 := true, sDout := false }
  lines := { sSel := true, sSck := false, sDin := false }
  host := { hphase := .hNone, hCs := 0, hW0 := 0, hW1 := 0, hR0 := 0, caller := .xfer, polls := 0, calls := [], returned := [] }
  busLog := []
  oracle := { turns := [], turnDraws := 0, miso := [], misoDraws := 0, doutDraws := 0, busFault := [] }

end Sys2Proof.Machine
end

