-- ==== Sys2Proof/Machine/Operands.lean ====
section
/-! DEFINITION. The operand forms: a frame and its word pair, the bits of a frame in bus order, one bit entering or leaving a
32-bit register, the constant event PING, the event codec's operands. -/

namespace Sys2Proof.Machine

/-- `w0 = (p[0], p[1], p[2], p[3])`, `p[0]` most significant (20_memory.md R43). -/
def frameWord0 (p : Frame) : Word32 := p.b0 ++ (p.b1 ++ (p.b2 ++ p.b3))

/-- `w1 = (p[4], p[5], p[6], p[7])`, `p[4]` most significant (20_memory.md R43). -/
def frameWord1 (p : Frame) : Word32 := p.b4 ++ (p.b5 ++ (p.b6 ++ p.b7))

/-- The frame of two received words (20_memory.md R43, 43_transfer.md R132). -/
def frameOfWords (r0 r1 : Word32) : Frame where
  b0 := r0.extractLsb' 24 8
  b1 := r0.extractLsb' 16 8
  b2 := r0.extractLsb' 8 8
  b3 := r0.extractLsb' 0 8
  b4 := r1.extractLsb' 24 8
  b5 := r1.extractLsb' 16 8
  b6 := r1.extractLsb' 8 8
  b7 := r1.extractLsb' 0 8

/-- `p[k]`, a byte of a frame by its position; positions above 7 do not occur (20_memory.md R46) and read as `p[7]`. -/
def frameByte (p : Frame) : Nat → Byte
  | 0 => p.b0
  | 1 => p.b1
  | 2 => p.b2
  | 3 => p.b3
  | 4 => p.b4
  | 5 => p.b5
  | 6 => p.b6
  | _ => p.b7

/-- The bit that bit-time `k` carries: bit `7 - (k mod 8)` of byte `k div 8` (20_memory.md R44). -/
def frameBit (p : Frame) (k : Nat) : LineLevel := (frameByte p (k / 8)).getLsbD (7 - k % 8)

/-- The bit a shift register sends next: bit 31 (42_waveform.md R105). -/
def shiftOutBit (w : Word32) : LineLevel := w.getLsbD 31

/-- Shift left by one on 32 bits, `b` entering bit 0 (30_encoding.md R70, 42_waveform.md R105, R106). -/
def shiftIn (w : Word32) (b : LineLevel) : Word32 := w.extractLsb' 0 31 ++ BitVec.ofBool b

/-- The control word XFER writes: `zext_32(chip_select)` (30_encoding.md R66). -/
def controlWord (c : Byte) : Word32 := c.setWidth 32

/-- The idle event PING (44_slot.md R140), with the parameters of 00_scope.md R6. -/
def ping (k : Params) : Event where
  eventType := .output
  id := Config.pingId
  value := k.pingValue
  controllerId := k.pingController
  sequence := k.pingSequence

/-- Byte 0 of an event's frame (40_codec.md R80). -/
def serByte0 : EventType → Byte
  | .input s => 0x80#8 ||| s.setWidth 8
  | .output => 0x01#8
  | .memWrite => 0x02#8
  | .reboot => 0x03#8
  | .setControllerId => 0x04#8
  | .log => 0x05#8

/-- SER (40_codec.md R80). -/
def serialize (e : Event) : Frame where
  b0 := serByte0 e.eventType
  b1 := hiByte e.id
  b2 := loByte e.id
  b3 := hiByte e.value
  b4 := loByte e.value
  b5 := e.controllerId
  b6 := e.sequence
  b7 := Config.reservedByte

/-- The event type of byte 0 (40_codec.md R81, 30_encoding.md R62): the top bit marks Input, 1 to 5 are the discriminants, and
every other value is the fallback Input with `sub_id` 0. -/
def desEventType (b : Byte) : EventType :=
  if b.getLsbD 7 then .input (b.extractLsb' 0 7)
  else if b = 0x01#8 then .output
  else if b = 0x02#8 then .memWrite
  else if b = 0x03#8 then .reboot
  else if b = 0x04#8 then .setControllerId
  else if b = 0x05#8 then .log
  else .input 0

/-- DES (40_codec.md R81); byte 7 is ignored (30_encoding.md R63). -/
def deserialize (p : Frame) : Event where
  eventType := desEventType p.b0
  id := p.b1 ++ p.b2
  value := p.b3 ++ p.b4
  controllerId := p.b5
  sequence := p.b6

/-- The event a FRAME row decodes to: the type of its `decodes_to` column with the fields of bytes 1 to 6 (30_encoding.md R67). -/
def bodyEvent (b : Body) (t : EventType) : Event := ⟨t, b.id, b.value, b.controllerId, b.sequence⟩

end Sys2Proof.Machine
end

