-- ==== Sys2Proof/Machine/Flags.lean ====
section
/-! DEFINITION. The conditions the spec tests. The block has no flag register (10_state.md R23): each is a function of the
state. The `pre:` of every machine step (42_waveform.md) stands here under the step's name. -/

namespace Sys2Proof.Machine

/-- `q.full` (10_state.md R23). -/
def queueFull {α : Type} (n : Nat) (items : List α) : Bool := items.length == n

/-- `q.empty` (10_state.md R23). -/
def queueEmpty {α : Type} (items : List α) : Bool := items.isEmpty

/-- `frame_valid(r)` (40_codec.md R84). -/
def frameValid (k : Params) (r : Frame) : Bool := !k.invalidFrames.contains r

/-- The clean state of the driver (43_transfer.md R131). -/
def State.clean (s : State) : Bool :=
  (s.cse.phase0 == .cIdle || (s.cse.phase0 == .cHold && s.done))
    && (s.mcg.phase1 == .mLoad || s.mcg.phase1 == .mDone)
    && s.mcg.wordcnt == 0
    && s.cse.ctlf.isEmpty && s.mcg.txf.isEmpty && s.mcg.rxf.isEmpty
    && s.host.hphase == .hNone

/-- Whether XFER is one atomic step: the run asks for the transaction level (00_scope.md R8) and the premises of 43_transfer.md
R134 hold: the machines run, `WFIFO_DEPTH >= 2`, no time-out is set (log 1). No step changes what this reads. -/
def State.atomicXfer (s : State) : Bool :=
  s.chosenLevel == .transaction && s.cse.en0 && s.mcg.en1 && s.params.xferTimeout.isNone && decide (2 ≤ s.params.wfifoDepth)

/-- The level the run is at (00_scope.md R8): the one it asks for, except that without the premises of 43_transfer.md R134 there
is the waveform level alone (log 1). At the transaction level HOST is never inside XFER between two steps (10_state.md R22). -/
def State.level (s : State) : Level := if s.atomicXfer then .transaction else .waveform

/-- `selected()` (10_state.md R18). -/
def State.selected (s : State) : Option (BitVec 5) := if s.cse.csActive then some s.cse.csIndex else none

/-- `pre` of CSE-SELECT (42_waveform.md R102). -/
def State.preCseSelect (s : State) : Bool := s.cse.en0 && s.cse.phase0 == .cIdle && !s.cse.ctlf.isEmpty

/-- `pre` of CSE-RELEASE (42_waveform.md R103). -/
def State.preCseRelease (s : State) : Bool := s.cse.en0 && s.cse.phase0 == .cHold && s.done

/-- `pre` of MCG-LOAD (42_waveform.md R104). -/
def State.preMcgLoad (s : State) : Bool := s.mcg.en1 && s.mcg.phase1 == .mLoad && s.cse.csActive && !s.mcg.txf.isEmpty

/-- `pre` of MCG-SHIFT (42_waveform.md R105). -/
def State.preMcgShift (s : State) : Bool := s.mcg.en1 && s.mcg.phase1 == .mShift

/-- `pre` of MCG-SAMPLE (42_waveform.md R106). -/
def State.preMcgSample (s : State) : Bool := s.mcg.en1 && s.mcg.phase1 == .mSample

/-- `pre` of MCG-PUSH (42_waveform.md R107). -/
def State.preMcgPush (s : State) : Bool :=
  s.mcg.en1 && s.mcg.phase1 == .mPush && decide (s.mcg.rxf.length < s.params.wfifoDepth)

/-- `pre` of MCG-REARM (42_waveform.md R108). -/
def State.preMcgRearm (s : State) : Bool := s.mcg.en1 && s.mcg.phase1 == .mDone && !s.done

/-- The external select is asserted (42_waveform.md R111). -/
def State.slaveSelected (s : State) : Bool := s.lines.sSel == s.params.sSelActive

/-- `pre` of SCR-ARM (42_waveform.md R112). -/
def State.preScrArm (s : State) : Bool := s.scr.en2 && s.scr.phase2 == .sIdle && s.slaveSelected

/-- `pre` of SCR-SHIFT (42_waveform.md R113). -/
def State.preScrShift (s : State) : Bool :=
  s.scr.en2 && s.scr.phase2 == .sWaitShift && s.slaveSelected && s.lines.sSck == !s.params.sckIdle

/-- `pre` of SCR-SAMPLE (42_waveform.md R114). -/
def State.preScrSample (s : State) : Bool :=
  s.scr.en2 && s.scr.phase2 == .sWaitSample && s.slaveSelected && s.lines.sSck == s.params.sckIdle

/-- `pre` of SCR-DESELECT (42_waveform.md R115). -/
def State.preScrDeselect (s : State) : Bool := s.scr.en2 && s.scr.phase2 != .sIdle && !s.slaveSelected

/-- HOST waits on a received word (10_state.md R22, 43_transfer.md R133). -/
def State.hostWaits (s : State) : Bool := s.host.hphase == .hR0 || s.host.hphase == .hR1

/-- HOST may time out: `XFER_TIMEOUT = Some(n)` and at least `n` polls of this XFER have found `rxf` empty (43_transfer.md
R135 (b), log 19). -/
def State.mayTimeout (s : State) : Bool :=
  match s.params.xferTimeout with
  | none => false
  | some n => s.hostWaits && decide (n ≤ s.host.polls)

end Sys2Proof.Machine
end

