-- ==== Sys2Proof/Machine/Ops.lean ====
section
/-! DEFINITION. The named operations over the state: the event queues, the slots, what an operation returns or raises, the
checks every operation makes, and the draws from the oracle. -/

namespace Sys2Proof.Machine

/-! ### The bounded queue, generic in its elements (41_queue.md) -/

/-- QPUSH on the items of a queue of capacity `n`: nothing when it is full (41_queue.md R90). -/
def queuePush {α : Type} (n : Nat) (items : List α) (x : α) : Option (List α) :=
  if queueFull n items then none else some (items ++ [x])

/-- QPOP: the oldest element and the items left, nothing when there is none (41_queue.md R91). -/
def queuePop {α : Type} : List α → Option (α × List α)
  | [] => none
  | x :: rest => some (x, rest)

/-- QPEEK: the oldest element (41_queue.md R92). -/
def queuePeek {α : Type} : List α → Option α
  | [] => none
  | x :: _ => some x

/-- QDISCARD: the items left, the same when there are none (41_queue.md R93). -/
def queueDiscard {α : Type} : List α → List α
  | [] => []
  | _ :: rest => rest

/-! ### The queues of the slots -/

/-- The items of one of the 64 queues (20_memory.md R40 (b)). -/
def State.queue (s : State) (i : Fin 32) : Side → List Event
  | .tx => s.slots[i].txq
  | .rx => s.slots[i].rxq

/-- A slot with the items of one of its queues replaced. -/
def Slot.withQueue (t : Slot) (d : Side) (items : List Event) : Slot :=
  match d with
  | .tx => ⟨t.cs, items, t.rxq⟩
  | .rx => ⟨t.cs, t.txq, items⟩

/-- `slot[i].txq.items <- items` or `slot[i].rxq.items <- items`. -/
def State.setQueue (s : State) (i : Fin 32) (d : Side) (items : List Event) : State :=
  { s with slots := s.slots.set i (s.slots[i].withQueue d items) }

/-! ### Results -/

/-- An operation returns `r` to HOST (30_encoding.md R68, log 14). -/
def State.ret (s : State) (r : Result) : State := { s with host := { s.host with returned := s.host.returned ++ [r] } }

/-- `raise e` (60_exceptions.md R150): the operation ends, every change made before stays, and `e` is its result. Nothing else
happens: no state is saved, no mode changes, and HOST carries on with its next operation. -/
def State.raise (s : State) (e : OpError) : State := s.ret (.error e)

/-! ### The checks of 60_exceptions.md R156 -/

/-- An operation runs only while HOST is outside XFER (10_state.md R22, 60_exceptions.md R158): anything else would be a second
HOST flow, which is refused (R156). -/
def State.hostCall (s : State) (k : Host.Outcome State Fault Refusal) : Host.Outcome State Fault Refusal :=
  if s.host.hphase = .hNone then k else .refused .hostInsideXfer

/-- An operation on slot `i`; an index above 31 is refused (60_exceptions.md R156). -/
def withSlot (i : Byte) (k : Fin 32 → Host.Outcome State Fault Refusal) : Host.Outcome State Fault Refusal :=
  if h : i.toNat < 32 then k ⟨i.toNat, h⟩ else .refused .slotIndexAbove31

/-! ### The oracle -/

/-- Whose turn it is: the next the state names, else a free value (20_memory.md R55, log 2). -/
def State.turn (s : State) : Turn :=
  match s.oracle.turns with
  | t :: _ => t
  | [] => Config.freeTurn s.oracle.turnDraws

/-- The state once the turn is taken. -/
def State.turnTaken (s : State) : State :=
  match s.oracle.turns with
  | _ :: rest => { s with oracle := { s.oracle with turns := rest } }
  | [] => { s with oracle := { s.oracle with turnDraws := s.oracle.turnDraws + 1 } }

/-- The `k`-th level of MISO from now: as the state names it, else a free value (20_memory.md R52, log 3). -/
def Oracle.misoBit (o : Oracle) (k : Nat) : LineLevel :=
  match o.miso[k]? with
  | some b => b
  | none => Config.freeMiso (o.misoDraws + k)

/-- The oracle once `n` levels of MISO are drawn. -/
def Oracle.misoTaken (o : Oracle) (n : Nat) : Oracle := { o with miso := o.miso.drop n, misoDraws := o.misoDraws + n }

/-- The word of `n` levels of MISO from the `base`-th on, the first of 32 in bit 31 (20_memory.md R44). -/
def Oracle.misoWord (o : Oracle) (base : Nat) : Nat → Word32
  | 0 => 0
  | n + 1 => shiftIn (o.misoWord base n) (o.misoBit (base + n))

/-- The frame ENV answers with in one transaction: 64 levels of MISO (43_transfer.md R130, R132). -/
def Oracle.misoFrame (o : Oracle) : Frame := frameOfWords (o.misoWord 0 32) (o.misoWord 32 32)

/-- The answer of the `bus_fault` oracle, consulted once per XFER; false unless the state names one (43_transfer.md R135 (c),
log 4). -/
def State.busFaultNow (s : State) : Bool :=
  match s.oracle.busFault with
  | b :: _ => b
  | [] => false

/-- The state once `bus_fault` is consulted. -/
def State.busFaultTaken (s : State) : State := { s with oracle := { s.oracle with busFault := s.oracle.busFault.drop 1 } }

/-- The free bit SCR shifts out with nothing to send (42_waveform.md R113, log 21). -/
def State.doutBit (s : State) : LineLevel := Config.freeDout s.oracle.doutDraws

/-- A transaction enters the bus history (43_transfer.md R130, log 15). -/
def State.logTransaction (s : State) (c : Byte) (p r : Frame) : State := { s with busLog := s.busLog ++ [⟨c, p, r⟩] }

end Sys2Proof.Machine
end

