-- ==== Sys2Proof/Machine/CseSteps.lean ====
section
/-! DEFINITION. The steps of CSE (spec 42_waveform.md R102, R103) and the meaning of CSW_SELECT, the control word's row. -/

namespace Sys2Proof.Machine

/-- The effect of CSE-SELECT on the index `n` (42_waveform.md R102): the control word leaves `ctlf`, the lines carry the index in
binary, the slot is selected. -/
def Cse.select (m : Cse) (n : BitVec 5) : Cse :=
  { m with ctlf := m.ctlf.tail, csIndex := n, csl := n, csActive := true, phase0 := .cHold }

/-- CSW_SELECT: CSE consumes the control word at the head of `ctlf` (30_encoding.md R67, 42_waveform.md R102); `upper`, bits
31:5, is ignored (R66). Where the `pre` of CSE-SELECT does not hold on this word CSE is held and nothing changes (R100, log 13). -/
def execCswSelect (index : BitVec 5) (upper : BitVec 27) (s : State) : Host.Outcome State Fault Refusal :=
  if s.preCseSelect && s.cse.ctlf.head? == some (cswWord index upper) then .next { s with cse := s.cse.select index }
  else .next s

/-- CSE-RELEASE (42_waveform.md R103): the completion signal is consumed and the lines are idle. -/
def State.cseRelease (s : State) : State :=
  if s.preCseRelease then
    { s with done := false, cse := { s.cse with csl := Config.csIdle, csActive := false, phase0 := .cIdle } }
  else s

end Sys2Proof.Machine
end

