-- ==== Sys2Proof/Machine/McgSteps.lean ====
section
/-! DEFINITION. The steps of MCG, the master clock/data generator (spec 42_waveform.md R104 to R108). -/

namespace Sys2Proof.Machine

/-- MCG-LOAD (42_waveform.md R104). -/
def State.mcgLoad (s : State) : State :=
  match s.mcg.txf with
  | [] => s
  | w :: rest =>
    if s.preMcgLoad then { s with mcg := { s.mcg with osr := w, txf := rest, bitcnt := 0, phase1 := .mShift } } else s

/-- MCG-SHIFT, the shift edge (42_waveform.md R105). -/
def State.mcgShift (s : State) : State :=
  if s.preMcgShift then
    { s with mcg := { s.mcg with mosi := shiftOutBit s.mcg.osr, osr := shiftIn s.mcg.osr false, sck := !s.params.sckIdle,
                                 phase1 := .mSample } }
  else s

/-- MCG-SAMPLE, the sample edge: one level of MISO is drawn (42_waveform.md R106). -/
def State.mcgSample (s : State) : State :=
  if s.preMcgSample then
    { s with mcg := { s.mcg with isr := shiftIn s.mcg.isr (s.oracle.misoBit 0), sck := s.params.sckIdle,
                                 bitcnt := s.mcg.bitcnt + 1,
                                 phase1 := if s.mcg.bitcnt + 1 = 32 then .mPush else .mShift },
             oracle := s.oracle.misoTaken 1 }
  else s

/-- MCG-PUSH: a received word for HOST, and after the second the completion signal (42_waveform.md R107). -/
def State.mcgPush (s : State) : State :=
  if s.preMcgPush then
    if s.mcg.wordcnt = 0 then
      { s with mcg := { s.mcg with rxf := s.mcg.rxf ++ [s.mcg.isr], wordcnt := 1, phase1 := .mLoad } }
    else
      { s with mcg := { s.mcg with rxf := s.mcg.rxf ++ [s.mcg.isr], wordcnt := 0, phase1 := .mDone }, done := true }
  else s

/-- MCG-REARM (42_waveform.md R108). -/
def State.mcgRearm (s : State) : State :=
  if s.preMcgRearm then { s with mcg := { s.mcg with phase1 := .mLoad } } else s

/-- The one step of MCG that its phase admits; a held MCG changes nothing (42_waveform.md R100). -/
def State.mcgStep (s : State) : State :=
  match s.mcg.phase1 with
  | .mLoad => s.mcgLoad
  | .mShift => s.mcgShift
  | .mSample => s.mcgSample
  | .mPush => s.mcgPush
  | .mDone => s.mcgRearm

end Sys2Proof.Machine
end

