-- ==== Sys2Proof/Machine/ScrSteps.lean ====
section
/-! DEFINITION. The steps of SCR, the slave clock/data responder (spec 42_waveform.md R111 to R116), and ENV's (R117). -/

namespace Sys2Proof.Machine

/-- SCR-ARM (42_waveform.md R112). -/
def State.scrArm (s : State) : State := { s with scr := { s.scr with phase2 := .sWaitShift } }

/-- SCR-SHIFT (42_waveform.md R113): the next bit of `s_out`, or a free bit when there is none. -/
def State.scrShift (s : State) : State :=
  match s.scr.sOut with
  | b :: rest => { s with scr := { s.scr with sDout := b, sOut := rest, phase2 := .sWaitSample } }
  | [] =>
    { s with scr := { s.scr with sDout := s.doutBit, phase2 := .sWaitSample },
             oracle := { s.oracle with doutDraws := s.oracle.doutDraws + 1 } }

/-- SCR-SAMPLE (42_waveform.md R114). -/
def State.scrSample (s : State) : State :=
  { s with scr := { s.scr with sIn := s.scr.sIn ++ [s.lines.sDin], phase2 := .sWaitShift } }

/-- SCR-DESELECT (42_waveform.md R115): `S_DOUT`, `s_out` and `s_in` stay as they are. -/
def State.scrDeselect (s : State) : State := { s with scr := { s.scr with phase2 := .sIdle } }

/-- The one step of SCR that is enabled; SCR reads levels, so a missed pulse is lost (42_waveform.md R116). A held SCR changes
nothing (R100). -/
def State.scrStep (s : State) : State :=
  if s.preScrArm then s.scrArm
  else if s.preScrShift then s.scrShift
  else if s.preScrSample then s.scrSample
  else if s.preScrDeselect then s.scrDeselect
  else s

/-- ENV-SET(line, v) (42_waveform.md R117). -/
def State.envSet (s : State) (line : InLine) (v : LineLevel) : State :=
  match line with
  | .sSel => { s with lines := { s.lines with sSel := v } }
  | .sSck => { s with lines := { s.lines with sSck := v } }
  | .sDin => { s with lines := { s.lines with sDin := v } }

end Sys2Proof.Machine
end

