-- ==== Sys2Proof/Machine/Xfer.lean ====
section
/-! DEFINITION. XFER at both levels (spec 43_transfer.md): one atomic step (R130), or HOST's sub-steps (R133), its time-out
(R135 (b)) and the `bus_fault` oracle (R135 (c)); and what SLOT_POLL does once its transfer is over (44_slot.md R141). -/

namespace Sys2Proof.Machine

/-- The lines of SLOT_POLL after its XFER returned the frame `r` (44_slot.md R141): the validity test, DES, the push. -/
def State.slotPollEnd (s : State) (i : Fin 32) (r : Frame) : State :=
  if frameValid s.params r then
    match queuePush s.params.qcap (s.queue i .rx) (deserialize r) with
    | none => s.raise .rxOverflow
    | some items => (s.setQueue i .rx items).ret .ok
  else s.raise .invalidMessage

/-- XFER ends with a frame or a `BusError`: XFER itself returns it; SLOT_POLL goes on, or raises the error (44_slot.md R141). -/
def State.xferReturn (s : State) (caller : Caller) (x : Except BusCause Frame) : State :=
  match x with
  | .error cause => s.raise (.busError cause)
  | .ok r =>
    match caller with
    | .xfer => s.ret (.frame r)
    | .slotPoll i => s.slotPollEnd i r

/-- The transaction is over on the bus: it enters the history, `bus_fault` is consulted, and XFER returns (43_transfer.md R130,
R135 (c)). -/
def State.xferFinish (s : State) (caller : Caller) (c : Byte) (p r : Frame) : State :=
  let s1 := (s.logTransaction c p r).busFaultTaken
  s1.xferReturn caller (if s.busFaultNow then .error .fault else .ok r)

/-- CSE after a transaction to `c` (43_transfer.md R130, "State written"). -/
def Cse.afterXfer (m : Cse) (c : Byte) : Cse :=
  { m with phase0 := .cIdle, ctlf := [], csActive := false, csIndex := c.setWidth 5, csl := Config.csIdle }

/-- MCG after a transaction that sent `p` and received `r` (43_transfer.md R130, "State written"). `bitcnt` is 32 since the
last MCG-SAMPLE and is cleared only by a load (42_waveform.md R104, R106; DEDUCED, log 25). -/
def Mcg.afterXfer (m : Mcg) (k : Params) (p r : Frame) : Mcg :=
  { m with phase1 := .mLoad, osr := 0, isr := frameWord1 r, bitcnt := 32, wordcnt := 0, txf := [], rxf := [], sck := k.sckIdle,
           mosi := p.b7.getLsbD 0 }

/-- The driver after a whole transaction, 64 levels of MISO drawn (43_transfer.md R130). -/
def State.driverAfterXfer (s : State) (c : Byte) (p : Frame) : State :=
  { s with cse := s.cse.afterXfer c, mcg := s.mcg.afterXfer s.params p s.oracle.misoFrame, done := false,
           oracle := s.oracle.misoTaken 64 }

/-- XFER as one atomic step (43_transfer.md R130). -/
def State.xferAtomic (s : State) (caller : Caller) (c : Byte) (p : Frame) : State :=
  (s.driverAfterXfer c p).xferFinish caller c p s.oracle.misoFrame

/-- The entry sub-step of XFER at the waveform level (43_transfer.md R133). -/
def State.xferEnter (s : State) (caller : Caller) (c : Byte) (p : Frame) : State :=
  { s with host := { s.host with hphase := .hCtl, hCs := c, hW0 := frameWord0 p, hW1 := frameWord1 p, caller := caller,
                                 polls := 0 } }

/-- `XFER c, p` on behalf of `caller` (43_transfer.md R130): `c` above 31 is an error result before anything changes (R137); a
driver that is not clean is refused (R131); else the transaction, as one step at the transaction level, by its entry at the waveform level. -/
def State.xfer (s : State) (caller : Caller) (c : Byte) (p : Frame) : Host.Outcome State Fault Refusal :=
  if 31 < c.toNat then .next (s.xferReturn caller (.error .invalidChipSelect))
  else if s.clean then
    if s.atomicXfer then .next (s.xferAtomic caller c p) else .next (s.xferEnter caller c p)
  else .refused .driverNotClean

/-- `XFER c, p` (43_transfer.md R130). -/
def execXfer (c : Byte) (p : Frame) (s : State) : Host.Outcome State Fault Refusal := s.hostCall (s.xfer .xfer c p)

/-! ### HOST's sub-steps at the waveform level -/

/-- Sub-step `H_CTL` (43_transfer.md R133). -/
def State.hostCtl (s : State) : State :=
  if s.cse.ctlf.length < s.params.wfifoDepth then
    { s with cse := { s.cse with ctlf := s.cse.ctlf ++ [controlWord s.host.hCs] }, host := { s.host with hphase := .hW0 } }
  else s

/-- Sub-step `H_W0` (43_transfer.md R133). -/
def State.hostW0 (s : State) : State :=
  if s.mcg.txf.length < s.params.wfifoDepth then
    { s with mcg := { s.mcg with txf := s.mcg.txf ++ [s.host.hW0] }, host := { s.host with hphase := .hW1 } }
  else s

/-- Sub-step `H_W1` (43_transfer.md R133). -/
def State.hostW1 (s : State) : State :=
  if s.mcg.txf.length < s.params.wfifoDepth then
    { s with mcg := { s.mcg with txf := s.mcg.txf ++ [s.host.hW1] }, host := { s.host with hphase := .hR0 } }
  else s

/-- A poll that finds `rxf` empty: HOST stays where it is, and the poll is counted (43_transfer.md R135 (b), log 19). -/
def State.hostPoll (s : State) : State := { s with host := { s.host with polls := s.host.polls + 1 } }

/-- Sub-step `H_R0`: the first received word (43_transfer.md R133). -/
def State.hostR0 (s : State) : State :=
  match s.mcg.rxf with
  | [] => s.hostPoll
  | w :: rest => { s with mcg := { s.mcg with rxf := rest }, host := { s.host with hR0 := w, hphase := .hR1 } }

/-- HOST leaves XFER (10_state.md R22). -/
def State.leaveXfer (s : State) : State := { s with host := { s.host with hphase := .hNone } }

/-- HOST takes the last received word, with `rest` left in `rxf`, and leaves XFER (43_transfer.md R133). -/
def State.lastWordTaken (s : State) (rest : List Word32) : State :=
  { s.leaveXfer with mcg := { s.mcg with rxf := rest } }

/-- Sub-step `H_R1`: the second received word, and XFER returns the frame of both (43_transfer.md R132, R133). -/
def State.hostR1 (s : State) : State :=
  match s.mcg.rxf with
  | [] => s.hostPoll
  | w :: rest =>
    (s.lastWordTaken rest).xferFinish s.host.caller s.host.hCs (frameOfWords s.host.hW0 s.host.hW1) (frameOfWords s.host.hR0 w)

/-- The next sub-step of the XFER in progress; none when HOST is outside XFER (43_transfer.md R133). -/
def State.hostSubStep (s : State) : State :=
  match s.host.hphase with
  | .hNone => s
  | .hCtl => s.hostCtl
  | .hW0 => s.hostW0
  | .hW1 => s.hostW1
  | .hR0 => s.hostR0
  | .hR1 => s.hostR1

/-- HOST's choice to time out (43_transfer.md R135 (b)); the machines carry on. -/
def State.hostTimeout (s : State) : State :=
  if s.mayTimeout then s.leaveXfer.xferReturn s.host.caller (.error .timeout) else s

end Sys2Proof.Machine
end

