-- ==== Sys2Proof/Machine/Agents.lean ====
section
/-! DEFINITION. What each agent does with its turn (spec 00_scope.md R5, 42_waveform.md R100), up to the instruction it runs:
HOST fetches its next call, CSE its next control word; every other step of an agent has no row in the opcode table and is done
here. -/

namespace Sys2Proof.Machine

/-- What a turn comes to: an instruction to run in a state, a step already done, or a refusal. -/
inductive Fetched where
  | run (i : Instr) (s : State)
  | finished (s : State)
  | refused (r : Refusal)
  deriving DecidableEq, Repr

/-- The instruction of a HOST call. A control word or a data word is no call of HOST's: the word channels are reached through
XFER alone (60_exceptions.md R156). Bytes after the operands are not read. -/
def decodeCall (c : Call) : Except Refusal Instr :=
  match c.format with
  | .csw | .dw => .error .wordChannelAccess
  | .frame | .op =>
    match decode c.format c.bytes with
    | .ok (i, _) => .ok i
    | .error e => .error (.undecodable e)

/-- HOST's turn: inside XFER its next sub-step, and no other (43_transfer.md R133); outside, its next call, in program order
(20_memory.md R53); with no call left, nothing (70_reset_and_hazards.md R188). -/
def State.hostTurn (s : State) : Fetched :=
  if s.host.hphase = .hNone then
    match s.host.calls with
    | [] => .finished s
    | c :: rest =>
      match decodeCall c with
      | .ok i => .run i { s with host := { s.host with calls := rest } }
      | .error r => .refused r
  else .finished s.hostSubStep

/-- CSE's turn: CSE-SELECT runs the control word at the head of `ctlf`, else CSE-RELEASE (42_waveform.md R102, R103). -/
def State.cseTurn (s : State) : Fetched :=
  if s.preCseSelect then
    match s.cse.ctlf with
    | [] => .finished s
    | w :: _ => .run (decodeCsw w) s
  else .finished s.cseRelease

/-- The agent whose turn it is takes it (20_memory.md R55, 42_waveform.md R100). -/
def State.fetch (s : State) : Fetched :=
  match s.turn with
  | .host => s.turnTaken.hostTurn
  | .hostTimeout => .finished s.turnTaken.hostTimeout
  | .cse => s.turnTaken.cseTurn
  | .mcg => .finished s.turnTaken.mcgStep
  | .scr => .finished s.turnTaken.scrStep
  | .env line v => .finished (s.turnTaken.envSet line v)

/-- The calls of one tick: SLOT_POLL 0, SLOT_POLL 1, ..., SLOT_POLL 31 (30_encoding.md R69, 60_exceptions.md R166). -/
def tickCalls : List Call := (List.range 32).map fun k => ⟨.op, encode (.slotPoll (BitVec.ofNat 8 k))⟩

/-- The call placed where HOST fetches next, HOST's turn coming first. HOST is put outside XFER, since inside it fetches no
call (log 26). -/
def State.placeCall (s : State) (c : Call) : State :=
  { s with host := { s.host with hphase := .hNone, calls := c :: s.host.calls },
           oracle := { s.oracle with turns := .host :: s.oracle.turns } }

/-- The control word `w` placed where CSE fetches next, CSE's turn coming first. CSE is put into `C_IDLE` and running, since
otherwise it fetches no control word (log 26). -/
def State.placeControlWord (s : State) (w : Word32) : State :=
  { s with cse := { s.cse with phase0 := .cIdle, en0 := true, ctlf := w :: s.cse.ctlf.tail },
           oracle := { s.oracle with turns := .cse :: s.oracle.turns } }

/-- A word of the opcode table placed where the machine fetches its next instruction of that format. -/
def State.placeTableWord (s : State) (nbits w : Nat) : State :=
  match tableCall nbits w with
  | none => s
  | some c =>
    match c.format with
    | .csw => s.placeControlWord (BitVec.ofNat 32 w)
    | .frame | .dw | .op => s.placeCall c

end Sys2Proof.Machine
end

