-- ==== Sys2Proof/Machine/Codec.lean ====
section
/-! DEFINITION. The meanings of SER, DES and of the twelve FRAME rows. A FRAME row is what HOST's DES makes of a frame that
matches it (spec 30_encoding.md R67, 40_codec.md R81): the event of the row's `decodes_to` is returned to HOST; the block gives
the event type no further meaning (R83) (log 12). -/

namespace Sys2Proof.Machine

/-- `SER e` (40_codec.md R80). -/
def execSer (e : Event) (s : State) : Host.Outcome State Fault Refusal :=
  s.hostCall (.next (s.ret (.frame (serialize e))))

/-- `DES p` (40_codec.md R81). -/
def execDes (p : Frame) (s : State) : Host.Outcome State Fault Refusal :=
  s.hostCall (.next (s.ret (.event (deserialize p))))

/-- DES of a frame returns the event `e` to HOST. -/
def State.decodesTo (s : State) (e : Event) : Host.Outcome State Fault Refusal := s.hostCall (.next (s.ret (.event e)))

/-- EV_INPUT: Input, `sub_id` = bits 62:56. -/
def execEvInput (subId : BitVec 7) (b : Body) (s : State) : Host.Outcome State Fault Refusal :=
  s.decodesTo (bodyEvent b (.input subId))

/-- EV_OUTPUT. -/
def execEvOutput (b : Body) (s : State) : Host.Outcome State Fault Refusal := s.decodesTo (bodyEvent b .output)

/-- EV_MEMWRITE. -/
def execEvMemWrite (b : Body) (s : State) : Host.Outcome State Fault Refusal := s.decodesTo (bodyEvent b .memWrite)

/-- EV_REBOOT: an event like any other; the jump to the bootloader is the scheduler's (40_codec.md R83). -/
def execEvReboot (b : Body) (s : State) : Host.Outcome State Fault Refusal := s.decodesTo (bodyEvent b .reboot)

/-- EV_SETCONTROLLERID. -/
def execEvSetControllerId (b : Body) (s : State) : Host.Outcome State Fault Refusal :=
  s.decodesTo (bodyEvent b .setControllerId)

/-- EV_LOG. -/
def execEvLog (b : Body) (s : State) : Host.Outcome State Fault Refusal := s.decodesTo (bodyEvent b .log)

/-- EV_FALLBACK_00: the deliberate fallback (30_encoding.md R65). -/
def execEvFallback00 (b : Body) (s : State) : Host.Outcome State Fault Refusal := s.decodesTo (bodyEvent b (.input 0))

/-- EV_FALLBACK_06_07: the low bit of byte 0 has no meaning (30_encoding.md R65). -/
def execEvFallback06 (b : Body) (s : State) : Host.Outcome State Fault Refusal := s.decodesTo (bodyEvent b (.input 0))

/-- EV_FALLBACK_08_0F: the low bits of byte 0 have no meaning (30_encoding.md R65). -/
def execEvFallback08 (b : Body) (s : State) : Host.Outcome State Fault Refusal := s.decodesTo (bodyEvent b (.input 0))

/-- EV_FALLBACK_10_1F: the low bits of byte 0 have no meaning (30_encoding.md R65). -/
def execEvFallback10 (b : Body) (s : State) : Host.Outcome State Fault Refusal := s.decodesTo (bodyEvent b (.input 0))

/-- EV_FALLBACK_20_3F: the low bits of byte 0 have no meaning (30_encoding.md R65). -/
def execEvFallback20 (b : Body) (s : State) : Host.Outcome State Fault Refusal := s.decodesTo (bodyEvent b (.input 0))

/-- EV_FALLBACK_40_7F: the low bits of byte 0 have no meaning (30_encoding.md R65). -/
def execEvFallback40 (b : Body) (s : State) : Host.Outcome State Fault Refusal := s.decodesTo (bodyEvent b (.input 0))

end Sys2Proof.Machine
end

