-- ==== Sys2Proof/Machine/Queue.lean ====
section
/-! DEFINITION. The meanings of QPUSH, QPOP, QPEEK and QDISCARD on the 64 queues of the slots (spec 41_queue.md). -/

namespace Sys2Proof.Machine

/-- QPUSH on queue `d` of slot `i` (41_queue.md R90). -/
def State.qpush (s : State) (i : Fin 32) (d : Side) (x : Event) : State :=
  match queuePush s.params.qcap (s.queue i d) x with
  | none => s.raise .overflow
  | some items => (s.setQueue i d items).ret .ok

/-- QPOP on queue `d` of slot `i` (41_queue.md R91). -/
def State.qpop (s : State) (i : Fin 32) (d : Side) : State :=
  match queuePop (s.queue i d) with
  | none => s.ret .empty
  | some (x, items) => (s.setQueue i d items).ret (.event x)

/-- QPEEK on queue `d` of slot `i` (41_queue.md R92). -/
def State.qpeek (s : State) (i : Fin 32) (d : Side) : State :=
  match queuePeek (s.queue i d) with
  | none => s.ret .empty
  | some x => s.ret (.event x)

/-- QDISCARD on queue `d` of slot `i` (41_queue.md R93). -/
def State.qdiscard (s : State) (i : Fin 32) (d : Side) : State := (s.setQueue i d (queueDiscard (s.queue i d))).ret .unit

/-- `QPUSH q, x` (41_queue.md R90). -/
def execQpush (q : QueueRef) (x : Event) (s : State) : Host.Outcome State Fault Refusal :=
  s.hostCall (withSlot q.slot fun i => .next (s.qpush i q.side x))

/-- `QPOP q` (41_queue.md R91). -/
def execQpop (q : QueueRef) (s : State) : Host.Outcome State Fault Refusal :=
  s.hostCall (withSlot q.slot fun i => .next (s.qpop i q.side))

/-- `QPEEK q` (41_queue.md R92). -/
def execQpeek (q : QueueRef) (s : State) : Host.Outcome State Fault Refusal :=
  s.hostCall (withSlot q.slot fun i => .next (s.qpeek i q.side))

/-- `QDISCARD q` (41_queue.md R93). -/
def execQdiscard (q : QueueRef) (s : State) : Host.Outcome State Fault Refusal :=
  s.hostCall (withSlot q.slot fun i => .next (s.qdiscard i q.side))

end Sys2Proof.Machine
end

