-- ==== Sys2Proof/Machine/SlotOps.lean ====
section
/-! DEFINITION. The meanings of SLOT_POLL, SLOT_SEND and SLOT_RECV (spec 44_slot.md). -/

namespace Sys2Proof.Machine

/-- The event SLOT_POLL sends: the oldest of the transmit queue, or PING (44_slot.md R140, R141). -/
def State.pollEvent (s : State) (i : Fin 32) : Event :=
  match queuePop (s.queue i .tx) with
  | none => ping s.params
  | some (x, _) => x

/-- The state once SLOT_POLL has popped the transmit queue (44_slot.md R141). -/
def State.pollPopped (s : State) (i : Fin 32) : State :=
  match queuePop (s.queue i .tx) with
  | none => s
  | some (_, items) => s.setQueue i .tx items

/-- SLOT_POLL on slot `i` (44_slot.md R141): pop or PING, SER, XFER to the slot's own chip-select, and what follows the
transfer (`slotPollEnd`). -/
def State.slotPoll (s : State) (i : Fin 32) : Host.Outcome State Fault Refusal :=
  (s.pollPopped i).xfer (.slotPoll i) (s.slots[i].cs.setWidth 8) (serialize (s.pollEvent i))

/-- SLOT_SEND on slot `i` (44_slot.md R142). -/
def State.slotSend (s : State) (i : Fin 32) (e : Event) : State :=
  match queuePush s.params.qcap (s.queue i .tx) e with
  | none => s.raise .txOverflow
  | some items => (s.setQueue i .tx items).ret .ok

/-- SLOT_RECV on slot `i` (44_slot.md R143). -/
def State.slotRecv (s : State) (i : Fin 32) : State :=
  match queuePop (s.queue i .rx) with
  | none => s.ret .noEvent
  | some (x, items) => (s.setQueue i .rx items).ret (.event x)

/-- `SLOT_POLL i` (44_slot.md R141). -/
def execSlotPoll (i : Byte) (s : State) : Host.Outcome State Fault Refusal := s.hostCall (withSlot i s.slotPoll)

/-- `SLOT_SEND i, e` (44_slot.md R142). -/
def execSlotSend (i : Byte) (e : Event) (s : State) : Host.Outcome State Fault Refusal :=
  s.hostCall (withSlot i fun j => .next (s.slotSend j e))

/-- `SLOT_RECV i` (44_slot.md R143). -/
def execSlotRecv (i : Byte) (s : State) : Host.Outcome State Fault Refusal :=
  s.hostCall (withSlot i fun j => .next (s.slotRecv j))

end Sys2Proof.Machine
end

