-- ==== Sys2Proof/Machine/Dispatch.lean ====
section
/-! DEFINITION. One arm per row of spec/opcode_table.json, each a direct call of its meaning. -/

namespace Sys2Proof.Machine

def exec (i : Instr) (s : State) : Host.Outcome State Fault Refusal :=
  match i with
  | .evInput subId body => Sys2Proof.Machine.execEvInput subId body s
  | .evOutput body => Sys2Proof.Machine.execEvOutput body s
  | .evMemWrite body => Sys2Proof.Machine.execEvMemWrite body s
  | .evReboot body => Sys2Proof.Machine.execEvReboot body s
  | .evSetControllerId body => Sys2Proof.Machine.execEvSetControllerId body s
  | .evLog body => Sys2Proof.Machine.execEvLog body s
  | .evFallback00 body => Sys2Proof.Machine.execEvFallback00 body s
  | .evFallback06 _ body => Sys2Proof.Machine.execEvFallback06 body s
  | .evFallback08 _ body => Sys2Proof.Machine.execEvFallback08 body s
  | .evFallback10 _ body => Sys2Proof.Machine.execEvFallback10 body s
  | .evFallback20 _ body => Sys2Proof.Machine.execEvFallback20 body s
  | .evFallback40 _ body => Sys2Proof.Machine.execEvFallback40 body s
  | .cswSelect index upper => Sys2Proof.Machine.execCswSelect index upper s
  | .ser e => Sys2Proof.Machine.execSer e s
  | .des p => Sys2Proof.Machine.execDes p s
  | .qpush q x => Sys2Proof.Machine.execQpush q x s
  | .qpop q => Sys2Proof.Machine.execQpop q s
  | .qpeek q => Sys2Proof.Machine.execQpeek q s
  | .qdiscard q => Sys2Proof.Machine.execQdiscard q s
  | .xfer c p => Sys2Proof.Machine.execXfer c p s
  | .slotPoll n => Sys2Proof.Machine.execSlotPoll n s
  | .slotSend n e => Sys2Proof.Machine.execSlotSend n e s
  | .slotRecv n => Sys2Proof.Machine.execSlotRecv n s

end Sys2Proof.Machine
end

