-- ==== Sys2Proof/Safety.lean ====
section
/-! DEFINITION. What claims about the machine are stated in: the premises the spec asks claims to name, the end of a run, and the
invariants of the queues and of the driver. -/

namespace Sys2Proof.Machine

/-! ### Premises (spec INDEX.md, 70_reset_and_hazards.md) -/

/-- `machines_run` (70_reset_and_hazards.md R192): CSE and MCG are started. -/
def State.machinesRun (s : State) : Prop := s.cse.en0 = true ∧ s.mcg.en1 = true

/-- `bring_up_complete` (70_reset_and_hazards.md R186), as far as it is state: the three machines are started, the select lines
and the clock have their idle values, the word channels are empty. MOSI and S_DOUT have no idle value of the spec's (10_state.md
R26); the pins' directions and the programs are not state (20_memory.md R57); the slots exist by type (R187). -/
structure State.BringUpComplete (s : State) : Prop where
  started : s.machinesRun ∧ s.scr.en2 = true
  selectIdle : s.cse.csl = Config.csIdle
  clockIdle : s.mcg.sck = s.params.sckIdle
  noWords : s.cse.ctlf = [] ∧ s.mcg.txf = [] ∧ s.mcg.rxf = []

/-- `no_bus_fault` (decision D10): the oracle answers the next XFER with false. -/
def State.noBusFault (s : State) : Prop := s.busFaultNow = false

/-- `cs_interlock` (70_reset_and_hazards.md R191): at a shift edge the select lines carry the index of the current control
word. -/
def State.csInterlock (s : State) : Prop := s.mcg.phase1 = .mShift → s.cse.csActive = true ∧ s.cse.csl = s.cse.csIndex

/-- Whether a claim may rely on device `c` seeing its select change (70_reset_and_hazards.md R190 (b)): not for device 31 on a
board that knows it by the five lines alone. -/
def Params.selectEdgeVisible (k : Params) (c : BitVec 5) : Bool := c != 31#5 || !k.slot31AliasesIdle

/-- The driver has no transaction pending and its release has run: the last four conditions of 70_reset_and_hazards.md R188. -/
structure State.DriverSettled (s : State) : Prop where
  phase0 : s.cse.phase0 = .cIdle
  phase1 : s.mcg.phase1 = .mLoad
  notDone : s.done = false
  noWords : s.cse.ctlf = [] ∧ s.mcg.txf = [] ∧ s.mcg.rxf = []

/-- A run is over (70_reset_and_hazards.md R188): HOST has returned from its last operation and no transaction is pending. -/
structure State.RunOver (s : State) : Prop where
  returned : s.host.hphase = .hNone
  noCalls : s.host.calls = []
  settled : s.DriverSettled

/-- At the transaction level HOST is outside XFER between two steps (10_state.md R22). -/
def State.LevelInv (s : State) : Prop := s.level = .transaction → s.host.hphase = .hNone

/-! ### The queues and the slots -/

/-- Every queue holds at most `QCAP` events and `slot[i].cs = i` (10_state.md R11, R13). -/
structure State.SlotsInv (s : State) : Prop where
  txBound : ∀ i : Fin 32, s.slots[i].txq.length ≤ s.params.qcap
  rxBound : ∀ i : Fin 32, s.slots[i].rxq.length ≤ s.params.qcap
  index : ∀ i : Fin 32, s.slots[i].cs = BitVec.ofFin i

/-! ### Frames -/

/-- `t` differs from `s` in the slots and in the results returned alone. -/
structure DriverUntouched (s t : State) : Prop where
  params : t.params = s.params
  chosenLevel : t.chosenLevel = s.chosenLevel
  cse : t.cse = s.cse
  mcg : t.mcg = s.mcg
  done : t.done = s.done
  scr : t.scr = s.scr
  lines : t.lines = s.lines
  busLog : t.busLog = s.busLog
  oracle : t.oracle = s.oracle
  host : t.host = { s.host with returned := t.host.returned }

/-! ### The driver -/

/-- MCG is between an MCG-LOAD and the next MCG-PUSH. -/
def McgPhase.inWord : McgPhase → Bool
  | .mShift | .mSample | .mPush => true
  | .mLoad | .mDone => false

/-- The bounds of `bitcnt` by phase (10_state.md R19, 42_waveform.md R104 to R107). -/
def Mcg.BitcntOk (m : Mcg) : Prop :=
  match m.phase1 with
  | .mShift | .mSample => m.bitcnt < 32
  | .mPush => m.bitcnt = 32
  | .mLoad | .mDone => m.bitcnt ≤ 32

/-- The invariant of CSE and MCG in every reachable state (10_state.md R16 to R19, 42_waveform.md R108, R109 (a), (e)). -/
structure State.DriverInv (s : State) : Prop where
  /-- R16, R17, R18: idle with the lines all high, or selected with the lines carrying the index. -/
  select : (s.cse.phase0 = .cIdle ∧ s.cse.csActive = false ∧ s.cse.csl = Config.csIdle) ∨
    (s.cse.phase0 = .cHold ∧ s.cse.csActive = true ∧ s.cse.csl = s.cse.csIndex)
  /-- R109 (a). -/
  clock : s.mcg.sck = if s.mcg.phase1 = .mSample then !s.params.sckIdle else s.params.sckIdle
  bitcnt : s.mcg.BitcntOk
  /-- R19, R107. -/
  wordcnt : s.mcg.wordcnt ≤ 1 ∧ (s.mcg.phase1 = .mDone → s.mcg.wordcnt = 0)
  /-- R103, R107, R108: the completion signal is up only while MCG waits for CSE to consume it. -/
  completion : s.done = true → s.mcg.phase1 = .mDone ∧ s.cse.phase0 = .cHold
  /-- R109 (e), and between the two words of a transaction. -/
  active : s.mcg.phase1.inWord = true ∨ s.mcg.wordcnt = 1 → s.cse.csActive = true

/-- The word channels hold at most `WFIFO_DEPTH` words (10_state.md R17, R19). -/
structure State.ChannelInv (s : State) : Prop where
  ctlf : s.cse.ctlf.length ≤ s.params.wfifoDepth
  txf : s.mcg.txf.length ≤ s.params.wfifoDepth
  rxf : s.mcg.rxf.length ≤ s.params.wfifoDepth

/-! ### One transfer at the waveform level -/

/-- How many data words HOST has written in the XFER in progress (43_transfer.md R133). -/
def HostPhase.written : HostPhase → Nat
  | .hNone | .hCtl | .hW0 => 0
  | .hW1 => 1
  | .hR0 | .hR1 => 2

/-- How many received words HOST has read in the XFER in progress (43_transfer.md R133). -/
def HostPhase.read : HostPhase → Nat
  | .hR1 => 1
  | .hNone | .hCtl | .hW0 | .hW1 | .hR0 => 0

/-- HOST has written the control word of the XFER in progress (43_transfer.md R133). -/
def HostPhase.controlled : HostPhase → Bool
  | .hNone | .hCtl => false
  | .hW0 | .hW1 | .hR0 | .hR1 => true

/-- How many words of the XFER in progress MCG has delivered. -/
def State.delivered (s : State) : Nat := s.mcg.rxf.length + s.host.hphase.read

/-- The word MCG is shifting out: the first or the second of the XFER in progress. -/
def State.currentWord (s : State) : Word32 := if s.delivered = 0 then s.host.hW0 else s.host.hW1

/-- The bit-time (20_memory.md R44) of MCG's next shift edge. -/
def State.bitTime (s : State) : Nat := 32 * s.delivered + s.mcg.bitcnt

/-- No transaction holds CSE and MCG: the first two conditions of the clean state (43_transfer.md R131). -/
def State.driverFree (s : State) : Prop :=
  (s.cse.phase0 = .cIdle ∨ (s.cse.phase0 = .cHold ∧ s.done = true)) ∧ (s.mcg.phase1 = .mLoad ∨ s.mcg.phase1 = .mDone)

/-- Where the transaction of the XFER in progress stands (42_waveform.md R118): its control word waits, or its slot is selected
and words are outstanding, or both words are delivered. -/
def State.transactionStage (s : State) : Prop :=
  (s.cse.ctlf = [controlWord s.host.hCs] ∧ s.delivered = 0 ∧ s.driverFree) ∨
  (s.cse.ctlf = [] ∧ s.cse.phase0 = .cHold ∧ s.cse.csIndex = s.host.hCs.setWidth 5 ∧ s.delivered < 2 ∧ s.done = false) ∨
  (s.cse.ctlf = [] ∧ s.delivered = 2 ∧ s.driverFree)

/-- The data register against the word being sent (42_waveform.md R104, R105): after `bitcnt` samples `osr` is the word shifted
left that often, and between a shift edge and its sample edge MOSI carries the bit. -/
def State.sendRegister (s : State) : Prop :=
  match s.mcg.phase1 with
  | .mShift => s.mcg.osr = s.currentWord <<< s.mcg.bitcnt
  | .mSample => s.mcg.osr = s.currentWord <<< (s.mcg.bitcnt + 1) ∧ s.mcg.mosi = s.currentWord.getLsbD (31 - s.mcg.bitcnt)
  | .mLoad | .mPush | .mDone => True

/-- The invariant of the XFER in progress, under no time-out (43_transfer.md R131, R134): HOST's position, the word channels and
the machines fit together; outside XFER the driver is clean. -/
structure State.TransferInv (s : State) : Prop where
  driver : s.DriverInv
  /-- Outside a transaction no control word waits and the driver is free. -/
  idle : s.host.hphase.controlled = false → s.cse.ctlf = [] ∧ s.driverFree
  stage : s.host.hphase.controlled = true → s.transactionStage
  /-- The words written but not yet loaded are those in `txf`, in order. -/
  pending : s.mcg.txf = ([s.host.hW0, s.host.hW1].take s.host.hphase.written).drop
    (s.delivered + (if s.mcg.phase1.inWord then 1 else 0))
  loaded : s.delivered + (if s.mcg.phase1.inWord then 1 else 0) ≤ s.host.hphase.written
  wordcnt : s.mcg.wordcnt = if s.delivered = 1 then 1 else 0
  data : s.sendRegister

/-- How many levels of MISO the XFER in progress has sampled. -/
def State.samples (s : State) : Nat := 32 * s.delivered + (if s.mcg.phase1.inWord then s.mcg.bitcnt else 0)

/-- The receive side of the XFER in progress, against the oracle `o` of its entry (43_transfer.md R134 (e)): the levels still to
come, the words delivered in order, and the bits of the current word already in `isr`. -/
structure State.ReceiveInv (o : Oracle) (s : State) : Prop where
  future : ∀ k, s.oracle.misoBit k = o.misoBit (s.samples + k)
  words : (if s.host.hphase = .hR1 then [s.host.hR0] else []) ++ s.mcg.rxf = [o.misoWord 0 32, o.misoWord 32 32].take s.delivered
  register : s.mcg.phase1.inWord = true → ∀ j < s.mcg.bitcnt, s.mcg.isr.getLsbD j = o.misoBit (s.samples - 1 - j)

/-! ### How a transfer ends, or hangs -/

/-- How many of HOST's sub-steps the XFER in progress still takes (43_transfer.md R133). -/
def HostPhase.stepsLeft : HostPhase → Nat
  | .hNone => 0
  | .hCtl => 5
  | .hW0 => 4
  | .hW1 => 3
  | .hR0 => 2
  | .hR1 => 1

/-- How many steps CSE still takes for the XFER in progress: the pending release, then a select and its release (42_waveform.md
R118). -/
def State.cseStepsLeft (s : State) : Nat :=
  (if s.cse.phase0 = .cHold then 1 else 0) + (if s.host.hphase = .hCtl ∨ s.cse.ctlf ≠ [] then 2 else 0)

/-- How many steps MCG still takes for the word it is shifting (42_waveform.md R109 (b)). -/
def Mcg.wordStepsLeft (m : Mcg) : Nat :=
  match m.phase1 with
  | .mShift => 2 * (32 - m.bitcnt) + 1
  | .mSample => 2 * (32 - m.bitcnt)
  | .mPush => 1
  | .mLoad | .mDone => 0

/-- How many steps MCG still takes for the XFER in progress: the pending re-arm, 66 for each word not yet loaded, the current
word, and the re-arm after the second (42_waveform.md R118). -/
def State.mcgStepsLeft (s : State) : Nat :=
  (if s.mcg.phase1 = .mDone then 1 else 0) + 66 * (2 - s.delivered - (if s.mcg.phase1.inWord then 1 else 0)) +
    s.mcg.wordStepsLeft + (if s.delivered < 2 then 1 else 0)

/-- How many steps of HOST, CSE and MCG the XFER in progress still takes, the release and the re-arm after it among them; none
outside XFER. -/
def State.stepsLeft (s : State) : Nat :=
  if s.host.hphase = .hNone then 0 else s.host.hphase.stepsLeft + s.cseStepsLeft + s.mcgStepsLeft

/-- XFER hangs (43_transfer.md R135 (a)): no time-out is set, HOST is inside XFER with no word received, and a stopped machine
keeps it so. -/
structure State.Stalled (s : State) : Prop where
  noTimeout : s.params.xferTimeout = none
  inside : s.host.hphase ≠ .hNone ∧ s.host.hphase ≠ .hR1
  noWord : s.mcg.rxf = []
  /-- MCG is stopped; or CSE is, with no slot selected or the last release for ever pending. -/
  stopped : s.mcg.en1 = false ∨ (s.cse.en0 = false ∧
    ((s.cse.csActive = false ∧ (s.mcg.phase1 = .mLoad ∨ s.mcg.phase1 = .mDone)) ∨ (s.done = true ∧ s.mcg.phase1 = .mDone)))

/-- The turns of one transfer in the order of 42_waveform.md R118: whatever the last transfer left pending, HOST's entry and three
writes, CSE-SELECT, the 132 steps of MCG, HOST's two reads, CSE-RELEASE, MCG-REARM. -/
def transferTurns : List Turn :=
  [.cse, .mcg, .host, .host, .host, .host, .cse] ++ List.replicate 132 .mcg ++ [.host, .host, .cse, .mcg]

end Sys2Proof.Machine
end

