-- ==== Sys2Proof/Certificates/Slice0/Obligations.lean ====
section
/-! DEFINITION. The statements for the provers. Each docstring names the rules of spec/ the statement formalises. `s.turn` is the
agent whose turn it is; an operation is called while HOST is outside XFER (10_state.md R22), which is `s.host.hphase = .hNone`. -/

open Sys2Proof Sys2Proof.Machine

/-! ### Encodings -/

/-- For every instruction, all 23 constructors with every operand, decoding the bytes the encoder writes gives that
instruction with no byte left over (30_encoding.md, sections 1 to 6). The bytes of an operation's operands after its ordinal
are the model's own (logs 10 and 11). -/
def Obligations.DecodeOfEncodeIsTheInstruction : Prop :=
  ∀ i : Instr, decode i.format (encode i) = .ok (i, [])

/-- The FRAME rows partition the frames: what the decoder reads from a frame is a FRAME instruction, and a FRAME instruction
has the bytes of the frame as its encoding exactly when it is that one (30_encoding.md, section 5). -/
def Obligations.EveryFrameMatchesExactlyOneRow : Prop :=
  ∀ p : Frame, (decodeFrame p).format = .frame ∧
    ∀ i : Instr, i.format = .frame → (encode i = p.bytes ↔ i = decodeFrame p)

/-- Every 32-bit word decodes to CSW_SELECT with the index in bits 4:0 and bits 31:5 kept apart, and XFER's word for an index
in 0..31 is the index with the other bits zero (30_encoding.md, section 4; the layout is the spec's own decision D2, log 20).
-/
def Obligations.ControlWordCarriesIndexInLowBits : Prop :=
  (∀ (w : Word32) (rest : List Byte), decode .csw (wordBytes w ++ rest) = .ok (.cswSelect (w.extractLsb' 0 5) (w.extractLsb' 5 27), rest)) ∧
  (∀ c : Byte, c.toNat ≤ 31 → decodeCsw (controlWord c) = .cswSelect (c.setWidth 5) 0)

/-- An Input frame, a SetControllerId frame, a fallback frame and a control word, written out from 30_encoding.md (sections 2,
4, 5), decode as they should. The last clause is the ordinal 7 of XFER (30_encoding.md, section 5): that it decodes to XFER to
chip-select 0 with the zero frame rests on the model's choices, since the table gives an operation no operand bytes and the
model reads those left out as zeros (log 26), in an operand form of its own (log 10). -/
def Obligations.SampleWordsDecode : Prop :=
  decode .frame [0x85#8, 0x12#8, 0x34#8, 0xFF#8, 0xFE#8, 0x07#8, 0x09#8, 0x00#8] =
    .ok (.evInput 5 ⟨0x1234, 0xFFFE, 7, 9, 0⟩, []) ∧
  decode .frame [0x04#8, 0xFF#8, 0xFF#8, 0x80#8, 0x00#8, 0x01#8, 0x02#8, 0x00#8] =
    .ok (.evSetControllerId ⟨0xFFFF, 0x8000, 1, 2, 0⟩, []) ∧
  decode .frame [0x7F#8, 0x01#8, 0x02#8, 0x03#8, 0x04#8, 0x05#8, 0x06#8, 0x07#8] =
    .ok (.evFallback40 0x3F ⟨0x0102, 0x0304, 5, 6, 7⟩, []) ∧
  decode .csw [0x00#8, 0x00#8, 0x00#8, 0x1F#8] = .ok (.cswSelect 31 0, []) ∧
  decodeTableWord 8 0x07 = some (.xfer 0 Frame.zero)

/-! ### The codec -/

/-- SER, called outside XFER, returns the frame of the event and nothing else changes: byte 0 by the type, id and value
big-endian, controller and sequence, and byte 7 zero (40_codec.md, R80; that byte 7 is 0x00 is the spec's own decision D11,
log 20). -/
def Obligations.SerReturnsTheFrameOfTheEvent : Prop :=
  ∀ (e : Event) (s : State), s.host.hphase = .hNone →
    exec (.ser e) s = .next (s.ret (.frame
      { b0 := match e.eventType with
              | .input sub => 0x80#8 ||| sub.setWidth 8
              | .output => 0x01#8
              | .memWrite => 0x02#8
              | .reboot => 0x03#8
              | .setControllerId => 0x04#8
              | .log => 0x05#8
        b1 := e.id.extractLsb' 8 8
        b2 := e.id.extractLsb' 0 8
        b3 := e.value.extractLsb' 8 8
        b4 := e.value.extractLsb' 0 8
        b5 := e.controllerId
        b6 := e.sequence
        b7 := 0x00#8 }))

/-- DES, called outside XFER, returns an event and nothing else changes: the tag of byte 0 with its fallback to Input with
sub_id 0, id and the signed value by arithmetic on the bytes, controller and sequence; byte 7 is ignored (R81). -/
def Obligations.DesReturnsTheEventOfTheFrame : Prop :=
  ∀ (p : Frame) (s : State), s.host.hphase = .hNone →
    ∃ e : Event, exec (.des p) s = .next (s.ret (.event e)) ∧
      e.id.toNat = 256 * p.b1.toNat + p.b2.toNat ∧
      e.valueInt = (if 256 * p.b3.toNat + p.b4.toNat < 0x8000 then (256 * p.b3.toNat + p.b4.toNat : Int)
        else 256 * p.b3.toNat + p.b4.toNat - 0x10000) ∧
      e.controllerId = p.b5 ∧ e.sequence = p.b6 ∧
      e.eventType =
        if 0x80 ≤ p.b0.toNat then .input (BitVec.ofNat 7 (p.b0.toNat - 0x80))
        else if p.b0.toNat = 1 then .output
        else if p.b0.toNat = 2 then .memWrite
        else if p.b0.toNat = 3 then .reboot
        else if p.b0.toNat = 4 then .setControllerId
        else if p.b0.toNat = 5 then .log
        else .input 0

/-- The round trip (40_codec.md, R82): DES after SER gives the event back. The spec's own inference there ("SER (DES p) = p
exactly when"): SER after DES gives the frame back exactly when byte 7 is zero and byte 0 is in 0x01..0x05 or 0x80..0xFF, and
otherwise differs from it in byte 0 (0x80), in byte 7 (0x00) or both. -/
def Obligations.CodecRoundTrip : Prop :=
  (∀ e : Event, deserialize (serialize e) = e) ∧
  (∀ p : Frame, serialize (deserialize p) = p ↔
    p.b7 = 0 ∧ ((1 ≤ p.b0.toNat ∧ p.b0.toNat ≤ 5) ∨ 0x80 ≤ p.b0.toNat)) ∧
  (∀ p : Frame, serialize (deserialize p) =
    { p with b0 := if (1 ≤ p.b0.toNat ∧ p.b0.toNat ≤ 5) ∨ 0x80 ≤ p.b0.toNat then p.b0 else 0x80#8, b7 := 0 })

/-- Each of the twelve FRAME rows, run outside XFER, answers the state with the event of its decodes_to column returned to
HOST (30_encoding.md, section 5). That HOST's DES of such a frame is the row's meaning is the model's choice (log 12). -/
def Obligations.EventRowsReturnTheirEvent : Prop :=
  ∀ (b : Body) (s : State), s.host.hphase = .hNone →
    (∀ n, exec (.evInput n b) s = .next (s.ret (.event ⟨.input n, b.id, b.value, b.controllerId, b.sequence⟩))) ∧
    exec (.evOutput b) s = .next (s.ret (.event ⟨.output, b.id, b.value, b.controllerId, b.sequence⟩)) ∧
    exec (.evMemWrite b) s = .next (s.ret (.event ⟨.memWrite, b.id, b.value, b.controllerId, b.sequence⟩)) ∧
    exec (.evReboot b) s = .next (s.ret (.event ⟨.reboot, b.id, b.value, b.controllerId, b.sequence⟩)) ∧
    exec (.evSetControllerId b) s = .next (s.ret (.event ⟨.setControllerId, b.id, b.value, b.controllerId, b.sequence⟩)) ∧
    exec (.evLog b) s = .next (s.ret (.event ⟨.log, b.id, b.value, b.controllerId, b.sequence⟩)) ∧
    exec (.evFallback00 b) s = .next (s.ret (.event ⟨.input 0, b.id, b.value, b.controllerId, b.sequence⟩)) ∧
    (∀ x, exec (.evFallback06 x b) s = .next (s.ret (.event ⟨.input 0, b.id, b.value, b.controllerId, b.sequence⟩))) ∧
    (∀ x, exec (.evFallback08 x b) s = .next (s.ret (.event ⟨.input 0, b.id, b.value, b.controllerId, b.sequence⟩))) ∧
    (∀ x, exec (.evFallback10 x b) s = .next (s.ret (.event ⟨.input 0, b.id, b.value, b.controllerId, b.sequence⟩))) ∧
    (∀ x, exec (.evFallback20 x b) s = .next (s.ret (.event ⟨.input 0, b.id, b.value, b.controllerId, b.sequence⟩))) ∧
    (∀ x, exec (.evFallback40 x b) s = .next (s.ret (.event ⟨.input 0, b.id, b.value, b.controllerId, b.sequence⟩)))

/-- The opcode table and DES agree: running the FRAME row a frame matches is DES of that frame, in every state and with the
same outcome (30_encoding.md, section 5; 40_codec.md, R81; log 12). -/
def Obligations.EventRowsAgreeWithDes : Prop :=
  ∀ (p : Frame) (s : State), exec (decodeFrame p) s = exec (.des p) s

/-! ### The queues -/

/-- QPUSH on either queue of a slot, called outside XFER: with N elements in the queue Overflow is returned and no queue
changes, else the element is appended and ok returned (R90). -/
def Obligations.QpushAppendsOrOverflows : Prop :=
  ∀ (q : QueueRef) (i : Fin 32) (x : Event) (s : State), s.host.hphase = .hNone → q.slot.toNat = i.val →
    exec (.qpush q x) s = .next
      (if (s.queue i q.side).length = s.params.qcap then s.ret (.error .overflow)
       else (s.setQueue i q.side (s.queue i q.side ++ [x])).ret .ok)

/-- QPOP on either queue of a slot, called outside XFER: an empty queue answers empty and changes no queue, else the oldest
element is removed and returned (R91). -/
def Obligations.QpopTakesTheOldest : Prop :=
  ∀ (q : QueueRef) (i : Fin 32) (s : State), s.host.hphase = .hNone → q.slot.toNat = i.val →
    (s.queue i q.side = [] → exec (.qpop q) s = .next (s.ret .empty)) ∧
    (∀ x rest, s.queue i q.side = x :: rest → exec (.qpop q) s = .next ((s.setQueue i q.side rest).ret (.event x)))

/-- QPEEK on either queue of a slot, called outside XFER: empty on an empty queue, else the oldest element; no queue changes
(R92). -/
def Obligations.QpeekReadsTheOldest : Prop :=
  ∀ (q : QueueRef) (i : Fin 32) (s : State), s.host.hphase = .hNone → q.slot.toNat = i.val →
    (s.queue i q.side = [] → exec (.qpeek q) s = .next (s.ret .empty)) ∧
    (∀ x rest, s.queue i q.side = x :: rest → exec (.qpeek q) s = .next (s.ret (.event x)))

/-- QDISCARD on either queue of a slot, called outside XFER: the oldest element is removed, nothing is returned, and on an
empty queue no queue changes (R93). -/
def Obligations.QdiscardDropsTheOldest : Prop :=
  ∀ (q : QueueRef) (i : Fin 32) (s : State), s.host.hphase = .hNone → q.slot.toNat = i.val →
    (s.queue i q.side = [] → exec (.qdiscard q) s = .next (s.ret .unit)) ∧
    (∀ x rest, s.queue i q.side = x :: rest → exec (.qdiscard q) s = .next ((s.setQueue i q.side rest).ret .unit))

/-- When QPEEK, QDISCARD after it, and QPOP from the same state each answer, the two ways leave the same slots, and QPEEK
returned what QPOP returned (41_queue.md, R94 (a), an inference the spec marks as its own). -/
def Obligations.PeekThenDiscardIsPop : Prop :=
  ∀ (q : QueueRef) (s t₁ t₂ u : State),
    exec (.qpeek q) s = .next t₁ → exec (.qdiscard q) t₁ = .next t₂ → exec (.qpop q) s = .next u →
    t₂.slots = u.slots ∧ t₁.host.returned = u.host.returned

/-! ### The slots -/

/-- SLOT_SEND, called outside XFER: with a full transmit queue TxOverflow is returned and the queue unchanged, else the event
is appended and ok returned; the bus is not touched (R142). -/
def Obligations.SlotSendEnqueuesOrOverflows : Prop :=
  ∀ (n : Byte) (i : Fin 32) (e : Event) (s : State), s.host.hphase = .hNone → n.toNat = i.val →
    exec (.slotSend n e) s = .next
      (if (s.queue i .tx).length = s.params.qcap then s.ret (.error .txOverflow)
       else (s.setQueue i .tx (s.queue i .tx ++ [e])).ret .ok)

/-- SLOT_RECV, called outside XFER: none on an empty receive queue, else the oldest event is removed and returned (R143). -/
def Obligations.SlotRecvDequeuesOrNone : Prop :=
  ∀ (n : Byte) (i : Fin 32) (s : State), s.host.hphase = .hNone → n.toNat = i.val →
    (s.queue i .rx = [] → exec (.slotRecv n) s = .next (s.ret .noEvent)) ∧
    (∀ x rest, s.queue i .rx = x :: rest → exec (.slotRecv n) s = .next ((s.setQueue i .rx rest).ret (.event x)))

/-- With the default parameters PING serializes to 01 00 00 00 39 27 00 00, bus words 0x01000000 and 0x39270000 (44_slot.md,
R140; the sequence number 0 is the spec's own decision D12, log 20). -/
def Obligations.PingFrameBytes : Prop :=
  serialize (ping {}) = ⟨0x01, 0x00, 0x00, 0x00, 0x39, 0x27, 0x00, 0x00⟩ ∧
  frameWord0 (serialize (ping {})) = 0x01000000#32 ∧ frameWord1 (serialize (ping {})) = 0x39270000#32

/-- SLOT_POLL at the transaction level from a clean driver (44_slot.md, R141, R144): it answers; one event leaves the transmit
queue if there was one; one transaction carries it or PING to the slot's chip-select; the driver is clean; and the result and
the receive queue are, in the order tested, BusError(Fault), InvalidMessage, RxOverflow with the receive queue unchanged, or
ok with the decoded event appended. The level and the shape of the oracle are the model's (logs 1, 3, 4, 5); the causes and
names are the spec's decisions D10, D13, D14. -/
def Obligations.SlotPollOutcomesAtTransactionLevel : Prop :=
  ∀ (n : Byte) (i : Fin 32) (s : State), n.toNat = i.val → s.clean = true → s.level = .transaction →
    ∃ t, exec (.slotPoll n) s = .next t ∧
      t.busLog = s.busLog ++ [⟨s.slots[i].cs.setWidth 8, serialize ((s.queue i .tx).head?.getD (ping s.params)), s.oracle.misoFrame⟩] ∧
      t.queue i .tx = (s.queue i .tx).tail ∧
      t.clean = true ∧
      (if s.busFaultNow = true then
        t.host.returned = s.host.returned ++ [.error (.busError .fault)] ∧ t.queue i .rx = s.queue i .rx
       else if s.oracle.misoFrame ∈ s.params.invalidFrames then
        t.host.returned = s.host.returned ++ [.error .invalidMessage] ∧ t.queue i .rx = s.queue i .rx
       else if (s.queue i .rx).length = s.params.qcap then
        t.host.returned = s.host.returned ++ [.error .rxOverflow] ∧ t.queue i .rx = s.queue i .rx
       else
        t.host.returned = s.host.returned ++ [.ok] ∧
        t.queue i .rx = s.queue i .rx ++ [deserialize s.oracle.misoFrame])

/-- SLOT_POLL at the waveform level from a clean driver (44_slot.md, R141; 43_transfer.md, R133): the transmit event is popped
and HOST enters XFER with its frame, or PING's, for the slot's chip-select; nothing is returned yet and the machines are
untouched. The level is the waveform level wherever an XFER is not one atomic step: where it was chosen, and, whatever was
chosen, where a machine is stopped, a time-out is set or WFIFO_DEPTH is below 2 (43_transfer.md, R134; that such an XFER runs
as sub-steps is the model's choice, log 1). What follows the transfer is stated with HOST's last sub-step. -/
def Obligations.SlotPollEntersTransferAtWaveformLevel : Prop :=
  ∀ (n : Byte) (i : Fin 32) (s : State), n.toNat = i.val → s.clean = true → s.level = .waveform →
    ∃ t, exec (.slotPoll n) s = .next t ∧
      t.queue i .tx = (s.queue i .tx).tail ∧ t.queue i .rx = s.queue i .rx ∧
      t.host.hphase = .hCtl ∧ t.host.hCs = s.slots[i].cs.setWidth 8 ∧ t.host.caller = .slotPoll i ∧
      t.host.hW0 = frameWord0 (serialize ((s.queue i .tx).head?.getD (ping s.params))) ∧
      t.host.hW1 = frameWord1 (serialize ((s.queue i .tx).head?.getD (ping s.params))) ∧
      t.host.returned = s.host.returned ∧ t.cse = s.cse ∧ t.mcg = s.mcg ∧ t.done = s.done

/-- Outside XFER an instruction that is not well-formed, that is an operation on a slot or a queue with an index above 31, is
refused by that name (60_exceptions.md, R156). Inside XFER the refusal is another one (log 17). -/
def Obligations.SlotIndexAbove31IsRefused : Prop :=
  ∀ (i : Instr) (s : State), s.host.hphase = .hNone → i.wellFormed = false → exec i s = .refused .slotIndexAbove31

/-! ### XFER -/

/-- XFER, called outside XFER with a chip-select above 31, returns BusError(InvalidChipSelect) and changes nothing else,
whatever the driver's state (43_transfer.md, R137; the spec's own decision D10, log 20). -/
def Obligations.XferAbove31IsInvalidChipSelect : Prop :=
  ∀ (c : Byte) (p : Frame) (s : State), s.host.hphase = .hNone → 31 < c.toNat →
    exec (.xfer c p) s = .next (s.ret (.error (.busError .invalidChipSelect)))

/-- XFER at the transaction level from a clean driver answers: it returns the frame whose bit of bit-time k is the level of
MISO drawn there, for every level the oracle holds, and the transaction enters the bus history; under a bus fault the
transaction is done all the same and BusError(Fault) is returned (43_transfer.md, R130, R135 (c)). The level, the oracle,
bus_fault and the history are the model's (logs 1, 3, 4, 15). -/
def Obligations.XferReturnsTheSampledFrame : Prop :=
  ∀ (c : Byte) (p : Frame) (s : State), c.toNat ≤ 31 → s.clean = true → s.level = .transaction →
    ∃ (r : Frame) (t : State), exec (.xfer c p) s = .next t ∧
      (∀ k < 64, frameBit r k = s.oracle.misoBit k) ∧ t.busLog = s.busLog ++ [⟨c, p, r⟩] ∧
      t.host.returned = s.host.returned ++ [if s.busFaultNow = true then .error (.busError .fault) else .frame r]

/-- What XFER leaves at the transaction level (43_transfer.md, R130 "State written", an inference the spec marks as its own):
the driver clean again, the hidden registers as the rule lists them, and no slot, no queue, nothing of SCR, no line, no
parameter and no run bit changed; of HOST only the list of results, and the turns stay. That phase1 is M_LOAD, which R130 does
not list, is R134 (g) with the re-arm run (log 25), and so is bitcnt = 32 (log 25, DEDUCED). The bus history, the results and
the levels drawn do change (logs 3, 4, 14, 15) and are stated with the frame XFER returns. -/
def Obligations.XferLeavesTheDriverClean : Prop :=
  ∀ (c : Byte) (p : Frame) (s t : State), c.toNat ≤ 31 → s.level = .transaction → exec (.xfer c p) s = .next t →
    t.clean = true ∧ t.mcg.osr = 0 ∧ t.mcg.isr = frameWord1 s.oracle.misoFrame ∧ t.mcg.mosi = p.b7.getLsbD 0 ∧
    t.mcg.sck = s.params.sckIdle ∧ t.cse.csl = 0b11111#5 ∧ t.cse.csActive = false ∧ t.cse.csIndex.toNat = c.toNat ∧
    t.done = false ∧ t.cse.phase0 = .cIdle ∧ t.mcg.phase1 = .mLoad ∧
    t.slots = s.slots ∧ t.scr = s.scr ∧ t.lines = s.lines ∧ t.params = s.params ∧ t.cse.en0 = s.cse.en0 ∧ t.mcg.en1 = s.mcg.en1 ∧
    t.mcg.bitcnt = 32 ∧ t.chosenLevel = s.chosenLevel ∧ t.host = { s.host with returned := t.host.returned } ∧
    t.oracle.turns = s.oracle.turns

/-- XFER from a driver that is not clean is refused, and so is SLOT_POLL, which would use it (43_transfer.md, R131;
60_exceptions.md, R156; the spec's own decision D8, log 20). -/
def Obligations.UncleanDriverIsRefused : Prop :=
  ∀ (s : State), s.host.hphase = .hNone → s.clean = false →
    (∀ (c : Byte) (p : Frame), c.toNat ≤ 31 → exec (.xfer c p) s = .refused .driverNotClean) ∧
    (∀ (n : Byte), n.toNat ≤ 31 → exec (.slotPoll n) s = .refused .driverNotClean)

/-- The sub-steps of XFER at the waveform level (43_transfer.md, R133; their order is the spec's own decision D8): the entry,
the three writes, the two reads; while the condition of its sub-step is false HOST is held (a poll of an empty rxf is counted,
log 19). The entry is stated wherever an XFER is not one atomic step: at the waveform level chosen, and, whatever was chosen,
with a stopped machine, a time-out set or WFIFO_DEPTH below 2 (log 1). The last read is stated for a call of XFER itself, with
a bus fault (R135 (c), decision D10; log 4) and without; SLOT_POLL's is a statement of its own. -/
def Obligations.HostSubStepsFollowTheTable : Prop :=
  (∀ (c : Byte) (p : Frame) (s : State), s.level = .waveform → s.clean = true → c.toNat ≤ 31 →
    exec (.xfer c p) s = .next { s with host := { s.host with
      hphase := .hCtl, hCs := c, hW0 := frameWord0 p, hW1 := frameWord1 p, caller := .xfer, polls := 0 } }) ∧
  (∀ s : State, s.turn = .host → s.host.hphase = .hCtl →
    step s = .next (if s.cse.ctlf.length < s.params.wfifoDepth then
      { s.turnTaken with cse := { s.cse with ctlf := s.cse.ctlf ++ [s.host.hCs.setWidth 32] }, host := { s.host with hphase := .hW0 } }
      else s.turnTaken)) ∧
  (∀ s : State, s.turn = .host → s.host.hphase = .hW0 →
    step s = .next (if s.mcg.txf.length < s.params.wfifoDepth then
      { s.turnTaken with mcg := { s.mcg with txf := s.mcg.txf ++ [s.host.hW0] }, host := { s.host with hphase := .hW1 } }
      else s.turnTaken)) ∧
  (∀ s : State, s.turn = .host → s.host.hphase = .hW1 →
    step s = .next (if s.mcg.txf.length < s.params.wfifoDepth then
      { s.turnTaken with mcg := { s.mcg with txf := s.mcg.txf ++ [s.host.hW1] }, host := { s.host with hphase := .hR0 } }
      else s.turnTaken)) ∧
  (∀ s : State, s.turn = .host → s.host.hphase = .hR0 ∨ s.host.hphase = .hR1 → s.mcg.rxf = [] →
    step s = .next { s.turnTaken with host := { s.host with polls := s.host.polls + 1 } }) ∧
  (∀ (s : State) (w : Word32) (rest : List Word32), s.turn = .host → s.host.hphase = .hR0 → s.mcg.rxf = w :: rest →
    step s = .next { s.turnTaken with mcg := { s.mcg with rxf := rest }, host := { s.host with hR0 := w, hphase := .hR1 } }) ∧
  (∀ (s : State) (w : Word32) (rest : List Word32), s.turn = .host → s.host.hphase = .hR1 → s.host.caller = .xfer →
    s.mcg.rxf = w :: rest →
    ∃ t, step s = .next t ∧ t.mcg = { s.mcg with rxf := rest } ∧ t.cse = s.cse ∧ t.done = s.done ∧ t.slots = s.slots ∧
      t.host = { s.host with hphase := .hNone, returned := s.host.returned ++
        [if s.busFaultNow = true then .error (.busError .fault) else .frame (frameOfWords s.host.hR0 w)] })

/-- HOST's last read on behalf of SLOT_POLL leaves XFER, the transmit queue untouched, with the outcome tested in this order:
BusError(Fault) when bus_fault answers true (R135 (c), R144), InvalidMessage, RxOverflow with the receive queue unchanged, ok
with the decoded event appended (44_slot.md, R141; 43_transfer.md, R133; decisions D10, D13, D14). When bus_fault is
consulted, and the shape of its oracle, are the model's (logs 4, 5). -/
def Obligations.SlotPollEndsWithTheLastRead : Prop :=
  ∀ (s : State) (i : Fin 32) (w : Word32) (rest : List Word32), s.turn = .host → s.host.hphase = .hR1 →
    s.host.caller = .slotPoll i → s.mcg.rxf = w :: rest →
    ∃ t, step s = .next t ∧ t.host.hphase = .hNone ∧ t.queue i .tx = s.queue i .tx ∧
      t.mcg = { s.mcg with rxf := rest } ∧ t.cse = s.cse ∧ t.done = s.done ∧
      (if s.busFaultNow = true then
        t.host.returned = s.host.returned ++ [.error (.busError .fault)] ∧ t.queue i .rx = s.queue i .rx
       else if frameOfWords s.host.hR0 w ∈ s.params.invalidFrames then
        t.host.returned = s.host.returned ++ [.error .invalidMessage] ∧ t.queue i .rx = s.queue i .rx
       else if (s.queue i .rx).length = s.params.qcap then
        t.host.returned = s.host.returned ++ [.error .rxOverflow] ∧ t.queue i .rx = s.queue i .rx
       else
        t.host.returned = s.host.returned ++ [.ok] ∧
        t.queue i .rx = s.queue i .rx ++ [deserialize (frameOfWords s.host.hR0 w)])

/-- XFER blocks: while HOST is inside it, every operation called is a second flow and is refused by that name
(60_exceptions.md, R156; 43_transfer.md, R133). That an operation with a slot index above 31 gets this refusal and not that of
the index is the model's choice (log 17), and that a FRAME row is an operation of HOST's, its DES, is log 12's. CSW_SELECT is
CSE's and is not concerned. -/
def Obligations.OperationInsideXferIsRefused : Prop :=
  ∀ (i : Instr) (s : State), s.host.hphase ≠ .hNone → i.format ≠ .csw → exec i s = .refused .hostInsideXfer

/-- With XFER_TIMEOUT = Some(n) and n polls of an empty rxf made, HOST waiting in H_R0 or H_R1 may leave XFER with
BusError(Timeout), the machines and the words in the channels untouched; with fewer polls, or with no time-out, HOST has no
such step (43_transfer.md, R135 (b); the spec's own decision D18). How polls are counted is log 19. -/
def Obligations.TimeoutRaisesBusError : Prop :=
  (∀ (s : State) (n : Nat), s.turn = .hostTimeout → s.params.xferTimeout = some n →
    s.host.hphase = .hR0 ∨ s.host.hphase = .hR1 → n ≤ s.host.polls →
    step s = .next { s.turnTaken with host := { s.host with
      hphase := .hNone, returned := s.host.returned ++ [.error (.busError .timeout)] } }) ∧
  (∀ (s : State) (n : Nat), s.turn = .hostTimeout → s.params.xferTimeout = some n → s.host.polls < n →
    step s = .next s.turnTaken) ∧
  (∀ s : State, s.turn = .hostTimeout → s.params.xferTimeout = none → step s = .next s.turnTaken)

/-! ### The machines -/

/-- CSW_SELECT on the control word at the head of ctlf, CSE running and idle: the word is consumed, the lines carry the index
in binary, the slot is selected and CSE holds; nothing else changes (42_waveform.md, R102; the coding is the spec's own
decisions D1, D2, log 20; that this is the row's meaning is log 13). The frame, for every next state: everything but CSE is
unchanged, and CSE's run bit. -/
def Obligations.CswSelectDrivesTheLines : Prop :=
  (∀ (n : BitVec 5) (u : BitVec 27) (rest : List Word32) (s : State), s.cse.en0 = true → s.cse.phase0 = .cIdle →
    s.cse.ctlf = cswWord n u :: rest →
    exec (.cswSelect n u) s =
      .next { s with cse := ⟨.cHold, rest, s.cse.en0, true, n, n⟩ }) ∧
  (∀ (n : BitVec 5) (u : BitVec 27) (s t : State), exec (.cswSelect n u) s = .next t →
    t = { s with cse := t.cse } ∧ t.cse.en0 = s.cse.en0)

/-- CSE's turn: with a control word waiting and CSE idle, CSE-SELECT; holding with done up, CSE-RELEASE, which clears done and
idles the lines (42_waveform.md, R102, R103; coding and handshake are the spec's own decisions D1, D2, D4). -/
def Obligations.CseSelectAndReleaseSteps : Prop :=
  (∀ (w : Word32) (rest : List Word32) (s : State), s.turn = .cse → s.cse.en0 = true → s.cse.phase0 = .cIdle → s.cse.ctlf = w :: rest →
    step s = .next { s.turnTaken with cse :=
      { s.cse with ctlf := rest, csIndex := w.extractLsb' 0 5, csl := w.extractLsb' 0 5, csActive := true, phase0 := .cHold } }) ∧
  (∀ s : State, s.turn = .cse → s.cse.en0 = true → s.cse.phase0 = .cHold → s.done = true →
    step s = .next { s.turnTaken with
      done := false, cse := { s.cse with csl := 0b11111#5, csActive := false, phase0 := .cIdle } })

/-- MCG's turn in M_LOAD loads the head of txf only while a slot is selected, else MCG is held; in M_DONE it re-arms once done
is cleared and is held until then (42_waveform.md, R104, R108; the interlock is the spec's own decision D4). -/
def Obligations.McgLoadAndRearmSteps : Prop :=
  (∀ s : State, s.turn = .mcg → s.mcg.en1 = true → s.mcg.phase1 = .mLoad →
    (∀ w rest, s.cse.csActive = true → s.mcg.txf = w :: rest →
      step s = .next { s.turnTaken with mcg := { s.mcg with osr := w, txf := rest, bitcnt := 0, phase1 := .mShift } }) ∧
    (s.cse.csActive = false ∨ s.mcg.txf = [] → step s = .next s.turnTaken)) ∧
  (∀ s : State, s.turn = .mcg → s.mcg.en1 = true → s.mcg.phase1 = .mDone →
    step s = .next (if s.done = true then s.turnTaken else { s.turnTaken with mcg := { s.mcg with phase1 := .mLoad } }))

/-- MCG's turn in M_SHIFT: bit 31 of osr goes to MOSI, osr shifts left with zero into bit 0, the clock leaves its idle level
(42_waveform.md, R105). MCG's turn in M_SAMPLE, for whatever level of MISO is drawn: it enters bit 0 of isr shifted left, the
clock returns to idle, the bit is counted and after 32 the word is pushed; the oracle moves on by one (R106; the draw is log
3). The edges are the spec's own decision D5. -/
def Obligations.McgShiftAndSampleSteps : Prop :=
  (∀ s : State, s.turn = .mcg → s.mcg.en1 = true → s.mcg.phase1 = .mShift →
    step s = .next { s.turnTaken with mcg :=
      { s.mcg with mosi := s.mcg.osr.getLsbD 31, osr := s.mcg.osr <<< 1, sck := !s.params.sckIdle, phase1 := .mSample } }) ∧
  (∀ s : State, s.turn = .mcg → s.mcg.en1 = true → s.mcg.phase1 = .mSample →
    ∃ t, step s = .next t ∧ t.cse = s.cse ∧ t.done = s.done ∧ t.slots = s.slots ∧ t.scr = s.scr ∧ t.host = s.host ∧
      t.mcg = { s.mcg with
        isr := (s.mcg.isr <<< 1) ||| (if s.oracle.misoBit 0 = true then 1#32 else 0#32), sck := s.params.sckIdle,
        bitcnt := s.mcg.bitcnt + 1, phase1 := if s.mcg.bitcnt + 1 = 32 then .mPush else .mShift } ∧
      ∀ k, t.oracle.misoBit k = s.oracle.misoBit (k + 1))

/-- MCG's turn in M_PUSH: with room in rxf the word goes there, after the first MCG loads again and after the second done is
raised; with rxf full MCG is held (42_waveform.md, R107; the channel's depth and the hold are the spec's own decision D7). -/
def Obligations.McgPushStep : Prop :=
  ∀ s : State, s.turn = .mcg → s.mcg.en1 = true → s.mcg.phase1 = .mPush →
    step s = .next (
      if s.mcg.rxf.length < s.params.wfifoDepth then
        if s.mcg.wordcnt = 0 then
          { s.turnTaken with mcg := { s.mcg with rxf := s.mcg.rxf ++ [s.mcg.isr], wordcnt := 1, phase1 := .mLoad } }
        else
          { s.turnTaken with
            mcg := { s.mcg with rxf := s.mcg.rxf ++ [s.mcg.isr], wordcnt := 0, phase1 := .mDone }, done := true }
      else s.turnTaken)

/-- SCR's turn, running: it arms on the external select, shifts out the next bit on the clock's leading level, samples on its
return, and idles on deselect (42_waveform.md, R112 to R115; the levels are the spec's own decision D9). With no bit to send
SCR-SHIFT goes on and S_DOUT takes a free value (log 21). -/
def Obligations.ScrStepsFollowTheExternalMaster : Prop :=
  ∀ s : State, s.turn = .scr → s.scr.en2 = true →
    (s.scr.phase2 = .sIdle → s.lines.sSel = s.params.sSelActive →
      step s = .next { s.turnTaken with scr := { s.scr with phase2 := .sWaitShift } }) ∧
    (∀ b rest, s.scr.phase2 = .sWaitShift → s.lines.sSel = s.params.sSelActive → s.lines.sSck = !s.params.sckIdle →
      s.scr.sOut = b :: rest →
      step s = .next { s.turnTaken with scr := { s.scr with sDout := b, sOut := rest, phase2 := .sWaitSample } }) ∧
    (s.scr.phase2 = .sWaitShift → s.lines.sSel = s.params.sSelActive → s.lines.sSck = !s.params.sckIdle → s.scr.sOut = [] →
      ∃ (b : LineLevel) (t : State), step s = .next t ∧ t.scr = { s.scr with sDout := b, phase2 := .sWaitSample } ∧
        t.mcg = s.mcg ∧ t.cse = s.cse ∧ t.slots = s.slots ∧ t.host = s.host) ∧
    (s.scr.phase2 = .sWaitSample → s.lines.sSel = s.params.sSelActive → s.lines.sSck = s.params.sckIdle →
      step s = .next { s.turnTaken with scr := { s.scr with sIn := s.scr.sIn ++ [s.lines.sDin], phase2 := .sWaitShift } }) ∧
    (s.scr.phase2 ≠ .sIdle → s.lines.sSel ≠ s.params.sSelActive →
      step s = .next { s.turnTaken with scr := { s.scr with phase2 := .sIdle } })

/-- ENV's turn sets the line it names to the value it names, in every state, and changes nothing else (42_waveform.md, R117).
-/
def Obligations.EnvSetsOneLine : Prop :=
  ∀ (s : State) (v : LineLevel),
    (s.turn = .env .sSel v → step s = .next { s.turnTaken with lines := { s.lines with sSel := v } }) ∧
    (s.turn = .env .sSck v → step s = .next { s.turnTaken with lines := { s.lines with sSck := v } }) ∧
    (s.turn = .env .sDin v → step s = .next { s.turnTaken with lines := { s.lines with sDin := v } })

/-- A machine whose run bit is false is held, and so is one in a phase whose pre is false: CSE in C_IDLE with no control word
and in C_HOLD with done down; MCG in M_LOAD with no slot selected or no word, in M_PUSH with rxf full and in M_DONE with done
up; SCR in S_IDLE not selected, in S_WAIT_SHIFT with S_SCK at SCK_IDLE and in S_WAIT_SAMPLE with S_SCK away from it, selected.
Its turn is taken and changes nothing (42_waveform.md, R100, with R102 to R108, R112 to R116; that such a turn exists is log
16). These are all the phases with a pre that can be false. -/
def Obligations.HeldMachineChangesNothing : Prop :=
  (∀ s : State, s.turn = .cse →
    s.cse.en0 = false ∨ (s.cse.phase0 = .cIdle ∧ s.cse.ctlf = []) ∨ (s.cse.phase0 = .cHold ∧ s.done = false) →
    step s = .next s.turnTaken) ∧
  (∀ s : State, s.turn = .mcg →
    s.mcg.en1 = false ∨ (s.mcg.phase1 = .mLoad ∧ (s.cse.csActive = false ∨ s.mcg.txf = [])) ∨
      (s.mcg.phase1 = .mPush ∧ s.params.wfifoDepth ≤ s.mcg.rxf.length) ∨ (s.mcg.phase1 = .mDone ∧ s.done = true) →
    step s = .next s.turnTaken) ∧
  (∀ s : State, s.turn = .scr →
    s.scr.en2 = false ∨ (s.scr.phase2 = .sIdle ∧ s.lines.sSel ≠ s.params.sSelActive) ∨
      (s.scr.phase2 = .sWaitShift ∧ s.lines.sSel = s.params.sSelActive ∧ s.lines.sSck = s.params.sckIdle) ∨
      (s.scr.phase2 = .sWaitSample ∧ s.lines.sSel = s.params.sSelActive ∧ s.lines.sSck = !s.params.sckIdle) →
    step s = .next s.turnTaken)

/-- Single writers (42_waveform.md, R100; 10_state.md, R15, R20): the turn of CSE, MCG, SCR or ENV leaves the slots, HOST and
the other agents' registers and lines alone; HOST's turn leaves SCR and the input lines alone, and at the waveform level all
of CSE but ctlf, all of MCG but txf and rxf, and done: CSL, SCK and MOSI are not HOST's; HOST's time-out leaves the slots, the
machines, the channels, done and the bus history alone (43_transfer.md, R135 (b)). done is raised by MCG only and cleared by
CSE only among the machines. At the transaction level HOST's one atomic step stands for the machines' steps (log 1). -/
def Obligations.AgentsWriteOnlyTheirOwnState : Prop :=
  ∀ s t : State, step s = .next t →
    (s.turn = .cse → t.slots = s.slots ∧ t.mcg = s.mcg ∧ t.scr = s.scr ∧ t.lines = s.lines ∧ t.host = s.host ∧
      (t.done = true → s.done = true)) ∧
    (s.turn = .mcg → t.slots = s.slots ∧ t.cse = s.cse ∧ t.scr = s.scr ∧ t.lines = s.lines ∧ t.host = s.host ∧
      (s.done = true → t.done = true)) ∧
    (s.turn = .scr → t.slots = s.slots ∧ t.cse = s.cse ∧ t.mcg = s.mcg ∧ t.lines = s.lines ∧ t.host = s.host ∧ t.done = s.done) ∧
    (∀ l v, s.turn = .env l v →
      t.slots = s.slots ∧ t.cse = s.cse ∧ t.mcg = s.mcg ∧ t.scr = s.scr ∧ t.host = s.host ∧ t.done = s.done) ∧
    (s.turn = .host → t.scr = s.scr ∧ t.lines = s.lines ∧
      (s.level = .waveform → t.cse = { s.cse with ctlf := t.cse.ctlf } ∧
        t.mcg = { s.mcg with txf := t.mcg.txf, rxf := t.mcg.rxf } ∧ t.done = s.done)) ∧
    (s.turn = .hostTimeout → t.slots = s.slots ∧ t.cse = s.cse ∧ t.mcg = s.mcg ∧ t.done = s.done ∧ t.scr = s.scr ∧
      t.lines = s.lines ∧ t.busLog = s.busLog)

/-! ### A step runs the decoded instruction -/

/-- HOST's turn outside XFER runs its next call: step is exec of the instruction its bytes decode to, on the state with the
turn taken and the call removed (20_memory.md, R53: program order). CSE's turn, running and in C_IDLE with a control word
waiting, is exec of the instruction the word decodes to, on the state with the turn taken (42_waveform.md, R102; log 13). A
control word or a data word as a HOST call is refused, since HOST reaches the word channels through XFER only
(60_exceptions.md, R156), and a call whose bytes are no instruction is refused with the decoder's reason (log 17). The calls
and their bytes are the model's (log 10). -/
def Obligations.StepRunsTheDecodedInstruction : Prop :=
  (∀ (s : State) (c : Call) (rest : List Call) (i : Instr) (left : List Byte), s.turn = .host → s.host.hphase = .hNone →
    s.host.calls = c :: rest → c.format = .op ∨ c.format = .frame → decode c.format c.bytes = .ok (i, left) →
    step s = exec i { s.turnTaken with host := { s.host with calls := rest } }) ∧
  (∀ (s : State) (w : Word32) (rest : List Word32), s.turn = .cse → s.cse.en0 = true → s.cse.phase0 = .cIdle → s.cse.ctlf = w :: rest →
    step s = exec (decodeCsw w) s.turnTaken) ∧
  (∀ (s : State) (c : Call) (rest : List Call), s.turn = .host → s.host.hphase = .hNone → s.host.calls = c :: rest →
    (c.format = .csw ∨ c.format = .dw → step s = .refused .wordChannelAccess) ∧
    (∀ e, c.format = .op ∨ c.format = .frame → decode c.format c.bytes = .error e → step s = .refused (.undecodable e)))

/-! ### Frames -/

/-- The frame of SER, DES and the twelve FRAME rows: when one answers, the state is the old one with one result returned to
HOST. For SER and DES this is 40_codec.md, R80 and R81 (state read or written, none); that a FRAME row run as an instruction
is HOST's DES and so returns one result is the model's choice (log 12), and the list of results is log 14's. -/
def Obligations.CodecOperationsOnlyReturn : Prop :=
  ∀ (i : Instr) (s t : State), i.format = .frame ∨ (∃ e, i = .ser e) ∨ (∃ p, i = .des p) → exec i s = .next t →
    ∃ r, t = s.ret r

/-- The frame of QPUSH, QPOP, QPEEK and QDISCARD (41_queue.md): when one answers, the driver, the lines, the parameters, HOST
but for one more result, every chip-select and every queue but the one named are unchanged. The frame of SLOT_SEND and
SLOT_RECV (44_slot.md): the same, where the one queue that may change is the transmit queue, respectively the receive queue,
of the slot named. -/
def Obligations.QueueAndSlotOperationsFrame : Prop :=
  (∀ (i : Instr) (q : QueueRef) (s t : State), (∃ x, i = .qpush q x) ∨ i = .qpop q ∨ i = .qpeek q ∨ i = .qdiscard q →
    exec i s = .next t →
    DriverUntouched s t ∧ (∃ r, t.host.returned = s.host.returned ++ [r]) ∧
    ∀ (j : Fin 32), t.slots[j].cs = s.slots[j].cs ∧
      ∀ d, ¬(j.val = q.slot.toNat ∧ d = q.side) → t.queue j d = s.queue j d) ∧
  (∀ (n : Byte) (i : Instr) (d : Side) (s t : State), (d = .tx ∧ ∃ e, i = .slotSend n e) ∨ (d = .rx ∧ i = .slotRecv n) →
    exec i s = .next t →
    DriverUntouched s t ∧ (∃ r, t.host.returned = s.host.returned ++ [r]) ∧
    ∀ (j : Fin 32), t.slots[j].cs = s.slots[j].cs ∧ ∀ e, ¬(j.val = n.toNat ∧ e = d) → t.queue j e = s.queue j e)

/-- The frame of XFER and SLOT_POLL at either level (43_transfer.md, R130 "No slot and no queue is touched"; 44_slot.md,
R141): the level, SCR, the input lines, the parameters, the run bits, HOST's calls and the turns are unchanged; XFER changes
no slot, SLOT_POLL no slot but its own, whose chip-select stays. -/
def Obligations.TransferFrame : Prop :=
  ∀ (i : Instr) (s t : State), (∃ c p, i = .xfer c p) ∨ (∃ n, i = .slotPoll n) → exec i s = .next t →
    t.params = s.params ∧ t.chosenLevel = s.chosenLevel ∧ t.level = s.level ∧ t.scr = s.scr ∧
    t.lines = s.lines ∧ t.cse.en0 = s.cse.en0 ∧ t.mcg.en1 = s.mcg.en1 ∧
    t.host.calls = s.host.calls ∧ t.oracle.turns = s.oracle.turns ∧ t.oracle.doutDraws = s.oracle.doutDraws ∧
    ∀ j : Fin 32, t.slots[j].cs = s.slots[j].cs ∧
      ((∀ n, i = .slotPoll n → j.val ≠ n.toNat) → t.slots[j] = s.slots[j])

/-! ### Reset and invariants -/

/-- The reset values the spec gives (10_state.md, R26; most are the spec's own decisions D17 and D23, log 20). The values R26
leaves unspecified are not stated (logs 7 to 9). -/
def Obligations.ResetStateValues : Prop :=
  let s := State.reset
  (∀ i : Fin 32, s.slots[i].cs.toNat = i.val ∧ s.slots[i].txq = [] ∧ s.slots[i].rxq = []) ∧
  s.cse.csl = 0b11111#5 ∧ s.cse.csActive = false ∧ s.cse.phase0 = .cIdle ∧ s.mcg.phase1 = .mLoad ∧ s.scr.phase2 = .sIdle ∧
  s.cse.ctlf = [] ∧ s.mcg.txf = [] ∧ s.mcg.rxf = [] ∧ s.mcg.bitcnt = 0 ∧ s.mcg.wordcnt = 0 ∧ s.done = false ∧
  s.mcg.sck = s.params.sckIdle ∧ s.params.sckIdle = false ∧ s.scr.sOut = [] ∧ s.scr.sIn = [] ∧
  s.cse.en0 = true ∧ s.mcg.en1 = true ∧ s.scr.en2 = true ∧ s.host.hphase = .hNone

/-- The invariants of the queues, of the driver, of the word channels, of the transfer and of the level hold at reset, the
driver is clean there and bring-up is complete (10_state.md, R11, R13, R16, R22; 42_waveform.md, R109; 43_transfer.md, R131;
70_reset_and_hazards.md, R186). That reset is at the transaction level is the model's choice (log 1). -/
def Obligations.ResetMeetsTheInvariants : Prop :=
  State.reset.SlotsInv ∧ State.reset.DriverInv ∧ State.reset.ChannelInv ∧ State.reset.TransferInv ∧ State.reset.clean = true ∧
    State.reset.LevelInv ∧ State.reset.BringUpComplete

/-- Every step, from every state, keeps the event queues within their capacity with slot[i].cs = i, and keeps the word
channels within WFIFO_DEPTH (10_state.md, R11, R13, R17, R19). -/
def Obligations.StepKeepsQueuesAndChannels : Prop :=
  ∀ s t : State, step s = .next t → (s.SlotsInv → t.SlotsInv) ∧ (s.ChannelInv → t.ChannelInv)

/-- Every step of any agent keeps the invariant of CSE and MCG (10_state.md, R16 to R19; 42_waveform.md, R108, R109 (a), (e)):
the select lines are idle with nothing selected or carry the index of the slot selected, the clock is at its idle level but in
M_SAMPLE, the counters are in their ranges by phase, done is up only between the second push and the release, and a word is
shifted only with a slot selected. -/
def Obligations.StepKeepsDriver : Prop := ∀ s t : State, s.DriverInv → step s = .next t → t.DriverInv

/-- No step changes a parameter, the level chosen, the level the run is at, a run bit or a slot's chip-select (42_waveform.md,
R119; 10_state.md, R13, R25; the level is the model's, log 1). -/
def Obligations.StepKeepsParametersAndRunBits : Prop :=
  ∀ s t : State, step s = .next t →
    t.params = s.params ∧ t.chosenLevel = s.chosenLevel ∧ t.level = s.level ∧
    t.cse.en0 = s.cse.en0 ∧ t.mcg.en1 = s.mcg.en1 ∧ t.scr.en2 = s.scr.en2 ∧
    ∀ i : Fin 32, t.slots[i].cs = s.slots[i].cs

/-- At the transaction level HOST is outside XFER between two steps, whatever agent has the turn: every step keeps the
invariant, and keeps the level (10_state.md, R22: hphase is H_NONE there). The level is the model's (log 1): a run with a
stopped machine, a time-out or WFIFO_DEPTH below 2 is at the waveform level. -/
def Obligations.TransactionLevelKeepsHostOutsideXfer : Prop :=
  ∀ s t : State, s.LevelInv → step s = .next t → t.LevelInv ∧ t.level = s.level

/-- With no time-out every step, of any agent in any order, keeps HOST's position in XFER, the word channels, the phases of
the machines, the word count and the data register in step, and outside XFER the driver free (42_waveform.md, R118;
43_transfer.md, R131, R134, inferences the spec marks as its own). -/
def Obligations.StepKeepsTransfer : Prop :=
  ∀ s t : State, s.params.xferTimeout = none → s.TransferInv → step s = .next t → t.TransferInv

/-- Under the invariant every step keeps, outside XFER the driver is clean, so that a HOST that reaches the bus only through
XFER is never refused for it: the one refusal left is a slot index above 31 (43_transfer.md, R131, derived there from R134).
-/
def Obligations.DriverIsCleanOutsideXfer : Prop :=
  ∀ s : State, s.TransferInv → s.host.hphase = .hNone →
    s.clean = true ∧ ∀ (i : Instr) (r : Refusal), exec i s = .refused r → r = .slotIndexAbove31

/-- While CSE holds and done is down no step of any agent moves the select lines, the selected slot or the phase of CSE
(42_waveform.md, R103, R119; 20_memory.md, R48). -/
def Obligations.SelectLinesHoldDuringTransaction : Prop :=
  ∀ s t : State, s.cse.phase0 = .cHold → s.done = false → step s = .next t →
    t.cse.csl = s.cse.csl ∧ t.cse.csIndex = s.cse.csIndex ∧ t.cse.csActive = s.cse.csActive ∧ t.cse.phase0 = .cHold

/-- CSE and MCG both have an enabled step only in the one freedom of 42_waveform.md, R118: a new control word waits while MCG
has not yet re-armed. -/
def Obligations.OneMachineEnabledAtATime : Prop :=
  ∀ s : State, s.DriverInv → (s.preCseSelect || s.preCseRelease) = true →
    (s.preMcgLoad || s.preMcgShift || s.preMcgSample || s.preMcgPush || s.preMcgRearm) = true →
    s.preCseSelect = true ∧ s.preMcgRearm = true

/-- Once HOST has returned from its last operation and no transaction is pending, no turn of HOST, CSE or MCG changes anything
(70_reset_and_hazards.md, R188; the definition is the spec's own decision D27). -/
def Obligations.FinishedRunStaysFinished : Prop :=
  ∀ s : State, s.RunOver → s.turn = .host ∨ s.turn = .hostTimeout ∨ s.turn = .cse ∨ s.turn = .mcg → step s = .next s.turnTaken

/-! ### The bits on the bus -/

/-- The packing of a frame into its two words as numbers; bit-time k carries bit 31 - k of the first word and then of the
second, which is bit 7 - k mod 8 of byte k div 8; and the two words of the frame made of two words are those (20_memory.md,
R43, R44; the bit-times are an inference the spec marks as its own). -/
def Obligations.BitOrderOfAFrame : Prop :=
  (∀ p : Frame, (frameWord0 p).toNat = p.b0.toNat * 2 ^ 24 + p.b1.toNat * 2 ^ 16 + p.b2.toNat * 2 ^ 8 + p.b3.toNat ∧
    (frameWord1 p).toNat = p.b4.toNat * 2 ^ 24 + p.b5.toNat * 2 ^ 16 + p.b6.toNat * 2 ^ 8 + p.b7.toNat) ∧
  (∀ (p : Frame) (k : Nat), k < 32 → (frameWord0 p).getLsbD (31 - k) = frameBit p k ∧
    (frameWord1 p).getLsbD (31 - k) = frameBit p (32 + k)) ∧
  (∀ (a b : Word32), frameWord0 (frameOfWords a b) = a ∧ frameWord1 (frameOfWords a b) = b)

/-- In every state that meets the invariant, an MCG-SHIFT of the XFER in progress is one of the 64 bit-times, puts the bit of
its bit-time on MOSI with the slot of the XFER selected and raises the clock (43_transfer.md, R134 (c), (d); 42_waveform.md,
R110; premise cs_interlock, the spec's own decision D4). -/
def Obligations.ShiftEdgeSendsTheBitOfItsBitTime : Prop :=
  ∀ s : State, s.TransferInv → s.turn = .mcg → s.mcg.en1 = true → s.mcg.phase1 = .mShift →
    s.bitTime < 64 ∧ ∃ t, step s = .next t ∧ t.mcg.mosi = frameBit (frameOfWords s.host.hW0 s.host.hW1) s.bitTime ∧
      t.selected = some (s.host.hCs.setWidth 5) ∧ t.mcg.sck = !s.params.sckIdle

/-- Under every interleaving and with no time-out, XFER receives the levels sampled (43_transfer.md, R134 (e)): the entry of
XFER from a clean driver puts the receive side in step with the oracle; every step inside XFER keeps it in step and HOST's
latches, results and slots unchanged; and the step that leaves XFER returns the frame of the 64 levels drawn since the entry,
to HOST or to the SLOT_POLL it serves, and logs the transaction with it. The levels stand in the oracle's list (log 3); that
the transaction enters the history at the last read is the model's choice (log 15); under a bus fault, which R134 excludes,
BusError(Fault) is returned and the transaction is logged all the same (R135 (c); log 4, DEDUCED). -/
def Obligations.ReceivedFrameIsWhatWasSampled : Prop :=
  (∀ (s : State) (caller : Caller) (c : Byte) (p : Frame), s.clean = true → (s.xferEnter caller c p).ReceiveInv s.oracle) ∧
  (∀ (o : Oracle) (s t : State), s.params.xferTimeout = none → s.TransferInv → s.ReceiveInv o → s.host.hphase ≠ .hNone →
    step s = .next t →
    (t.host.hphase ≠ .hNone ∧ t.ReceiveInv o ∧ t.host.hCs = s.host.hCs ∧ t.host.hW0 = s.host.hW0 ∧ t.host.hW1 = s.host.hW1 ∧
      t.host.caller = s.host.caller ∧ t.busFaultNow = s.busFaultNow ∧ t.busLog = s.busLog ∧ t.host.returned = s.host.returned ∧
      t.slots = s.slots) ∨
    (t.host.hphase = .hNone ∧
      t.busLog = s.busLog ++ [⟨s.host.hCs, frameOfWords s.host.hW0 s.host.hW1, o.misoFrame⟩] ∧
      t.host.returned = (s.xferReturn s.host.caller (if s.busFaultNow = true then .error .fault else .ok o.misoFrame)).host.returned ∧
      t.slots = (s.xferReturn s.host.caller (if s.busFaultNow = true then .error .fault else .ok o.misoFrame)).slots))

/-- XFER makes progress under every schedule (43_transfer.md, R134 (a), from the counts of 42_waveform.md, R118 and the
sub-steps of R133; inferences the spec marks as its own). Entered from a clean driver 140 steps are left, and one more for a
release and one for a re-arm still pending. With both machines running, no time-out and WFIFO_DEPTH of at least 2, in every
state that meets the invariant and in which HOST is inside XFER, each step takes one off, leaves XFER by HOST's last read, or
moves neither HOST's position nor CSE, MCG or done; and there is an agent among HOST, CSE and MCG whose turn takes one off,
now and for as long as the others leave their state so. -/
def Obligations.TransferStepsCountDown : Prop :=
  (∀ (s : State) (caller : Caller) (c : Byte) (p : Frame), s.DriverInv → s.clean = true →
    140 ≤ (s.xferEnter caller c p).stepsLeft ∧ (s.xferEnter caller c p).stepsLeft ≤ 142) ∧
  (∀ s : State, s.machinesRun → s.params.xferTimeout = none → 2 ≤ s.params.wfifoDepth → s.TransferInv → s.host.hphase ≠ .hNone →
    (∀ t, step s = .next t →
      (t.host.hphase ≠ .hNone ∧ t.stepsLeft + 1 = s.stepsLeft) ∨ (t.host.hphase = .hNone ∧ s.host.hphase = .hR1) ∨
      (t.cse = s.cse ∧ t.mcg = s.mcg ∧ t.done = s.done ∧ t.host.hphase = s.host.hphase)) ∧
    ∃ a, (a = .host ∨ a = .cse ∨ a = .mcg) ∧
      ∀ u : State, u.params = s.params → u.cse = s.cse → u.mcg = s.mcg → u.done = s.done → u.host.hphase = s.host.hphase →
        u.TransferInv → u.turn = a → ∃ t, step u = .next t ∧ t.stepsLeft < s.stepsLeft)

/-- XFER ends in every fair run (43_transfer.md, R134 (a), (e)). A round is any finite list of turns in which HOST, CSE and
MCG each have one, in any order, any number of times and with turns of the others between; rounds stand for weak fairness,
since the turn of a held agent changes nothing and can be added to a run (logs 2, 16). With both machines running, no time-out
and WFIFO_DEPTH of at least 2, as many rounds as steps are left (at most 142 from the entry) take HOST out of XFER, the
invariant holds there, and the bus history, the results and the slots are those of a transfer that received the 64 levels
drawn since its entry (logs 3, 4 and 15: the oracle's list, the history, and what a bus fault leaves). -/
def Obligations.XferEndsUnderEveryFairSchedule : Prop :=
  ∀ (o : Oracle) (s : State) (rounds : List (List Turn)) (turns : List Turn),
    s.machinesRun → s.params.xferTimeout = none → 2 ≤ s.params.wfifoDepth → s.TransferInv → s.ReceiveInv o → s.host.hphase ≠ .hNone →
    s.oracle.turns = rounds.flatten ++ turns → s.stepsLeft ≤ rounds.length →
    (∀ r ∈ rounds, .host ∈ r ∧ .cse ∈ r ∧ .mcg ∈ r) →
    ∃ (n : Nat) (t : State), n ≤ rounds.flatten.length ∧ Host.Core.run Sys2Proof.core n s = .next t ∧
      t.host.hphase = .hNone ∧ t.TransferInv ∧
      t.busLog = s.busLog ++ [⟨s.host.hCs, frameOfWords s.host.hW0 s.host.hW1, o.misoFrame⟩] ∧
      t.host.returned = (s.xferReturn s.host.caller (if s.busFaultNow = true then .error .fault else .ok o.misoFrame)).host.returned ∧
      t.slots = (s.xferReturn s.host.caller (if s.busFaultNow = true then .error .fault else .ok o.misoFrame)).slots

/-- XFER hangs with a stopped machine (43_transfer.md, R135 (a); 70_reset_and_hazards.md, R192): with no time-out and CSE or
MCG stopped, XFER and SLOT_POLL from a clean driver enter XFER and the state is stalled; every step of every agent from a
stalled state answers a stalled state with nothing returned to HOST; so after any number of steps HOST is inside XFER and
nothing has been returned. A hang is a run that goes on, and a state with a run bit false stands for a machine that was not
started (logs 16, 27). -/
def Obligations.StoppedMachineHangsXfer : Prop :=
  (∀ s : State, s.DriverInv → s.clean = true → s.params.xferTimeout = none → ¬ s.machinesRun →
    (∀ (c : Byte) (p : Frame), c.toNat ≤ 31 → ∃ t, exec (.xfer c p) s = .next t ∧ t.Stalled) ∧
    (∀ n : Byte, n.toNat ≤ 31 → ∃ t, exec (.slotPoll n) s = .next t ∧ t.Stalled)) ∧
  (∀ s : State, s.Stalled → ∃ t, step s = .next t ∧ t.Stalled ∧ t.host.returned = s.host.returned) ∧
  (∀ (s : State) (n : Nat), s.Stalled →
    ∃ t, Host.Core.run Sys2Proof.core n s = .next t ∧ t.host.hphase ≠ .hNone ∧ t.host.returned = s.host.returned)

/-- The waveform level refines the transaction level (00_scope.md, R8; 43_transfer.md, R134), for one fixed order of turns:
from a clean state with the machines running and no time-out, the 143 turns of one transfer in the order of 42_waveform.md,
R118 end with HOST back outside XFER, and the driver, the slots, SCR, the lines, the results, the bus history and the levels
still to come are those of the one atomic step. R134 speaks of every fair run: what ends there the same, under every schedule,
is stated in XferEndsUnderEveryFairSchedule and ReceivedFrameIsWhatWasSampled. -/
def Obligations.WaveformTransferRefinesAtomicTransfer : Prop :=
  ∀ (s : State) (c : Byte) (p : Frame) (rest : List Call) (turns : List Turn),
    s.DriverInv → s.clean = true → s.machinesRun → s.params.xferTimeout = none → 2 ≤ s.params.wfifoDepth → c.toNat ≤ 31 →
    s.level = .waveform → s.host.calls = ⟨.op, encode (.xfer c p)⟩ :: rest → s.oracle.turns = transferTurns ++ turns →
    ∃ t u : State, Host.Core.run Sys2Proof.core transferTurns.length s = .next t ∧
      exec (.xfer c p) { s with chosenLevel := .transaction } = .next u ∧
      t.host.hphase = .hNone ∧ t.host.calls = rest ∧ t.oracle.turns = turns ∧
      t.cse = u.cse ∧ t.mcg = u.mcg ∧ t.done = u.done ∧ t.slots = u.slots ∧ t.scr = u.scr ∧ t.lines = u.lines ∧
      t.host.returned = u.host.returned ∧ t.busLog = u.busLog ∧
      t.oracle.miso = u.oracle.miso ∧ t.oracle.misoDraws = u.oracle.misoDraws

/-- The selection of slot 31 by CSW_SELECT leaves the lines at the idle code, yet the slot is selected
(70_reset_and_hazards.md, R190; the ghost selection is the spec's own decision D3). -/
def Obligations.Slot31SelectionDoesNotMoveTheLines : Prop :=
  ∀ (s t : State) (u : BitVec 27), s.DriverInv → s.preCseSelect = true → s.cse.ctlf.head? = some (cswWord 31 u) →
    exec (.cswSelect 31 u) s = .next t → t.cse.csl = s.cse.csl ∧ s.selected = none ∧ t.selected = some 31
end

