-- ==== Sys2Proof/Laws/State.lean ====
section
/-! SUPPORT. What each update of the state leaves in each field, so that no proof unfolds a record update. -/

namespace Sys2Proof.Machine

@[simp] theorem State.ret_params (s : State) (r : Result) : (s.ret r).params = s.params := rfl
@[simp] theorem State.ret_chosenLevel (s : State) (r : Result) : (s.ret r).chosenLevel = s.chosenLevel := rfl
@[simp] theorem State.ret_slots (s : State) (r : Result) : (s.ret r).slots = s.slots := rfl
@[simp] theorem State.ret_cse (s : State) (r : Result) : (s.ret r).cse = s.cse := rfl
@[simp] theorem State.ret_mcg (s : State) (r : Result) : (s.ret r).mcg = s.mcg := rfl
@[simp] theorem State.ret_done (s : State) (r : Result) : (s.ret r).done = s.done := rfl
@[simp] theorem State.ret_scr (s : State) (r : Result) : (s.ret r).scr = s.scr := rfl
@[simp] theorem State.ret_lines (s : State) (r : Result) : (s.ret r).lines = s.lines := rfl
@[simp] theorem State.ret_busLog (s : State) (r : Result) : (s.ret r).busLog = s.busLog := rfl
@[simp] theorem State.ret_oracle (s : State) (r : Result) : (s.ret r).oracle = s.oracle := rfl

@[simp] theorem State.ret_hphase (s : State) (r : Result) : (s.ret r).host.hphase = s.host.hphase := rfl
@[simp] theorem State.ret_hCs (s : State) (r : Result) : (s.ret r).host.hCs = s.host.hCs := rfl
@[simp] theorem State.ret_hW0 (s : State) (r : Result) : (s.ret r).host.hW0 = s.host.hW0 := rfl
@[simp] theorem State.ret_hW1 (s : State) (r : Result) : (s.ret r).host.hW1 = s.host.hW1 := rfl
@[simp] theorem State.ret_hR0 (s : State) (r : Result) : (s.ret r).host.hR0 = s.host.hR0 := rfl
@[simp] theorem State.ret_caller (s : State) (r : Result) : (s.ret r).host.caller = s.host.caller := rfl
@[simp] theorem State.ret_polls (s : State) (r : Result) : (s.ret r).host.polls = s.host.polls := rfl
@[simp] theorem State.ret_calls (s : State) (r : Result) : (s.ret r).host.calls = s.host.calls := rfl

@[simp] theorem State.ret_returned (s : State) (r : Result) : (s.ret r).host.returned = s.host.returned ++ [r] := rfl

theorem State.raise_eq (s : State) (e : OpError) : s.raise e = s.ret (.error e) := rfl

@[simp] theorem State.setQueue_params (s : State) (i : Fin 32) (d : Side) (q : List Event) : (s.setQueue i d q).params = s.params := rfl
@[simp] theorem State.setQueue_chosenLevel (s : State) (i : Fin 32) (d : Side) (q : List Event) : (s.setQueue i d q).chosenLevel = s.chosenLevel := rfl
@[simp] theorem State.setQueue_cse (s : State) (i : Fin 32) (d : Side) (q : List Event) : (s.setQueue i d q).cse = s.cse := rfl
@[simp] theorem State.setQueue_mcg (s : State) (i : Fin 32) (d : Side) (q : List Event) : (s.setQueue i d q).mcg = s.mcg := rfl
@[simp] theorem State.setQueue_done (s : State) (i : Fin 32) (d : Side) (q : List Event) : (s.setQueue i d q).done = s.done := rfl
@[simp] theorem State.setQueue_scr (s : State) (i : Fin 32) (d : Side) (q : List Event) : (s.setQueue i d q).scr = s.scr := rfl
@[simp] theorem State.setQueue_lines (s : State) (i : Fin 32) (d : Side) (q : List Event) : (s.setQueue i d q).lines = s.lines := rfl
@[simp] theorem State.setQueue_host (s : State) (i : Fin 32) (d : Side) (q : List Event) : (s.setQueue i d q).host = s.host := rfl
@[simp] theorem State.setQueue_busLog (s : State) (i : Fin 32) (d : Side) (q : List Event) : (s.setQueue i d q).busLog = s.busLog := rfl
@[simp] theorem State.setQueue_oracle (s : State) (i : Fin 32) (d : Side) (q : List Event) : (s.setQueue i d q).oracle = s.oracle := rfl

@[simp] theorem State.setQueue_slots (s : State) (i : Fin 32) (d : Side) (q : List Event) :
    (s.setQueue i d q).slots = s.slots.set i (s.slots[i].withQueue d q) := rfl

@[simp] theorem State.busFaultTaken_params (s : State) : (s.busFaultTaken).params = s.params := rfl
@[simp] theorem State.busFaultTaken_chosenLevel (s : State) : (s.busFaultTaken).chosenLevel = s.chosenLevel := rfl
@[simp] theorem State.busFaultTaken_slots (s : State) : (s.busFaultTaken).slots = s.slots := rfl
@[simp] theorem State.busFaultTaken_cse (s : State) : (s.busFaultTaken).cse = s.cse := rfl
@[simp] theorem State.busFaultTaken_mcg (s : State) : (s.busFaultTaken).mcg = s.mcg := rfl
@[simp] theorem State.busFaultTaken_done (s : State) : (s.busFaultTaken).done = s.done := rfl
@[simp] theorem State.busFaultTaken_scr (s : State) : (s.busFaultTaken).scr = s.scr := rfl
@[simp] theorem State.busFaultTaken_lines (s : State) : (s.busFaultTaken).lines = s.lines := rfl
@[simp] theorem State.busFaultTaken_host (s : State) : (s.busFaultTaken).host = s.host := rfl
@[simp] theorem State.busFaultTaken_busLog (s : State) : (s.busFaultTaken).busLog = s.busLog := rfl

@[simp] theorem State.logTransaction_params (s : State) (c : Byte) (p r : Frame) : (s.logTransaction c p r).params = s.params := rfl
@[simp] theorem State.logTransaction_chosenLevel (s : State) (c : Byte) (p r : Frame) : (s.logTransaction c p r).chosenLevel = s.chosenLevel := rfl
@[simp] theorem State.logTransaction_slots (s : State) (c : Byte) (p r : Frame) : (s.logTransaction c p r).slots = s.slots := rfl
@[simp] theorem State.logTransaction_cse (s : State) (c : Byte) (p r : Frame) : (s.logTransaction c p r).cse = s.cse := rfl
@[simp] theorem State.logTransaction_mcg (s : State) (c : Byte) (p r : Frame) : (s.logTransaction c p r).mcg = s.mcg := rfl
@[simp] theorem State.logTransaction_done (s : State) (c : Byte) (p r : Frame) : (s.logTransaction c p r).done = s.done := rfl
@[simp] theorem State.logTransaction_scr (s : State) (c : Byte) (p r : Frame) : (s.logTransaction c p r).scr = s.scr := rfl
@[simp] theorem State.logTransaction_lines (s : State) (c : Byte) (p r : Frame) : (s.logTransaction c p r).lines = s.lines := rfl
@[simp] theorem State.logTransaction_host (s : State) (c : Byte) (p r : Frame) : (s.logTransaction c p r).host = s.host := rfl
@[simp] theorem State.logTransaction_oracle (s : State) (c : Byte) (p r : Frame) : (s.logTransaction c p r).oracle = s.oracle := rfl

@[simp] theorem State.logTransaction_busLog (s : State) (c : Byte) (p r : Frame) :
    (s.logTransaction c p r).busLog = s.busLog ++ [⟨c, p, r⟩] := rfl

@[simp] theorem State.turnTaken_params (s : State) : (s.turnTaken).params = s.params := by
  unfold State.turnTaken; split <;> rfl
@[simp] theorem State.turnTaken_chosenLevel (s : State) : (s.turnTaken).chosenLevel = s.chosenLevel := by
  unfold State.turnTaken; split <;> rfl
@[simp] theorem State.turnTaken_slots (s : State) : (s.turnTaken).slots = s.slots := by
  unfold State.turnTaken; split <;> rfl
@[simp] theorem State.turnTaken_cse (s : State) : (s.turnTaken).cse = s.cse := by
  unfold State.turnTaken; split <;> rfl
@[simp] theorem State.turnTaken_mcg (s : State) : (s.turnTaken).mcg = s.mcg := by
  unfold State.turnTaken; split <;> rfl
@[simp] theorem State.turnTaken_done (s : State) : (s.turnTaken).done = s.done := by
  unfold State.turnTaken; split <;> rfl
@[simp] theorem State.turnTaken_scr (s : State) : (s.turnTaken).scr = s.scr := by
  unfold State.turnTaken; split <;> rfl
@[simp] theorem State.turnTaken_lines (s : State) : (s.turnTaken).lines = s.lines := by
  unfold State.turnTaken; split <;> rfl
@[simp] theorem State.turnTaken_host (s : State) : (s.turnTaken).host = s.host := by
  unfold State.turnTaken; split <;> rfl
@[simp] theorem State.turnTaken_busLog (s : State) : (s.turnTaken).busLog = s.busLog := by
  unfold State.turnTaken; split <;> rfl

@[simp] theorem State.driverAfterXfer_params (s : State) (c : Byte) (p : Frame) : (s.driverAfterXfer c p).params = s.params := rfl
@[simp] theorem State.driverAfterXfer_chosenLevel (s : State) (c : Byte) (p : Frame) : (s.driverAfterXfer c p).chosenLevel = s.chosenLevel := rfl
@[simp] theorem State.driverAfterXfer_slots (s : State) (c : Byte) (p : Frame) : (s.driverAfterXfer c p).slots = s.slots := rfl
@[simp] theorem State.driverAfterXfer_scr (s : State) (c : Byte) (p : Frame) : (s.driverAfterXfer c p).scr = s.scr := rfl
@[simp] theorem State.driverAfterXfer_lines (s : State) (c : Byte) (p : Frame) : (s.driverAfterXfer c p).lines = s.lines := rfl
@[simp] theorem State.driverAfterXfer_host (s : State) (c : Byte) (p : Frame) : (s.driverAfterXfer c p).host = s.host := rfl
@[simp] theorem State.driverAfterXfer_busLog (s : State) (c : Byte) (p : Frame) : (s.driverAfterXfer c p).busLog = s.busLog := rfl

@[simp] theorem State.driverAfterXfer_cse (s : State) (c : Byte) (p : Frame) :
    (s.driverAfterXfer c p).cse = s.cse.afterXfer c := rfl
@[simp] theorem State.driverAfterXfer_mcg (s : State) (c : Byte) (p : Frame) :
    (s.driverAfterXfer c p).mcg = s.mcg.afterXfer s.params p s.oracle.misoFrame := rfl
@[simp] theorem State.driverAfterXfer_done (s : State) (c : Byte) (p : Frame) : (s.driverAfterXfer c p).done = false := rfl
@[simp] theorem State.driverAfterXfer_oracle (s : State) (c : Byte) (p : Frame) :
    (s.driverAfterXfer c p).oracle = s.oracle.misoTaken 64 := rfl

/-! ### HOST leaves XFER -/

@[simp] theorem State.leaveXfer_params (s : State) : s.leaveXfer.params = s.params := rfl
@[simp] theorem State.leaveXfer_chosenLevel (s : State) : s.leaveXfer.chosenLevel = s.chosenLevel := rfl
@[simp] theorem State.leaveXfer_slots (s : State) : s.leaveXfer.slots = s.slots := rfl
@[simp] theorem State.leaveXfer_cse (s : State) : s.leaveXfer.cse = s.cse := rfl
@[simp] theorem State.leaveXfer_mcg (s : State) : s.leaveXfer.mcg = s.mcg := rfl
@[simp] theorem State.leaveXfer_done (s : State) : s.leaveXfer.done = s.done := rfl
@[simp] theorem State.leaveXfer_scr (s : State) : s.leaveXfer.scr = s.scr := rfl
@[simp] theorem State.leaveXfer_lines (s : State) : s.leaveXfer.lines = s.lines := rfl
@[simp] theorem State.leaveXfer_busLog (s : State) : s.leaveXfer.busLog = s.busLog := rfl
@[simp] theorem State.leaveXfer_oracle (s : State) : s.leaveXfer.oracle = s.oracle := rfl
@[simp] theorem State.leaveXfer_hphase (s : State) : s.leaveXfer.host.hphase = .hNone := rfl
@[simp] theorem State.leaveXfer_hCs (s : State) : s.leaveXfer.host.hCs = s.host.hCs := rfl
@[simp] theorem State.leaveXfer_hW0 (s : State) : s.leaveXfer.host.hW0 = s.host.hW0 := rfl
@[simp] theorem State.leaveXfer_hW1 (s : State) : s.leaveXfer.host.hW1 = s.host.hW1 := rfl
@[simp] theorem State.leaveXfer_hR0 (s : State) : s.leaveXfer.host.hR0 = s.host.hR0 := rfl
@[simp] theorem State.leaveXfer_caller (s : State) : s.leaveXfer.host.caller = s.host.caller := rfl
@[simp] theorem State.leaveXfer_polls (s : State) : s.leaveXfer.host.polls = s.host.polls := rfl
@[simp] theorem State.leaveXfer_calls (s : State) : s.leaveXfer.host.calls = s.host.calls := rfl
@[simp] theorem State.leaveXfer_returned (s : State) : s.leaveXfer.host.returned = s.host.returned := rfl
@[simp] theorem State.lastWordTaken_params (s : State) (r : List Word32) : (s.lastWordTaken r).params = s.params := rfl
@[simp] theorem State.lastWordTaken_chosenLevel (s : State) (r : List Word32) : (s.lastWordTaken r).chosenLevel = s.chosenLevel := rfl
@[simp] theorem State.lastWordTaken_slots (s : State) (r : List Word32) : (s.lastWordTaken r).slots = s.slots := rfl
@[simp] theorem State.lastWordTaken_cse (s : State) (r : List Word32) : (s.lastWordTaken r).cse = s.cse := rfl
@[simp] theorem State.lastWordTaken_done (s : State) (r : List Word32) : (s.lastWordTaken r).done = s.done := rfl
@[simp] theorem State.lastWordTaken_scr (s : State) (r : List Word32) : (s.lastWordTaken r).scr = s.scr := rfl
@[simp] theorem State.lastWordTaken_lines (s : State) (r : List Word32) : (s.lastWordTaken r).lines = s.lines := rfl
@[simp] theorem State.lastWordTaken_busLog (s : State) (r : List Word32) : (s.lastWordTaken r).busLog = s.busLog := rfl
@[simp] theorem State.lastWordTaken_oracle (s : State) (r : List Word32) : (s.lastWordTaken r).oracle = s.oracle := rfl
@[simp] theorem State.lastWordTaken_hphase (s : State) (r : List Word32) : (s.lastWordTaken r).host.hphase = .hNone := rfl
@[simp] theorem State.lastWordTaken_hCs (s : State) (r : List Word32) : (s.lastWordTaken r).host.hCs = s.host.hCs := rfl
@[simp] theorem State.lastWordTaken_hW0 (s : State) (r : List Word32) : (s.lastWordTaken r).host.hW0 = s.host.hW0 := rfl
@[simp] theorem State.lastWordTaken_hW1 (s : State) (r : List Word32) : (s.lastWordTaken r).host.hW1 = s.host.hW1 := rfl
@[simp] theorem State.lastWordTaken_hR0 (s : State) (r : List Word32) : (s.lastWordTaken r).host.hR0 = s.host.hR0 := rfl
@[simp] theorem State.lastWordTaken_caller (s : State) (r : List Word32) : (s.lastWordTaken r).host.caller = s.host.caller := rfl
@[simp] theorem State.lastWordTaken_polls (s : State) (r : List Word32) : (s.lastWordTaken r).host.polls = s.host.polls := rfl
@[simp] theorem State.lastWordTaken_calls (s : State) (r : List Word32) : (s.lastWordTaken r).host.calls = s.host.calls := rfl
@[simp] theorem State.lastWordTaken_returned (s : State) (r : List Word32) : (s.lastWordTaken r).host.returned = s.host.returned := rfl
@[simp] theorem State.lastWordTaken_mcg (s : State) (r : List Word32) : (s.lastWordTaken r).mcg = { s.mcg with rxf := r } := rfl

end Sys2Proof.Machine
end

