-- ==== Sys2Proof/Laws/Ops.lean ====
section
/-! SUPPORT. What each shared operation can do, once: queues, the checks of an operation, the words of a frame, the shift
registers, and the result of a transfer. -/

namespace Sys2Proof.Machine

/-! ### Queues -/

theorem queuePush_of_full {α : Type} {n : Nat} {items : List α} (x : α) (h : items.length = n) :
    queuePush n items x = none := by simp [queuePush, queueFull, h]

theorem queuePush_of_not_full {α : Type} {n : Nat} {items : List α} (x : α) (h : items.length ≠ n) :
    queuePush n items x = some (items ++ [x]) := by simp [queuePush, queueFull, h]

theorem queuePush_eq_some {α : Type} {n : Nat} {items items' : List α} {x : α} (h : queuePush n items x = some items') :
    items.length ≠ n ∧ items' = items ++ [x] := by
  by_cases hn : items.length = n
  · rw [queuePush_of_full x hn] at h; cases h
  · rw [queuePush_of_not_full x hn] at h; exact ⟨hn, (Option.some.inj h).symm⟩

theorem queuePop_eq_some {α : Type} {items rest : List α} {x : α} (h : queuePop items = some (x, rest)) :
    items = x :: rest := by
  cases items <;> simp_all [queuePop]

theorem queuePop_eq_none {α : Type} {items : List α} (h : queuePop items = none) : items = [] := by
  cases items <;> simp_all [queuePop]

@[simp] theorem Slot.withQueue_cs (t : Slot) (d : Side) (q : List Event) : (t.withQueue d q).cs = t.cs := by cases d <;> rfl

theorem State.setQueue_getElem (s : State) (i j : Fin 32) (d : Side) (q : List Event) :
    (s.setQueue i d q).slots[j] = if i = j then s.slots[i].withQueue d q else s.slots[j] := by
  by_cases h : i = j
  · subst h; simp
  · have : i.val ≠ j.val := fun e => h (Fin.ext e)
    simp [h, this]

theorem State.queue_setQueue_same (s : State) (i : Fin 32) (d : Side) (q : List Event) :
    (s.setQueue i d q).queue i d = q := by
  cases d <;> simp [State.queue, Slot.withQueue]

theorem State.queue_setQueue_other (s : State) {i j : Fin 32} {d e : Side} (q : List Event) (h : ¬(i = j ∧ d = e)) :
    (s.setQueue i d q).queue j e = s.queue j e := by
  have hg := s.setQueue_getElem i j d q
  by_cases hij : i = j
  · subst hij
    cases d <;> cases e <;> simp_all [State.queue, Slot.withQueue]
  · cases e <;> simp_all [State.queue]

@[simp] theorem State.queue_ret (s : State) (r : Result) (i : Fin 32) (d : Side) : (s.ret r).queue i d = s.queue i d := rfl

/-! ### The checks of an operation -/

theorem State.hostCall_of_free {s : State} (k : Host.Outcome State Fault Refusal) (h : s.host.hphase = .hNone) :
    s.hostCall k = k := by simp [State.hostCall, h]

theorem State.hostCall_next {s t : State} {k : Host.Outcome State Fault Refusal} (h : s.hostCall k = .next t) :
    s.host.hphase = .hNone ∧ k = .next t := by
  unfold State.hostCall at h
  split at h
  · exact ⟨‹_›, h⟩
  · cases h

theorem withSlot_of_lt {i : Byte} (k : Fin 32 → Host.Outcome State Fault Refusal) (h : i.toNat < 32) :
    withSlot i k = k ⟨i.toNat, h⟩ := by simp [withSlot, h]

theorem withSlot_next {i : Byte} {k : Fin 32 → Host.Outcome State Fault Refusal} {t : State} (h : withSlot i k = .next t) :
    ∃ j : Fin 32, j.val = i.toNat ∧ k j = .next t := by
  unfold withSlot at h
  split at h
  · exact ⟨_, rfl, h⟩
  · cases h

/-! ### Words, frames and shift registers -/

theorem getLsbD_append_bytes (a b : Byte) (i : Nat) :
    BitVec.getLsbD (w := 16) (a ++ b) i = if i < 8 then b.getLsbD i else a.getLsbD (i - 8) := by
  have h := BitVec.getLsbD_append (x := a) (y := b) (i := i)
  exact h

@[simp] theorem hiByte_append_loByte (v : BitVec 16) : hiByte v ++ loByte v = v := by
  apply BitVec.eq_of_getLsbD_eq
  intro i hi
  rw [getLsbD_append_bytes]
  simp only [hiByte, loByte, BitVec.getLsbD_extractLsb']
  split
  · simp_all
  · have : 8 + (i - 8) = i := by omega
    have : i - 8 < 8 := by omega
    simp_all

@[simp] theorem hiByte_append (a b : Byte) : hiByte (a ++ b) = a := by
  apply BitVec.eq_of_getLsbD_eq
  intro i hi
  rw [hiByte, BitVec.getLsbD_extractLsb', getLsbD_append_bytes]
  simp [hi]

@[simp] theorem loByte_append (a b : Byte) : loByte (a ++ b) = b := by
  apply BitVec.eq_of_getLsbD_eq
  intro i hi
  rw [loByte, BitVec.getLsbD_extractLsb', getLsbD_append_bytes]
  simp [hi]

theorem getLsbD_append_word (a b c d : Byte) (i : Nat) :
    BitVec.getLsbD (w := 32) (a ++ (b ++ (c ++ d))) i =
      if i < 8 then d.getLsbD i else if i < 16 then c.getLsbD (i - 8) else if i < 24 then b.getLsbD (i - 16)
      else a.getLsbD (i - 24) := by
  have h1 := BitVec.getLsbD_append (x := a) (y := b ++ (c ++ d)) (i := i)
  have h2 := BitVec.getLsbD_append (x := b) (y := c ++ d) (i := i)
  have h3 := BitVec.getLsbD_append (x := c) (y := d) (i := i)
  refine h1.trans ?_
  rw [h2, h3]
  split_ifs <;> first | rfl | omega

theorem extract_append_word (a b c d : Byte) :
    BitVec.extractLsb' (n := 32) 24 8 (a ++ (b ++ (c ++ d))) = a ∧ BitVec.extractLsb' (n := 32) 16 8 (a ++ (b ++ (c ++ d))) = b ∧
    BitVec.extractLsb' (n := 32) 8 8 (a ++ (b ++ (c ++ d))) = c ∧ BitVec.extractLsb' (n := 32) 0 8 (a ++ (b ++ (c ++ d))) = d := by
  refine ⟨?_, ?_, ?_, ?_⟩ <;>
  · apply BitVec.eq_of_getLsbD_eq
    intro i hi
    rw [BitVec.getLsbD_extractLsb', getLsbD_append_word]
    simp only [hi, decide_true, Bool.true_and]
    split_ifs <;> first | omega | (congr 1; omega)

theorem frameOfWords_frameWords (p : Frame) : frameOfWords (frameWord0 p) (frameWord1 p) = p := by
  obtain ⟨b0, b1, b2, b3, b4, b5, b6, b7⟩ := p
  obtain ⟨h0, h1, h2, h3⟩ := extract_append_word b0 b1 b2 b3
  obtain ⟨h4, h5, h6, h7⟩ := extract_append_word b4 b5 b6 b7
  simp only [frameOfWords, frameWord0, frameWord1, h0, h1, h2, h3, h4, h5, h6, h7]

theorem getLsbD_shiftIn (w : Word32) (b : LineLevel) (i : Nat) (hi : i < 32) :
    (shiftIn w b).getLsbD i = if i = 0 then b else w.getLsbD (i - 1) := by
  simp only [shiftIn, BitVec.getLsbD_append, BitVec.getLsbD_extractLsb', BitVec.getLsbD_ofBool]
  by_cases h : i = 0
  · simp [h]
  · have h1 : ¬ i < 1 := by omega
    have h2 : i - 1 < 31 := by omega
    simp [h, h1, h2]

theorem shiftIn_false (w : Word32) : shiftIn w false = w <<< 1 := by
  apply BitVec.eq_of_getLsbD_eq
  intro i hi
  rw [getLsbD_shiftIn w false i hi, BitVec.getLsbD_shiftLeft]
  by_cases h : i = 0
  · simp [h]
  · have h1 : ¬ i < 1 := by omega
    simp [h, h1, hi]

end Sys2Proof.Machine
end

