-- ==== Sys2Proof/Laws/Effects.lean ====
section
/-! SUPPORT. What one instruction and one step can do, said once: the inversion lemmas from which the invariants follow. -/

namespace Sys2Proof.Machine

theorem DriverUntouched.rfl (s : State) : DriverUntouched s s := ⟨.refl _, .refl _, .refl _, .refl _, .refl _, .refl _, .refl _,
  .refl _, .refl _, .refl _⟩

theorem DriverUntouched.trans {s t u : State} (h : DriverUntouched s t) (g : DriverUntouched t u) : DriverUntouched s u where
  params := g.params.trans h.params
  chosenLevel := g.chosenLevel.trans h.chosenLevel
  cse := g.cse.trans h.cse
  mcg := g.mcg.trans h.mcg
  done := g.done.trans h.done
  scr := g.scr.trans h.scr
  lines := g.lines.trans h.lines
  busLog := g.busLog.trans h.busLog
  oracle := g.oracle.trans h.oracle
  host := by rw [g.host, h.host]

theorem DriverUntouched.ret (s : State) (r : Result) : DriverUntouched s (s.ret r) := by constructor <;> exact .refl _

theorem DriverUntouched.setQueue (s : State) (i : Fin 32) (d : Side) (q : List Event) : DriverUntouched s (s.setQueue i d q) := by
  constructor <;> exact .refl _

theorem DriverUntouched.setQueue_ret (s : State) (i : Fin 32) (d : Side) (q : List Event) (r : Result) :
    DriverUntouched s ((s.setQueue i d q).ret r) := (DriverUntouched.setQueue s i d q).trans (.ret _ r)

theorem qpush_untouched (s : State) (i : Fin 32) (d : Side) (x : Event) : DriverUntouched s (s.qpush i d x) := by
  unfold State.qpush
  split
  · exact .ret _ _
  · exact .setQueue_ret _ _ _ _ _

theorem qpop_untouched (s : State) (i : Fin 32) (d : Side) : DriverUntouched s (s.qpop i d) := by
  unfold State.qpop
  split
  · exact .ret _ _
  · exact .setQueue_ret _ _ _ _ _

theorem qpeek_untouched (s : State) (i : Fin 32) (d : Side) : DriverUntouched s (s.qpeek i d) := by
  unfold State.qpeek
  split <;> exact .ret _ _

theorem qdiscard_untouched (s : State) (i : Fin 32) (d : Side) : DriverUntouched s (s.qdiscard i d) :=
  .setQueue_ret _ _ _ _ _

theorem slotSend_untouched (s : State) (i : Fin 32) (e : Event) : DriverUntouched s (s.slotSend i e) := by
  unfold State.slotSend
  split
  · exact .ret _ _
  · exact .setQueue_ret _ _ _ _ _

theorem slotRecv_untouched (s : State) (i : Fin 32) : DriverUntouched s (s.slotRecv i) := by
  unfold State.slotRecv
  split
  · exact .ret _ _
  · exact .setQueue_ret _ _ _ _ _

theorem pollPopped_untouched (s : State) (i : Fin 32) : DriverUntouched s (s.pollPopped i) := by
  unfold State.pollPopped
  split
  · exact .rfl _
  · exact .setQueue _ _ _ _

theorem slotPollEnd_untouched (s : State) (i : Fin 32) (r : Frame) : DriverUntouched s (s.slotPollEnd i r) := by
  unfold State.slotPollEnd
  split
  · split
    · exact .ret _ _
    · exact .setQueue_ret _ _ _ _ _
  · exact .ret _ _

/-- Whatever XFER ends with, its return touches the slots and the results alone. -/
theorem xferReturn_untouched (s : State) (caller : Caller) (x : Except BusCause Frame) :
    DriverUntouched s (s.xferReturn caller x) := by
  unfold State.xferReturn
  split
  · exact .ret _ _
  · split
    · exact .ret _ _
    · exact slotPollEnd_untouched _ _ _

/-- The end of a transaction leaves the driver as it finds it. -/
theorem xferFinish_untouched (s : State) (caller : Caller) (c : Byte) (p r : Frame) :
    DriverUntouched (s.logTransaction c p r).busFaultTaken (s.xferFinish caller c p r) := xferReturn_untouched _ _ _

/-- XFER, once it answers: an error result, the atomic transaction, or the entry of the waveform level. -/
theorem xfer_next {s t : State} {caller : Caller} {c : Byte} {p : Frame} (h : s.xfer caller c p = .next t) :
    (31 < c.toNat ∧ t = s.raise (.busError .invalidChipSelect)) ∨
    (¬ 31 < c.toNat ∧ s.clean = true ∧ s.atomicXfer = true ∧ t = s.xferAtomic caller c p) ∨
    (¬ 31 < c.toNat ∧ s.clean = true ∧ s.atomicXfer = false ∧ t = s.xferEnter caller c p) := by
  unfold State.xfer at h
  split at h
  · cases h; exact .inl ⟨‹_›, .refl _⟩
  · split at h
    · split at h <;> cases h
      · exact .inr (.inl ⟨‹_›, ‹_›, ‹_›, .refl _⟩)
      · exact .inr (.inr ⟨‹_›, ‹_›, by simp_all, .refl _⟩)
    · cases h

/-- What one instruction can do to the driver. -/
inductive ExecEffect (i : Instr) (s t : State) : Prop where
  /-- CSW_SELECT, held. -/
  | held (n : BitVec 5) (u : BitVec 27) (hi : i = .cswSelect n u) (h : t = s)
  /-- CSW_SELECT, taken. -/
  | select (n : BitVec 5) (u : BitVec 27) (hi : i = .cswSelect n u) (pre : s.preCseSelect = true)
      (head : s.cse.ctlf.head? = some (cswWord n u)) (h : t = { s with cse := s.cse.select n })
  /-- An operation that leaves the driver alone. -/
  | host (free : s.host.hphase = .hNone) (h : DriverUntouched s t)
  /-- A whole transaction. -/
  | atomic (u : State) (caller : Caller) (c : Byte) (p : Frame) (hu : DriverUntouched s u) (hc : ¬ 31 < c.toNat)
      (clean : u.clean = true) (ha : u.atomicXfer = true) (h : t = u.xferAtomic caller c p)
  /-- The entry of a transfer at the waveform level. -/
  | enter (u : State) (caller : Caller) (c : Byte) (p : Frame) (hu : DriverUntouched s u) (hc : ¬ 31 < c.toNat)
      (clean : u.clean = true) (ha : u.atomicXfer = false) (h : t = u.xferEnter caller c p)

theorem decodesTo_effect {i : Instr} {s t : State} {e : Event} (h : s.decodesTo e = .next t) : ExecEffect i s t := by
  obtain ⟨hf, hk⟩ := State.hostCall_next h
  cases hk
  exact .host hf (.ret _ _)

theorem withSlot_effect {i : Instr} {s t : State} {j : Byte} {f : Fin 32 → State}
    (h : s.hostCall (withSlot j fun k => .next (f k)) = .next t) (hf : ∀ k, DriverUntouched s (f k)) : ExecEffect i s t := by
  obtain ⟨hfree, hk⟩ := State.hostCall_next h
  obtain ⟨k, -, hk⟩ := withSlot_next hk
  cases hk
  exact .host hfree (hf k)

theorem xfer_effect {i : Instr} {s u t : State} {caller : Caller} {c : Byte} {p : Frame} (hfree : s.host.hphase = .hNone)
    (hu : DriverUntouched s u) (h : u.xfer caller c p = .next t) : ExecEffect i s t := by
  rcases xfer_next h with ⟨-, rfl⟩ | ⟨hc, hcl, ha, rfl⟩ | ⟨hc, hcl, ha, rfl⟩
  · exact .host hfree (hu.trans (.ret _ _))
  · exact .atomic u caller c p hu hc hcl ha (.refl _)
  · exact .enter u caller c p hu hc hcl ha (.refl _)

/-- What one instruction can do to the driver, for every instruction. -/
theorem exec_effect {i : Instr} {s t : State} (h : exec i s = .next t) : ExecEffect i s t := by
  cases i with
  | cswSelect n u =>
    simp only [exec, execCswSelect] at h
    split at h <;> cases h
    · rename_i hp
      simp only [Bool.and_eq_true, beq_iff_eq] at hp
      exact .select n u (.refl _) hp.1 hp.2 (.refl _)
    · exact .held n u (.refl _) (.refl _)
  | ser e => obtain ⟨hf, hk⟩ := State.hostCall_next h; cases hk; exact .host hf (.ret _ _)
  | des p => obtain ⟨hf, hk⟩ := State.hostCall_next h; cases hk; exact .host hf (.ret _ _)
  | qpush q x => exact withSlot_effect h fun k => qpush_untouched s k q.side x
  | qpop q => exact withSlot_effect h fun k => qpop_untouched s k q.side
  | qpeek q => exact withSlot_effect h fun k => qpeek_untouched s k q.side
  | qdiscard q => exact withSlot_effect h fun k => qdiscard_untouched s k q.side
  | slotSend j e => exact withSlot_effect h fun k => slotSend_untouched s k e
  | slotRecv j => exact withSlot_effect h fun k => slotRecv_untouched s k
  | xfer c p => obtain ⟨hf, hk⟩ := State.hostCall_next h; exact xfer_effect hf (.rfl s) hk
  | slotPoll j =>
    obtain ⟨hf, hk⟩ := State.hostCall_next h
    obtain ⟨k, -, hk⟩ := withSlot_next hk
    exact xfer_effect hf (pollPopped_untouched s k) hk
  | evInput _ _ => exact decodesTo_effect h
  | evOutput _ => exact decodesTo_effect h
  | evMemWrite _ => exact decodesTo_effect h
  | evReboot _ => exact decodesTo_effect h
  | evSetControllerId _ => exact decodesTo_effect h
  | evLog _ => exact decodesTo_effect h
  | evFallback00 _ => exact decodesTo_effect h
  | evFallback06 _ _ => exact decodesTo_effect h
  | evFallback08 _ _ => exact decodesTo_effect h
  | evFallback10 _ _ => exact decodesTo_effect h
  | evFallback20 _ _ => exact decodesTo_effect h
  | evFallback40 _ _ => exact decodesTo_effect h

/-- What one step can do: run an instruction for HOST or CSE, or a step of the agent whose turn it is. -/
inductive StepEffect (s t : State) : Prop where
  /-- HOST runs its next call. -/
  | call (c : Call) (rest : List Call) (i : Instr) (turn : s.turn = .host) (free : s.host.hphase = .hNone)
      (calls : s.host.calls = c :: rest) (hi : decodeCall c = .ok i)
      (h : exec i { s.turnTaken with host := { s.host with calls := rest } } = .next t)
  /-- HOST has nothing to do. -/
  | idle (turn : s.turn = .host) (h : t = s.turnTaken)
  /-- HOST's sub-step inside XFER. -/
  | subStep (turn : s.turn = .host) (busy : s.host.hphase ≠ .hNone) (h : t = s.turnTaken.hostSubStep)
  | timeout (turn : s.turn = .hostTimeout) (h : t = s.turnTaken.hostTimeout)
  /-- CSE-SELECT runs the control word. -/
  | select (w : Word32) (rest : List Word32) (turn : s.turn = .cse) (pre : s.preCseSelect = true)
      (ctlf : s.cse.ctlf = w :: rest) (h : exec (decodeCsw w) s.turnTaken = .next t)
  | release (turn : s.turn = .cse) (pre : s.preCseSelect = false) (h : t = s.turnTaken.cseRelease)
  | mcg (turn : s.turn = .mcg) (h : t = s.turnTaken.mcgStep)
  | scr (turn : s.turn = .scr) (h : t = s.turnTaken.scrStep)
  | env (line : InLine) (v : LineLevel) (turn : s.turn = .env line v) (h : t = s.turnTaken.envSet line v)

theorem step_effect {s t : State} (h : step s = .next t) : StepEffect s t := by
  unfold step State.fetch at h
  cases ht : s.turn with
  | host =>
    simp only [ht, State.hostTurn, State.turnTaken_host] at h
    by_cases hf : s.host.hphase = .hNone
    · simp only [hf, if_true] at h
      cases hc : s.host.calls with
      | nil => simp only [hc] at h; cases h; exact .idle ht (.refl _)
      | cons c rest =>
        simp only [hc] at h
        cases hd : decodeCall c with
        | ok i => simp only [hd] at h; exact .call c rest i ht hf hc hd (by simpa [hf] using h)
        | error r => simp [hd] at h
    · simp only [hf, if_false] at h; cases h; exact .subStep ht hf (.refl _)
  | hostTimeout => simp only [ht] at h; cases h; exact .timeout ht (.refl _)
  | cse =>
    simp only [ht, State.cseTurn] at h
    have hp : s.turnTaken.preCseSelect = s.preCseSelect := by simp [State.preCseSelect]
    rw [hp] at h
    by_cases hs : s.preCseSelect = true
    · simp only [hs, if_true, State.turnTaken_cse] at h
      cases hc : s.cse.ctlf with
      | nil => simp [State.preCseSelect, hc] at hs
      | cons w rest => simp only [hc] at h; exact .select w rest ht hs hc h
    · simp only [hs] at h; cases h; exact .release ht (by simpa using hs) (.refl _)
  | mcg => simp only [ht] at h; cases h; exact .mcg ht (.refl _)
  | scr => simp only [ht] at h; cases h; exact .scr ht (.refl _)
  | env line v => simp only [ht] at h; cases h; exact .env line v ht (.refl _)

end Sys2Proof.Machine
end

