-- ==== Sys2Proof/Laws/Encoding.lean ====
section
/-! SUPPORT. Bytes, words and the encoding: each reader of the decoder against its writer, a frame against its fields, and the bits
of the words a frame is made of. -/

namespace Sys2Proof

open Sys2Proof.Machine

/-! ### Frames and their fields -/

@[simp] theorem Body.body_frame (b : Body) (x : Byte) : (b.frame x).body = b := by simp [Body.frame, Frame.body]

@[simp] theorem Frame.frame_body (p : Frame) : p.body.frame p.b0 = p := by simp [Body.frame, Frame.body]

theorem Frame.bytes_inj {p q : Frame} (h : p.bytes = q.bytes) : p = q := by
  cases p; cases q; simp [Frame.bytes] at h; simp [h]

/-- The row of a frame by its byte 0, its other bytes as fields. -/
theorem decodeFrame_frame (b : Body) (y : Byte) : decodeFrame (b.frame y) =
    if y &&& 0x80#8 = 0x80#8 then .evInput (y.extractLsb' 0 7) b
    else if y = 0x01#8 then .evOutput b
    else if y = 0x02#8 then .evMemWrite b
    else if y = 0x03#8 then .evReboot b
    else if y = 0x04#8 then .evSetControllerId b
    else if y = 0x05#8 then .evLog b
    else if y = 0x00#8 then .evFallback00 b
    else if y &&& 0xFE#8 = 0x06#8 then .evFallback06 (y.extractLsb' 0 1) b
    else if y &&& 0xF8#8 = 0x08#8 then .evFallback08 (y.extractLsb' 0 3) b
    else if y &&& 0xF0#8 = 0x10#8 then .evFallback10 (y.extractLsb' 0 4) b
    else if y &&& 0xE0#8 = 0x20#8 then .evFallback20 (y.extractLsb' 0 5) b
    else .evFallback40 (y.extractLsb' 0 6) b := by
  unfold decodeFrame
  rw [Body.body_frame]
  rfl

theorem decode_frame_bytes (p : Frame) : decode .frame p.bytes = .ok (decodeFrame p, []) := rfl

/-! ### Readers and writers of operands -/

theorem takeFrame_bytes (p : Frame) (r : List Byte) : takeFrame (p.bytes ++ r) = .ok (p, r) := rfl

theorem decodeEventType_encode (t : EventType) : decodeEventType (encodeEventType t).1 (encodeEventType t).2 = .ok t := by
  cases t with
  | input s => revert s; decide +kernel
  | output | memWrite | reboot | setControllerId | log => rfl

theorem takeEvent_encode (e : Event) (r : List Byte) : takeEvent (encodeEvent e ++ r) = .ok (e, r) := by
  simp [encodeEvent, takeEvent, decodeEventType_encode]

theorem takeQueue_encode (q : QueueRef) (r : List Byte) : takeQueue (encodeQueue q ++ r) = .ok (q, r) := by
  obtain ⟨i, d⟩ := q
  cases d <;> rfl

/-! ### 32-bit words -/

theorem append_extract_word (w : Word32) :
    (w.extractLsb' 24 8 ++ (w.extractLsb' 16 8 ++ (w.extractLsb' 8 8 ++ w.extractLsb' 0 8)) : Word32) = w := by
  apply BitVec.eq_of_getLsbD_eq
  intro i hi
  rw [getLsbD_append_word]
  simp only [BitVec.getLsbD_extractLsb']
  split_ifs
  · simp_all
  · have : i - 8 < 8 := by omega
    have : 8 + (i - 8) = i := by omega
    simp_all
  · have : i - 16 < 8 := by omega
    have : 16 + (i - 16) = i := by omega
    simp_all
  · have : i - 24 < 8 := by omega
    have : 24 + (i - 24) = i := by omega
    simp_all

theorem takeWord_wordBytes (w : Word32) (r : List Byte) : takeWord (wordBytes w ++ r) = .ok (w, r) := by
  simp only [wordBytes, List.cons_append, List.nil_append, takeWord, append_extract_word]

theorem decodeCsw_cswWord (n : BitVec 5) (u : BitVec 27) : decodeCsw (cswWord n u) = .cswSelect n u := by
  have key (i : Nat) : (cswWord n u).getLsbD i = if i < 5 then n.getLsbD i else u.getLsbD (i - 5) :=
    (BitVec.getLsbD_append (x := u) (y := n) (i := i)).trans (by split <;> rfl)
  have h1 : (cswWord n u).extractLsb' 0 5 = n := by
    apply BitVec.eq_of_getLsbD_eq
    intro i hi
    rw [BitVec.getLsbD_extractLsb', key]
    simp [hi]
  have h2 : (cswWord n u).extractLsb' 5 27 = u := by
    apply BitVec.eq_of_getLsbD_eq
    intro i hi
    rw [BitVec.getLsbD_extractLsb', key]
    simp [hi]
  simp [decodeCsw, h1, h2]

theorem cswWord_extract (w : Word32) : cswWord (w.extractLsb' 0 5) (w.extractLsb' 5 27) = w := by
  apply BitVec.eq_of_getLsbD_eq
  intro i hi
  refine (BitVec.getLsbD_append (x := w.extractLsb' 5 27) (y := w.extractLsb' 0 5) (i := i)).trans ?_
  simp only [BitVec.getLsbD_extractLsb']
  split_ifs with h5
  · simp [h5]
  · have : i - 5 < 27 := by omega
    have : 5 + (i - 5) = i := by omega
    simp_all

/-- The index CSE reads out of XFER's control word (30_encoding.md R66). -/
theorem cswWord_eq_controlWord {n : BitVec 5} {u : BitVec 27} {c : Byte} (h : cswWord n u = controlWord c) : n = c.setWidth 5 := by
  have h5 : (cswWord n u).setWidth 5 = (controlWord c).setWidth 5 := by rw [h]
  unfold cswWord controlWord at h5
  rw [BitVec.setWidth_append] at h5
  simpa using h5

/-! ### Words as numbers -/

theorem toNat_append_bytes (a b : Byte) : BitVec.toNat (w := 16) (a ++ b) = 256 * a.toNat + b.toNat := by
  refine (BitVec.toNat_append a b).trans ?_
  have := b.isLt
  rw [Nat.shiftLeft_eq, Nat.mul_comm]
  exact (Nat.two_pow_add_eq_or_of_lt (by omega) _).symm

/-! ### Bits of a frame -/

/-- The bits of a frame in bus order are those of its two words, most significant first. -/
theorem frameBit_frameOfWords (a b : Word32) {k : Nat} (hk : k < 32) :
    frameBit (frameOfWords a b) k = a.getLsbD (31 - k) ∧ frameBit (frameOfWords a b) (32 + k) = b.getLsbD (31 - k) := by
  have h : k / 8 = 0 ∨ k / 8 = 1 ∨ k / 8 = 2 ∨ k / 8 = 3 := by omega
  have h8 : decide (7 - k % 8 < 8) = true := by simp; omega
  have h2 : (32 + k) / 8 = k / 8 + 4 := by omega
  have h3 : 7 - (32 + k) % 8 = 7 - k % 8 := by omega
  constructor
  · rcases h with h | h | h | h <;>
    · simp only [frameBit, h, frameByte, frameOfWords, BitVec.getLsbD_extractLsb', h8, Bool.true_and]
      congr 1; omega
  · rcases h with h | h | h | h <;>
    · simp only [frameBit, h2, h3, h, frameByte, frameOfWords, BitVec.getLsbD_extractLsb', h8, Bool.true_and]
      congr 1; omega

theorem frameWords_frameOfWords (a b : Word32) : frameWord0 (frameOfWords a b) = a ∧ frameWord1 (frameOfWords a b) = b :=
  ⟨append_extract_word a, append_extract_word b⟩

/-- Bit `i` of a word of `n` levels of MISO is the level `i` before the last. -/
theorem Machine.getLsbD_misoWord (o : Oracle) (base : Nat) {n i : Nat} (hi : i < n) (hn : n ≤ 32) :
    (o.misoWord base n).getLsbD i = o.misoBit (base + (n - 1 - i)) := by
  induction n generalizing i with
  | zero => omega
  | succ n ih =>
    rw [Oracle.misoWord, getLsbD_shiftIn _ _ _ (by omega)]
    split
    · subst i; rfl
    · rw [ih (by omega) (by omega)]; congr 2; omega

/-- A word whose bits are 32 levels of MISO, the last in bit 0. -/
theorem Machine.eq_misoWord {o : Oracle} {w : Word32} {base : Nat} (h : ∀ j < 32, w.getLsbD j = o.misoBit (base + 31 - j)) :
    w = o.misoWord base 32 := by
  apply BitVec.eq_of_getLsbD_eq
  intro i hi
  rw [h i hi, getLsbD_misoWord _ _ hi (by omega)]
  congr 1; omega

end Sys2Proof
end

