-- ==== Sys2Proof/Laws/Step.lean ====
section
/-! SUPPORT. Which step each turn is, and what the shared operations of a transfer and of SLOT_POLL answer. -/

namespace Sys2Proof.Machine

/-! ### Turns -/

theorem State.turn_of_turns {s : State} {t : Turn} {r : List Turn} (h : s.oracle.turns = t :: r) : s.turn = t := by
  unfold State.turn; rw [h]

theorem State.turnTaken_of_turns {s : State} {t : Turn} {r : List Turn} (h : s.oracle.turns = t :: r) :
    s.turnTaken = { s with oracle := { s.oracle with turns := r } } := by
  unfold State.turnTaken; rw [h]

@[simp] theorem State.turnTaken_misoBit (s : State) (k : Nat) : s.turnTaken.oracle.misoBit k = s.oracle.misoBit k := by
  unfold State.turnTaken; split <;> rfl

@[simp] theorem State.turnTaken_busFaultNow (s : State) : s.turnTaken.busFaultNow = s.busFaultNow := by
  unfold State.turnTaken; split <;> rfl

theorem step_subStep {s : State} (h : s.turn = .host) (hb : s.host.hphase ≠ .hNone) : step s = .next s.turnTaken.hostSubStep := by
  unfold step State.fetch
  simp [h, State.hostTurn, hb]

theorem step_timeout {s : State} (h : s.turn = .hostTimeout) : step s = .next s.turnTaken.hostTimeout := by
  unfold step State.fetch
  simp only [h]

theorem step_select {s : State} {w : Word32} {rest : List Word32} (h : s.turn = .cse) (hp : s.preCseSelect = true)
    (hc : s.cse.ctlf = w :: rest) : step s = exec (decodeCsw w) s.turnTaken := by
  have hp' : s.turnTaken.preCseSelect = true := by simpa [State.preCseSelect] using hp
  unfold step State.fetch
  simp only [h, State.cseTurn, hp', State.turnTaken_cse, hc, if_true]

theorem step_release {s : State} (h : s.turn = .cse) (hp : s.preCseSelect = false) : step s = .next s.turnTaken.cseRelease := by
  have hp' : s.turnTaken.preCseSelect = false := by simpa [State.preCseSelect] using hp
  unfold step State.fetch
  simp only [h, State.cseTurn, hp', Bool.false_eq_true, if_false]

theorem step_mcg {s : State} (h : s.turn = .mcg) : step s = .next s.turnTaken.mcgStep := by
  unfold step State.fetch
  simp only [h]

theorem step_scr {s : State} (h : s.turn = .scr) : step s = .next s.turnTaken.scrStep := by
  unfold step State.fetch
  simp only [h]

theorem step_env {s : State} {l : InLine} {v : LineLevel} (h : s.turn = .env l v) :
    step s = .next (s.turnTaken.envSet l v) := by
  unfold step State.fetch
  simp only [h]

/-! ### The oracle -/

theorem Oracle.misoTaken_misoBit (o : Oracle) (n k : Nat) : (o.misoTaken n).misoBit k = o.misoBit (n + k) := by
  simp only [Oracle.misoBit, Oracle.misoTaken, List.getElem?_drop]
  rw [Nat.add_assoc]

theorem shiftIn_eq_or (w : Word32) (b : LineLevel) : shiftIn w b = (w <<< 1) ||| (if b = true then 1#32 else 0#32) := by
  apply BitVec.eq_of_getLsbD_eq
  intro i hi
  rw [getLsbD_shiftIn _ _ _ hi]
  cases b <;> by_cases h : i = 0 <;> simp [hi, h] <;> exact BitVec.getLsbD_eq_getElem (by omega)

/-! ### The clean state -/

theorem State.clean_iff (s : State) : s.clean = true ↔
    s.driverFree ∧ s.mcg.wordcnt = 0 ∧ s.cse.ctlf = [] ∧ s.mcg.txf = [] ∧ s.mcg.rxf = [] ∧ s.host.hphase = .hNone := by
  simp [State.clean, State.driverFree]
  tauto

theorem DriverUntouched.clean {s t : State} (h : DriverUntouched s t) : t.clean = s.clean := by
  simp only [State.clean, h.cse, h.mcg, h.done]
  rw [h.host]

theorem DriverUntouched.atomicXfer {s t : State} (h : DriverUntouched s t) : t.atomicXfer = s.atomicXfer := by
  simp only [State.atomicXfer, h.cse, h.mcg, h.params, h.chosenLevel]

/-! ### The level -/

theorem State.level_transaction_iff (s : State) : s.level = .transaction ↔ s.atomicXfer = true := by
  unfold State.level
  cases s.atomicXfer <;> simp

theorem State.level_waveform_iff (s : State) : s.level = .waveform ↔ s.atomicXfer = false := by
  unfold State.level
  cases s.atomicXfer <;> simp

/-- States that agree on what the level reads are at the same level. -/
theorem State.level_congr {s t : State} (hl : t.chosenLevel = s.chosenLevel) (hp : t.params = s.params) (h0 : t.cse.en0 = s.cse.en0)
    (h1 : t.mcg.en1 = s.mcg.en1) : t.level = s.level := by
  have h : t.atomicXfer = s.atomicXfer := by simp only [State.atomicXfer, hl, hp, h0, h1]
  unfold State.level
  rw [h]

@[simp] theorem State.turnTaken_level (s : State) : s.turnTaken.level = s.level :=
  State.level_congr (by simp) (by simp) (by simp) (by simp)

/-- A slot's chip-select is in 0..31. -/
theorem chipSelect_le (x : BitVec 5) : ¬ 31 < (x.setWidth 8).toNat := by
  have := x.isLt
  simp; omega

/-! ### Transfers -/

theorem State.xfer_atomic {s : State} (caller : Caller) {c : Byte} (p : Frame) (hc : ¬ 31 < c.toNat) (h : s.clean = true)
    (ha : s.atomicXfer = true) : s.xfer caller c p = .next (s.xferAtomic caller c p) := by
  simp [State.xfer, hc, h, ha]

theorem State.xfer_enter {s : State} (caller : Caller) {c : Byte} (p : Frame) (hc : ¬ 31 < c.toNat) (h : s.clean = true)
    (ha : s.atomicXfer = false) : s.xfer caller c p = .next (s.xferEnter caller c p) := by
  simp [State.xfer, hc, h, ha]

theorem State.xferFinish_ok {s : State} (caller : Caller) (c : Byte) (p r : Frame) (h : s.busFaultNow = false) :
    s.xferFinish caller c p r = (s.logTransaction c p r).busFaultTaken.xferReturn caller (.ok r) := by
  unfold State.xferFinish
  simp [h]

theorem State.xferFinish_fault {s : State} (caller : Caller) (c : Byte) (p r : Frame) (h : s.busFaultNow = true) :
    s.xferFinish caller c p r = (s.logTransaction c p r).busFaultTaken.ret (.error (.busError .fault)) := by
  unfold State.xferFinish
  simp [h, State.xferReturn, State.raise]

/-- HOST's last read. -/
theorem State.hostSubStep_r1 {s : State} {w : Word32} {rest : List Word32} (hp : s.host.hphase = .hR1) (hr : s.mcg.rxf = w :: rest) :
    s.hostSubStep = (s.lastWordTaken rest).xferFinish s.host.caller s.host.hCs (frameOfWords s.host.hW0 s.host.hW1)
      (frameOfWords s.host.hR0 w) := by
  simp only [State.hostSubStep, hp, State.hostR1, hr]

/-- What XFER returns, and to which queue, depends on the parameters, the slots and the earlier results alone. -/
theorem State.xferReturn_congr {s t : State} (caller : Caller) (x : Except BusCause Frame) (hp : t.params = s.params)
    (hs : t.slots = s.slots) (hr : t.host.returned = s.host.returned) :
    (t.xferReturn caller x).host.returned = (s.xferReturn caller x).host.returned ∧
      (t.xferReturn caller x).slots = (s.xferReturn caller x).slots := by
  have hq : ∀ i d, t.queue i d = s.queue i d := fun i d => by cases d <;> simp [State.queue, hs]
  cases x with
  | error e => simp [State.xferReturn, State.raise, hr, hs]
  | ok r =>
    cases caller with
    | xfer => simp [State.xferReturn, hr, hs]
    | slotPoll i =>
      simp only [State.xferReturn, State.slotPollEnd, hp, hq]
      split
      · split <;> simp [State.raise, hr, hs]
      · simp [State.raise, hr, hs]

/-! ### HOST's calls -/

theorem withOperand_ok {α : Type} {mk : α → Instr} {x : Except DecodeError (α × List Byte)} {i : Instr} {rest : List Byte}
    (h : withOperand mk x = .ok (i, rest)) : ∃ a, i = mk a := by
  cases x with
  | error e => simp [withOperand] at h
  | ok y => simp only [withOperand, Except.ok.injEq, Prod.mk.injEq] at h; exact ⟨y.1, h.1.symm⟩

theorem format_ite {c : Prop} [Decidable c] {i j : Instr} {f : Format} (hi : i.format = f) (hj : j.format = f) :
    (if c then i else j).format = f := by
  split
  · exact hi
  · exact hj

theorem decodeFrame_format (p : Frame) : (decodeFrame p).format = .frame := by
  unfold decodeFrame
  iterate 11 (refine format_ite rfl ?_)
  rfl

theorem decodeOp_format {bs rest : List Byte} {i : Instr} (h : decodeOp bs = .ok (i, rest)) : i.format = .op := by
  cases bs with
  | nil => simp [decodeOp] at h
  | cons o r =>
    simp only [decodeOp] at h
    split_ifs at h <;> obtain ⟨a, rfl⟩ := withOperand_ok h <;> rfl

/-- A call of HOST's is never the control word. -/
theorem decodeCall_format {c : Call} {i : Instr} (h : decodeCall c = .ok i) : i.format ≠ .csw := by
  unfold decodeCall at h
  cases hf : c.format <;> simp only [hf, reduceCtorEq, decode] at h
  · split at h <;> cases h
    rename_i hd
    obtain ⟨a, rfl⟩ := withOperand_ok hd
    simp [decodeFrame_format]
  · split at h <;> cases h
    rename_i hd
    simp [decodeOp_format hd]

/-! ### Queues of a slot -/

theorem State.setQueue_queue (s : State) (i : Fin 32) (d : Side) : s.setQueue i d (s.queue i d) = s := by
  have h : s.slots[i].withQueue d (s.queue i d) = s.slots[i] := by cases d <;> rfl
  unfold State.setQueue
  rw [h]
  simp

theorem State.setQueue_cs (s : State) (i j : Fin 32) (d : Side) (q : List Event) :
    ((s.setQueue i d q).slots[j]).cs = s.slots[j].cs := by
  rw [State.setQueue_getElem]
  split
  · subst_vars; simp
  · rfl

theorem State.pollEvent_eq (s : State) (i : Fin 32) : s.pollEvent i = (s.queue i .tx).head?.getD (ping s.params) := by
  unfold State.pollEvent
  cases s.queue i .tx <;> rfl

theorem State.pollPopped_eq (s : State) (i : Fin 32) : s.pollPopped i = s.setQueue i .tx (s.queue i .tx).tail := by
  have h := s.setQueue_queue i .tx
  unfold State.pollPopped
  cases hq : s.queue i .tx with
  | nil => rw [hq] at h; exact h.symm
  | cons x r => rfl

theorem State.slotPollEnd_invalid {s : State} {i : Fin 32} {r : Frame} (h : r ∈ s.params.invalidFrames) :
    s.slotPollEnd i r = s.ret (.error .invalidMessage) := by
  simp [State.slotPollEnd, frameValid, h, State.raise]

theorem State.slotPollEnd_full {s : State} {i : Fin 32} {r : Frame} (h : r ∉ s.params.invalidFrames)
    (hf : (s.queue i .rx).length = s.params.qcap) : s.slotPollEnd i r = s.ret (.error .rxOverflow) := by
  simp [State.slotPollEnd, frameValid, h, queuePush_of_full _ hf, State.raise]

theorem State.slotPollEnd_ok {s : State} {i : Fin 32} {r : Frame} (h : r ∉ s.params.invalidFrames)
    (hf : (s.queue i .rx).length ≠ s.params.qcap) :
    s.slotPollEnd i r = (s.setQueue i .rx (s.queue i .rx ++ [deserialize r])).ret .ok := by
  simp [State.slotPollEnd, frameValid, h, queuePush_of_not_full _ hf]

end Sys2Proof.Machine
end

