-- ==== Sys2Proof/Laws/Invariants.lean ====
section
/-! SUPPORT. Which fields each invariant and the measure of a transfer read: states that agree on them meet it together. -/

namespace Sys2Proof.Machine

theorem State.SlotsInv.congr {s t : State} (h : s.SlotsInv) (hp : t.params = s.params) (hs : t.slots = s.slots) : t.SlotsInv := by
  obtain ⟨a, b, c⟩ := h
  constructor <;> rw [hs] <;> first | (rw [hp]; assumption) | assumption

theorem State.SlotsInv.queue_length_le {s : State} (h : s.SlotsInv) (i : Fin 32) (d : Side) : (s.queue i d).length ≤ s.params.qcap := by
  cases d
  · exact h.txBound i
  · exact h.rxBound i

/-- A queue replaced by one within the capacity. -/
theorem State.SlotsInv.setQueue {s : State} (h : s.SlotsInv) (i : Fin 32) (d : Side) {q : List Event} (hq : q.length ≤ s.params.qcap) :
    (s.setQueue i d q).SlotsInv := by
  obtain ⟨a, b, c⟩ := h
  constructor <;> intro j <;> rw [State.setQueue_getElem] <;> split
  · subst_vars; cases d <;> simp [Slot.withQueue] <;> first | exact hq | exact a _
  · exact a j
  · subst_vars; cases d <;> simp [Slot.withQueue] <;> first | exact hq | exact b _
  · exact b j
  · subst_vars; simp; exact c _
  · exact c j

theorem State.ChannelInv.congr {s t : State} (h : s.ChannelInv) (hp : t.params = s.params) (hc : t.cse = s.cse) (hm : t.mcg = s.mcg) :
    t.ChannelInv := by
  obtain ⟨a, b, c⟩ := h
  constructor <;> rw [hp] <;> first | (rw [hc]; assumption) | (rw [hm]; assumption)

theorem State.DriverInv.congr {s t : State} (h : s.DriverInv) (hp : t.params = s.params) (hc : t.cse = s.cse) (hm : t.mcg = s.mcg)
    (hd : t.done = s.done) : t.DriverInv := by
  obtain ⟨a, b, c, d, e, f⟩ := h
  constructor <;> simp only [hp, hc, hm, hd] <;> assumption

theorem State.TransferInv.congr {s t : State} (h : s.TransferInv) (hp : t.params = s.params) (hc : t.cse = s.cse) (hm : t.mcg = s.mcg)
    (hd : t.done = s.done) (h0 : t.host.hphase = s.host.hphase) (h1 : t.host.hCs = s.host.hCs) (h2 : t.host.hW0 = s.host.hW0)
    (h3 : t.host.hW1 = s.host.hW1) : t.TransferInv := by
  obtain ⟨a1, a2, a3, a4, a5, a6, a7⟩ := h
  refine ⟨a1.congr hp hc hm hd, ?_, ?_, ?_, ?_, ?_, ?_⟩
  all_goals
    simp only [State.driverFree, State.transactionStage, State.delivered, State.sendRegister, State.currentWord, hp, hc, hm, hd, h0, h1,
      h2, h3] at *
    assumption

theorem State.TransferInv.untouched {s t : State} (h : s.TransferInv) (u : DriverUntouched s t) : t.TransferInv :=
  h.congr u.params u.cse u.mcg u.done (by rw [u.host]) (by rw [u.host]) (by rw [u.host]) (by rw [u.host])

theorem State.ReceiveInv.congr {o : Oracle} {s t : State} (h : s.ReceiveInv o) (hm : t.mcg = s.mcg)
    (h0 : t.host.hphase = s.host.hphase) (hr : t.host.hR0 = s.host.hR0) (ho : ∀ k, t.oracle.misoBit k = s.oracle.misoBit k) :
    t.ReceiveInv o := by
  obtain ⟨a, b, c⟩ := h
  constructor
  · intro k
    rw [ho, a]
    simp only [State.samples, State.delivered, hm, h0]
  · simp only [State.delivered, hm, h0, hr] at *
    exact b
  · simp only [State.samples, State.delivered, hm, h0] at *
    exact c

theorem State.Stalled.congr {s t : State} (h : s.Stalled) (hp : t.params = s.params) (hc : t.cse = s.cse) (hm : t.mcg = s.mcg)
    (hd : t.done = s.done) (hh : t.host.hphase = s.host.hphase) : t.Stalled := by
  obtain ⟨a, b, c, d⟩ := h
  constructor <;> simp only [hp, hc, hm, hd, hh] <;> assumption

theorem State.stepsLeft_congr {s t : State} (hc : t.cse = s.cse) (hm : t.mcg = s.mcg) (hh : t.host.hphase = s.host.hphase) :
    t.stepsLeft = s.stepsLeft := by
  unfold State.stepsLeft State.cseStepsLeft State.mcgStepsLeft State.delivered
  rw [hc, hm, hh]

theorem State.stepsLeft_inside {s : State} (h : s.host.hphase ≠ .hNone) :
    s.stepsLeft = s.host.hphase.stepsLeft + s.cseStepsLeft + s.mcgStepsLeft := if_neg h

theorem State.stepsLeft_pos {s : State} (h : s.host.hphase ≠ .hNone) : 0 < s.stepsLeft := by
  rw [State.stepsLeft_inside h]
  have : 0 < s.host.hphase.stepsLeft := by cases hp : s.host.hphase <;> simp_all [HostPhase.stepsLeft]
  omega

/-- Inside XFER every turn answers. -/
theorem step_inside_answers {s : State} (hn : s.host.hphase ≠ .hNone) : ∃ t, step s = .next t := by
  cases ht : s.turn with
  | host => exact ⟨_, step_subStep ht hn⟩
  | hostTimeout => exact ⟨_, step_timeout ht⟩
  | mcg => exact ⟨_, step_mcg ht⟩
  | scr => exact ⟨_, step_scr ht⟩
  | env l v => exact ⟨_, step_env ht⟩
  | cse =>
    by_cases hp : s.preCseSelect = true
    · cases hc : s.cse.ctlf with
      | nil => simp [State.preCseSelect, hc] at hp
      | cons w r =>
        rw [step_select ht hp hc]
        simp only [decodeCsw, exec, execCswSelect]
        split <;> exact ⟨_, rfl⟩
    · exact ⟨_, step_release ht (by simpa using hp)⟩

end Sys2Proof.Machine
end

