-- ==== Sys2Proof/Laws/PerInstr.lean ====
section
/-! SUPPORT. Statements made of every instruction as syntax, one lemma per constructor. -/

namespace Sys2Proof.Laws.EncodedLength

open Sys2Proof

/-- How many bytes an instruction has: 8 for a frame, 4 for a control word (spec 30_encoding.md R60); an operation its ordinal and
its operands (log 10). -/
def bytesOf : Instr → Nat
  | .evInput _ _ | .evOutput _ | .evMemWrite _ | .evReboot _ | .evSetControllerId _ | .evLog _ => 8
  | .evFallback00 _ | .evFallback06 _ _ | .evFallback08 _ _ | .evFallback10 _ _ | .evFallback20 _ _ | .evFallback40 _ _ => 8
  | .cswSelect _ _ => 4
  | .ser _ | .des _ => 9
  | .qpush _ _ => 11
  | .qpop _ | .qpeek _ | .qdiscard _ => 3
  | .xfer _ _ => 10
  | .slotPoll _ | .slotRecv _ => 2
  | .slotSend _ _ => 10

/-- The encoder writes exactly the bytes of the instruction's form. -/
def Statement (i : Instr) : Prop := (encode i).length = bytesOf i

theorem evInput (n : BitVec 7) (b : Body) : Statement (.evInput n b) := rfl
theorem evOutput (b : Body) : Statement (.evOutput b) := rfl
theorem evMemWrite (b : Body) : Statement (.evMemWrite b) := rfl
theorem evReboot (b : Body) : Statement (.evReboot b) := rfl
theorem evSetControllerId (b : Body) : Statement (.evSetControllerId b) := rfl
theorem evLog (b : Body) : Statement (.evLog b) := rfl
theorem evFallback00 (b : Body) : Statement (.evFallback00 b) := rfl
theorem evFallback06 (x : BitVec 1) (b : Body) : Statement (.evFallback06 x b) := rfl
theorem evFallback08 (x : BitVec 3) (b : Body) : Statement (.evFallback08 x b) := rfl
theorem evFallback10 (x : BitVec 4) (b : Body) : Statement (.evFallback10 x b) := rfl
theorem evFallback20 (x : BitVec 5) (b : Body) : Statement (.evFallback20 x b) := rfl
theorem evFallback40 (x : BitVec 6) (b : Body) : Statement (.evFallback40 x b) := rfl
theorem cswSelect (n : BitVec 5) (u : BitVec 27) : Statement (.cswSelect n u) := rfl
theorem ser (e : Event) : Statement (.ser e) := rfl
theorem des (p : Frame) : Statement (.des p) := rfl
theorem qpush (q : QueueRef) (x : Event) : Statement (.qpush q x) := rfl
theorem qpop (q : QueueRef) : Statement (.qpop q) := rfl
theorem qpeek (q : QueueRef) : Statement (.qpeek q) := rfl
theorem qdiscard (q : QueueRef) : Statement (.qdiscard q) := rfl
theorem xfer (c : Byte) (p : Frame) : Statement (.xfer c p) := rfl
theorem slotPoll (i : Byte) : Statement (.slotPoll i) := rfl
theorem slotSend (i : Byte) (e : Event) : Statement (.slotSend i e) := rfl
theorem slotRecv (i : Byte) : Statement (.slotRecv i) := rfl

end Sys2Proof.Laws.EncodedLength
end

