-- ==== Sys2Proof/Laws/Transfer.lean ====
section
/-! SUPPORT. Runs of several steps, and what MCG's turns in a row do: the bits of a word, and a whole word. -/

namespace Sys2Proof.Machine

theorem run_succ_of_step {M : Host.Core} {n : Nat} {s t : M.State} (h : M.step s = .next t) : M.run (n + 1) s = M.run n t := by
  show (match M.step s with | .next s' => M.run n s' | .fault r => .fault r | .refused r => .refused r) = _
  rw [h]

theorem run_add_of_run {M : Host.Core} {n m : Nat} {s t : M.State} (h : M.run n s = .next t) : M.run (n + m) s = M.run m t := by
  induction n generalizing s with
  | zero => cases h; simp
  | succ n ih =>
    rw [show n + 1 + m = (n + m) + 1 by omega]
    change (match M.step s with | .next s' => M.run n s' | .fault r => .fault r | .refused r => .refused r) = _ at h
    show (match M.step s with | .next s' => M.run (n + m) s' | .fault r => .fault r | .refused r => .refused r) = _
    cases hs : M.step s with
    | next u => rw [hs] at h; exact ih h
    | fault r => rw [hs] at h; cases h
    | refused r => rw [hs] at h; cases h

theorem run_succ {n : Nat} {s t : State} (h : step s = .next t) : Host.Core.run Sys2Proof.core (n + 1) s = Host.Core.run Sys2Proof.core n t :=
  run_succ_of_step (M := Sys2Proof.core) h

theorem run_add {n m : Nat} {s t : State} (h : Host.Core.run Sys2Proof.core n s = .next t) :
    Host.Core.run Sys2Proof.core (n + m) s = Host.Core.run Sys2Proof.core m t :=
  run_add_of_run (M := Sys2Proof.core) h

/-- One bit: a shift edge and a sample edge. -/
theorem run_bit (s : State) (rest : List Turn) (he : s.mcg.en1 = true) (hp : s.mcg.phase1 = .mShift)
    (ht : s.oracle.turns = .mcg :: .mcg :: rest) :
    Host.Core.run Sys2Proof.core 2 s = .next { s with
      mcg := { s.mcg with osr := s.mcg.osr <<< 1, isr := shiftIn s.mcg.isr (s.oracle.misoBit 0), bitcnt := s.mcg.bitcnt + 1,
                          phase1 := if s.mcg.bitcnt + 1 = 32 then .mPush else .mShift, sck := s.params.sckIdle,
                          mosi := s.mcg.osr.getLsbD 31 }
      oracle := { s.oracle with turns := rest, miso := s.oracle.miso.drop 1, misoDraws := s.oracle.misoDraws + 1 } } := by
  rw [run_succ (n := 1) (step_mcg (State.turn_of_turns ht)), State.turnTaken_of_turns ht]
  have h1 : State.mcgStep { s with oracle := { s.oracle with turns := .mcg :: rest } } =
      { s with mcg := { s.mcg with mosi := s.mcg.osr.getLsbD 31, osr := s.mcg.osr <<< 1, sck := !s.params.sckIdle,
                                   phase1 := .mSample }
               oracle := { s.oracle with turns := .mcg :: rest } } := by
    simp [State.mcgStep, hp, State.mcgShift, State.preMcgShift, he, shiftOutBit, shiftIn_false]
  rw [h1, run_succ (n := 0) (step_mcg (State.turn_of_turns (t := .mcg) (r := rest) (by rfl))),
    State.turnTaken_of_turns (t := .mcg) (r := rest) (by rfl)]
  simp [Host.Core.run, State.mcgStep, State.mcgSample, State.preMcgSample, he, Oracle.misoTaken, Oracle.misoBit]

/-- The last `n + 1` bits of a word: MOSI ends on the last of them, and the levels sampled stand at the bottom of `isr`. -/
theorem run_bits (n : Nat) : ∀ (s : State) (rest : List Turn), s.mcg.en1 = true → s.mcg.phase1 = .mShift →
    s.mcg.bitcnt + (n + 1) = 32 → s.oracle.turns = List.replicate (2 * (n + 1)) Turn.mcg ++ rest →
    ∃ isr : Word32, Host.Core.run Sys2Proof.core (2 * (n + 1)) s = .next { s with
        mcg := { s.mcg with osr := s.mcg.osr <<< (n + 1), isr := isr, bitcnt := 32, phase1 := .mPush, sck := s.params.sckIdle,
                            mosi := s.mcg.osr.getLsbD (31 - n) }
        oracle := { s.oracle with turns := rest, miso := s.oracle.miso.drop (n + 1), misoDraws := s.oracle.misoDraws + (n + 1) } } ∧
      (∀ j ≤ n, isr.getLsbD j = s.oracle.misoBit (n - j)) ∧
      ∀ j, n < j → j < 32 → isr.getLsbD j = s.mcg.isr.getLsbD (j - (n + 1)) := by
  induction n with
  | zero =>
    intro s rest he hp hb ht
    refine ⟨shiftIn s.mcg.isr (s.oracle.misoBit 0), ?_, ?_, ?_⟩
    · rw [run_bit s rest he hp ht]
      simp [show s.mcg.bitcnt = 31 by omega]
    · intro j hj
      rw [getLsbD_shiftIn _ _ _ (by omega)]
      simp [show j = 0 by omega]
    · intro j hj h2
      rw [getLsbD_shiftIn _ _ _ h2, if_neg (by omega)]
  | succ n ih =>
    intro s rest he hp hb ht
    have hr : s.oracle.turns = .mcg :: .mcg :: (List.replicate (2 * (n + 1)) Turn.mcg ++ rest) := by
      rw [ht, show 2 * (n + 1 + 1) = 2 * (n + 1) + 1 + 1 by omega]; rfl
    have h0 := run_bit s _ he hp hr
    rw [if_neg (by omega)] at h0
    obtain ⟨isr, h1, h2, h3⟩ := ih { s with
      mcg := { s.mcg with osr := s.mcg.osr <<< 1, isr := shiftIn s.mcg.isr (s.oracle.misoBit 0), bitcnt := s.mcg.bitcnt + 1,
                          phase1 := .mShift, sck := s.params.sckIdle, mosi := s.mcg.osr.getLsbD 31 }
      oracle := { s.oracle with turns := List.replicate (2 * (n + 1)) Turn.mcg ++ rest, miso := s.oracle.miso.drop 1,
                                misoDraws := s.oracle.misoDraws + 1 } } rest he (by rfl) (by simp only; omega) (by rfl)
    refine ⟨isr, ?_, ?_, ?_⟩
    · rw [show 2 * (n + 1 + 1) = 2 + 2 * (n + 1) by omega, run_add h0, h1]
      have e1 : (s.mcg.osr <<< 1) <<< (n + 1) = s.mcg.osr <<< (n + 1 + 1) := by rw [← BitVec.shiftLeft_add]; congr 1; omega
      have e2 : (s.mcg.osr <<< 1).getLsbD (31 - n) = s.mcg.osr.getLsbD (31 - (n + 1)) := by
        rw [BitVec.getLsbD_shiftLeft, show decide (31 - n < 1) = false by simp; omega,
          show decide (31 - n < 32) = true by simp; omega, show 31 - n - 1 = 31 - (n + 1) by omega]
        simp
      have e3 : 1 + (n + 1) = n + 1 + 1 := by omega
      have e4 : s.oracle.misoDraws + 1 + (n + 1) = s.oracle.misoDraws + (n + 1 + 1) := by omega
      simp only [e1, e2, List.drop_drop, e3, e4]
    · intro j hj
      by_cases hj2 : j ≤ n
      · rw [h2 j hj2]
        simp only [Oracle.misoBit, List.getElem?_drop]
        rw [show 1 + (n - j) = n + 1 - j by omega, show s.oracle.misoDraws + 1 + (n - j) = s.oracle.misoDraws + (n + 1 - j) by omega]
      · obtain rfl : j = n + 1 := by omega
        rw [h3 _ (by omega) (by omega), Nat.sub_self, getLsbD_shiftIn _ _ _ (by omega)]
        simp
    · intro j hj hj2
      rw [h3 _ (by omega) hj2, getLsbD_shiftIn _ _ _ (by omega), if_neg (by omega)]
      congr 1

/-- One word: MCG-LOAD, 32 bits, MCG-PUSH (42_waveform.md R104 to R107). -/
theorem run_word (s : State) (w : Word32) (tx : List Word32) (rest : List Turn) (he : s.mcg.en1 = true) (hp : s.mcg.phase1 = .mLoad)
    (hc : s.cse.csActive = true) (htx : s.mcg.txf = w :: tx) (hd : s.mcg.rxf.length < s.params.wfifoDepth)
    (ht : s.oracle.turns = List.replicate 66 Turn.mcg ++ rest) :
    Host.Core.run Sys2Proof.core 66 s = .next { s with
      mcg := { s.mcg with osr := 0, isr := s.oracle.misoWord 0 32, bitcnt := 32,
                          phase1 := if s.mcg.wordcnt = 0 then .mLoad else .mDone, wordcnt := if s.mcg.wordcnt = 0 then 1 else 0,
                          sck := s.params.sckIdle, mosi := w.getLsbD 0, txf := tx, rxf := s.mcg.rxf ++ [s.oracle.misoWord 0 32] }
      done := if s.mcg.wordcnt = 0 then s.done else true
      oracle := { s.oracle with turns := rest, miso := s.oracle.miso.drop 32, misoDraws := s.oracle.misoDraws + 32 } } := by
  have ht' : s.oracle.turns = .mcg :: (List.replicate 64 Turn.mcg ++ .mcg :: rest) := by rw [ht]; rfl
  have hload : State.mcgStep { s with oracle := { s.oracle with turns := List.replicate 64 Turn.mcg ++ .mcg :: rest } } =
      { s with mcg := { s.mcg with osr := w, txf := tx, bitcnt := 0, phase1 := .mShift }
               oracle := { s.oracle with turns := List.replicate 64 Turn.mcg ++ .mcg :: rest } } := by
    simp [State.mcgStep, hp, State.mcgLoad, State.preMcgLoad, he, hc, htx]
  obtain ⟨isr, h1, h2, -⟩ := run_bits 31 { s with
    mcg := { s.mcg with osr := w, txf := tx, bitcnt := 0, phase1 := .mShift }
    oracle := { s.oracle with turns := List.replicate 64 Turn.mcg ++ .mcg :: rest } } (.mcg :: rest) he (by rfl) (by rfl) (by rfl)
  have hisr : isr = s.oracle.misoWord 0 32 := by
    apply eq_misoWord
    intro j hj
    rw [h2 j (by omega)]
    simp [Oracle.misoBit]
  have hz : w <<< 32 = 0 := by
    apply BitVec.eq_of_getLsbD_eq
    intro i hi
    rw [BitVec.getLsbD_shiftLeft]
    simp [hi]
  rw [run_succ (n := 65) (step_mcg (State.turn_of_turns ht')), State.turnTaken_of_turns ht', hload, show (65 : Nat) = 64 + 1 by rfl,
    run_add (n := 64) (m := 1) h1, run_succ (n := 0) (step_mcg (State.turn_of_turns (t := .mcg) (r := rest) (by rfl))),
    State.turnTaken_of_turns (t := .mcg) (r := rest) (by rfl), hisr]
  by_cases hw : s.mcg.wordcnt = 0 <;>
    simp [Host.Core.run, State.mcgStep, State.mcgPush, State.preMcgPush, he, hd, hw, hz]

end Sys2Proof.Machine
end

