-- ==== Sys2Proof/Tests/Slice0.lean ====
section
/-! SUPPORT. The model's own tests. Expected values are the spec's: the vectors V-D<n> of 95_test_vectors.md, the examples in the
rules, and words written out bit by bit from 30_encoding.md. The `witness_…` theorems give, for each obligation that has
hypotheses, a state and operands that meet them together, clause by clause where there are several. -/

namespace Sys2Proof.Tests

open Sys2Proof Sys2Proof.Machine

/-! ### Helpers -/

/-- The state an outcome gives, if it gives one. -/
def after (o : Host.Outcome State Fault Refusal) : Option State :=
  match o with
  | .next s => some s
  | .fault _ | .refused _ => none

/-- The refusal an outcome ends in, if it does. -/
def refusal (o : Host.Outcome State Fault Refusal) : Option Refusal :=
  match o with
  | .refused r => some r
  | .next _ | .fault _ => none

/-- The last result HOST has had. -/
def answer (o : Host.Outcome State Fault Refusal) : Option Result := (after o).bind fun s => s.host.returned.getLast?

/-- 64 levels of MISO, the most significant bit of `w` first. -/
def levels (w : BitVec 64) : List LineLevel := (List.range 64).map fun k => w.getLsbD (63 - k)

/-- V-D1. -/
def evA : Event := ⟨.input 5, 0x1234, 0xFFFE, 7, 9⟩

/-- V-D20. -/
def evB : Event := ⟨.log, 0x1234, 0xFF9C, 39, 1⟩

/-- Reset with the turns given. -/
def turning (l : List Turn) : State := { State.reset with oracle := { State.reset.oracle with turns := l } }

/-- Reset with the levels of MISO given. -/
def answering (w : BitVec 64) : State := { State.reset with oracle := { State.reset.oracle with miso := levels w } }

/-- Both queues of slot 0 hold four events. -/
def full : State := (State.reset.setQueue 0 .tx [evA, evB, evA, evB]).setQueue 0 .rx [evA, evB, evA, evB]

/-- Reset with MCG stopped: the level chosen is that of transactions, and an XFER still runs as sub-steps (log 1). -/
def stoppedMcg : State := { State.reset with mcg := { State.reset.mcg with en1 := false } }

/-- Reset with CSE stopped. -/
def stoppedCse : State := { State.reset with cse := { State.reset.cse with en0 := false } }

/-- HOST inside XFER at the waveform level, in phase `h`, its turn. -/
def inside (h : HostPhase) : State :=
  { turning [.host] with chosenLevel := .waveform, host := { State.reset.host with hphase := h, hCs := 3, hW0 := 0x01000000, hW1 := 0x39270000 } }

/-- V-D30, after `MCG-LOAD` (row 2): slot 3 selected, the first word loaded, HOST waiting for the first received word. -/
def loaded : State :=
  { inside .hR0 with
    cse := { State.reset.cse with phase0 := .cHold, csActive := true, csIndex := 3, csl := 3 }
    mcg := { State.reset.mcg with phase1 := .mShift, osr := 0x01000000, txf := [0x39270000] }
    oracle := { State.reset.oracle with turns := [.mcg] } }

/-! ### Well-formedness: one ill-formed term for each check -/

theorem test_wf_last_slot : (Instr.slotPoll 31).wellFormed = true := by decide
theorem test_wf_qpush : (Instr.qpush ⟨32, .tx⟩ evA).wellFormed = false := by decide
theorem test_wf_qpop : (Instr.qpop ⟨32, .rx⟩).wellFormed = false := by decide
theorem test_wf_qpeek : (Instr.qpeek ⟨255, .tx⟩).wellFormed = false := by decide
theorem test_wf_qdiscard : (Instr.qdiscard ⟨32, .tx⟩).wellFormed = false := by decide
theorem test_wf_slotPoll : (Instr.slotPoll 32).wellFormed = false := by decide
theorem test_wf_slotSend : (Instr.slotSend 32 evA).wellFormed = false := by decide
theorem test_wf_slotRecv : (Instr.slotRecv 32).wellFormed = false := by decide

/-! ### Decoding: words written out from 30_encoding.md R61, R66, R67 -/

theorem test_decode_evInput : decode .frame [0b10000101#8, 0x12, 0x34, 0xFF, 0xFE, 0x07, 0x09, 0x00] =
    .ok (.evInput 5 ⟨0x1234, 0xFFFE, 7, 9, 0⟩, []) := rfl
theorem test_decode_evOutput : decode .frame [0b00000001#8, 0x00, 0x10, 0x03, 0xE8, 0x02, 0x01, 0x00] =
    .ok (.evOutput ⟨0x0010, 1000, 2, 1, 0⟩, []) := rfl
theorem test_decode_evMemWrite : decode .frame [0b00000010#8, 0x01, 0x02, 0x7F, 0xFF, 0xFF, 0xFF, 0x00] =
    .ok (.evMemWrite ⟨0x0102, 32767, 255, 255, 0⟩, []) := rfl
theorem test_decode_evReboot : decode .frame [0b00000011#8, 0, 0, 0, 0, 0, 0, 0] = .ok (.evReboot ⟨0, 0, 0, 0, 0⟩, []) := rfl
theorem test_decode_evSetControllerId : decode .frame [0b00000100#8, 0xFF, 0xFF, 0x80, 0x00, 0x01, 0x02, 0x00] =
    .ok (.evSetControllerId ⟨0xFFFF, 0x8000, 1, 2, 0⟩, []) := rfl
theorem test_decode_evLog : decode .frame [0b00000101#8, 0x12, 0x34, 0xFF, 0x9C, 0x27, 0x01, 0xAB] =
    .ok (.evLog ⟨0x1234, 0xFF9C, 39, 1, 0xAB⟩, []) := rfl
theorem test_decode_evFallback00 : decode .frame [0b00000000#8, 0xAA, 0xBB, 0x80, 0x00, 0x01, 0x02, 0xFF] =
    .ok (.evFallback00 ⟨0xAABB, 0x8000, 1, 2, 0xFF⟩, []) := rfl
theorem test_decode_evFallback06 : decode .frame [0b00000111#8, 0x00, 0x01, 0x00, 0x02, 0x03, 0x04, 0x05] =
    .ok (.evFallback06 1 ⟨1, 2, 3, 4, 5⟩, []) := rfl
theorem test_decode_evFallback08 : decode .frame [0b00001101#8, 0, 1, 0, 2, 3, 4, 5] = .ok (.evFallback08 5 ⟨1, 2, 3, 4, 5⟩, []) := rfl
theorem test_decode_evFallback10 : decode .frame [0b00011001#8, 0, 1, 0, 2, 3, 4, 5] = .ok (.evFallback10 9 ⟨1, 2, 3, 4, 5⟩, []) := rfl
theorem test_decode_evFallback20 : decode .frame [0b00110001#8, 0, 1, 0, 2, 3, 4, 5] = .ok (.evFallback20 17 ⟨1, 2, 3, 4, 5⟩, []) := rfl
theorem test_decode_evFallback40 : decode .frame [0b01111111#8, 0x01, 0x02, 0x03, 0x04, 0x05, 0x06, 0x07] =
    .ok (.evFallback40 63 ⟨0x0102, 0x0304, 5, 6, 7⟩, []) := rfl
/-- Bits 31:5 of the control word are of no effect on the index. -/
theorem test_decode_cswSelect : decode .csw [0xFF#8, 0xFF, 0xFF, 0b11110011] = .ok (.cswSelect 19 0x7FFFFFF, []) := rfl
theorem test_decode_ser : decode .op [1#8, 0, 5, 0x12, 0x34, 0xFF, 0xFE, 7, 9] = .ok (.ser evA, []) := rfl
theorem test_decode_des : decode .op [2#8, 0x01, 0, 0, 0, 0x39, 0x27, 0, 0] = .ok (.des ⟨1, 0, 0, 0, 0x39, 0x27, 0, 0⟩, []) := rfl
theorem test_decode_qpush : decode .op [3#8, 31, 1, 5, 0, 0x12, 0x34, 0xFF, 0x9C, 39, 1] = .ok (.qpush ⟨31, .rx⟩ evB, []) := rfl
theorem test_decode_qpop : decode .op [4#8, 7, 0] = .ok (.qpop ⟨7, .tx⟩, []) := rfl
theorem test_decode_qpeek : decode .op [5#8, 7, 1] = .ok (.qpeek ⟨7, .rx⟩, []) := rfl
theorem test_decode_qdiscard : decode .op [6#8, 7, 0] = .ok (.qdiscard ⟨7, .tx⟩, []) := rfl
theorem test_decode_xfer : decode .op [7#8, 32, 1, 2, 3, 4, 5, 6, 7, 8] = .ok (.xfer 32 ⟨1, 2, 3, 4, 5, 6, 7, 8⟩, []) := rfl
theorem test_decode_slotPoll : decode .op [8#8, 3, 99] = .ok (.slotPoll 3, [99]) := rfl
theorem test_decode_slotSend : decode .op [9#8, 3, 0, 5, 0x12, 0x34, 0xFF, 0xFE, 7, 9] = .ok (.slotSend 3 evA, []) := rfl
theorem test_decode_slotRecv : decode .op [10#8, 9] = .ok (.slotRecv 9, []) := rfl
theorem test_decode_rejects_ordinal : decode .op [11#8, 0] = .error (.unknownOrdinal 11) := rfl
theorem test_decode_rejects_side : decode .op [4#8, 0, 2] = .error (.unknownSide 2) := rfl
theorem test_decode_rejects_type : decode .op [1#8, 6, 0, 0, 0, 0, 0, 0, 0] = .error (.unknownEventType 6) := rfl
theorem test_decode_rejects_subId : decode .op [1#8, 1, 1, 0, 0, 0, 0, 0, 0] = .error (.illegalSubId 1) := rfl
theorem test_decode_rejects_short : decode .frame [1#8, 2, 3] = .error .truncated := rfl
theorem test_decode_rejects_empty : decode .op [] = .error .noBytes := rfl
theorem test_decode_rejects_dw : decode .dw [1#8, 2, 3, 4] = .error .dataWord := rfl
/-- A row's word numbered as the table numbers it: `p[0]` is the most significant byte. -/
theorem test_table_frame : decodeTableWord 64 0x0600000000000000 = some (.evFallback06 0 ⟨0, 0, 0, 0, 0⟩) := by decide
theorem test_table_csw : decodeTableWord 32 0x1F = some (.cswSelect 31 0) := by decide
theorem test_table_op : decodeTableWord 8 9 = some (.slotSend 0 ⟨.input 0, 0, 0, 0, 0⟩) := by decide

/-! ### The codec -/

/-- V-D1. -/
theorem test_ser_input : answer (exec (.ser evA) .reset) = some (.frame ⟨0x85, 0x12, 0x34, 0xFF, 0xFE, 0x07, 0x09, 0x00⟩) := by decide
/-- V-D7: the most negative value. -/
theorem test_ser_negative : serialize ⟨.setControllerId, 0xFFFF, -32768, 1, 2⟩ = ⟨0x04, 0xFF, 0xFF, 0x80, 0x00, 0x01, 0x02, 0x00⟩ := by
  decide
/-- V-D14: the fallback, byte 7 ignored. -/
theorem test_des_fallback : answer (exec (.des ⟨0x00, 0xAA, 0xBB, 0x80, 0x00, 0x01, 0x02, 0xFF⟩) .reset) =
    some (.event ⟨.input 0, 0xAABB, -32768, 1, 2⟩) := by decide
/-- V-D20. -/
theorem test_des_log : deserialize ⟨0x05, 0x12, 0x34, 0xFF, 0x9C, 0x27, 0x01, 0xAB⟩ = evB ∧ evB.valueInt = -100 := by decide

theorem test_evInput : answer (exec (.evInput 5 ⟨0x1234, 0xFFFE, 7, 9, 0⟩) .reset) = some (.event evA) := by decide
theorem test_evOutput : answer (exec (.evOutput ⟨0, 0x39, 39, 0, 0⟩) .reset) = some (.event ⟨.output, 0, 57, 39, 0⟩) := by decide
theorem test_evMemWrite : answer (exec (.evMemWrite ⟨0x0102, 0x7FFF, 255, 255, 0⟩) .reset) =
    some (.event ⟨.memWrite, 0x0102, 32767, 255, 255⟩) := by decide
theorem test_evReboot : answer (exec (.evReboot ⟨0, 0, 0, 0, 0⟩) .reset) = some (.event ⟨.reboot, 0, 0, 0, 0⟩) := by decide
theorem test_evSetControllerId : answer (exec (.evSetControllerId ⟨0xFFFF, 0x8000, 1, 2, 0⟩) .reset) =
    some (.event ⟨.setControllerId, 0xFFFF, -32768, 1, 2⟩) := by decide
theorem test_evLog : answer (exec (.evLog ⟨0x1234, 0xFF9C, 39, 1, 0xAB⟩) .reset) = some (.event evB) := by decide
theorem test_evFallback00 : answer (exec (.evFallback00 ⟨0xAABB, 0x8000, 1, 2, 0xFF⟩) .reset) =
    some (.event ⟨.input 0, 0xAABB, -32768, 1, 2⟩) := by decide
/-- V-D15. -/
theorem test_evFallback06 : answer (exec (.evFallback06 0 ⟨1, 2, 3, 4, 5⟩) .reset) = some (.event ⟨.input 0, 1, 2, 3, 4⟩) := by decide
theorem test_evFallback08 : answer (exec (.evFallback08 7 ⟨1, 2, 3, 4, 5⟩) .reset) = some (.event ⟨.input 0, 1, 2, 3, 4⟩) := by decide
theorem test_evFallback10 : answer (exec (.evFallback10 15 ⟨1, 2, 3, 4, 5⟩) .reset) = some (.event ⟨.input 0, 1, 2, 3, 4⟩) := by decide
theorem test_evFallback20 : answer (exec (.evFallback20 31 ⟨1, 2, 3, 4, 5⟩) .reset) = some (.event ⟨.input 0, 1, 2, 3, 4⟩) := by decide
/-- V-D16. -/
theorem test_evFallback40 : answer (exec (.evFallback40 63 ⟨0x0102, 0x0304, 5, 6, 7⟩) .reset) =
    some (.event ⟨.input 0, 0x0102, 772, 5, 6⟩) := by decide

/-! ### The queues and the slots -/

/-- V-D27. -/
theorem test_qpush_full : answer (exec (.qpush ⟨0, .tx⟩ evA) full) = some (.error .overflow) ∧
    (after (exec (.qpush ⟨0, .tx⟩ evA) full)).map (·.queue 0 .tx) = some [evA, evB, evA, evB] := by decide
/-- V-D26, on a receive queue. -/
theorem test_qpush_appends : (after (exec (.qpush ⟨31, .rx⟩ evB) (State.reset.setQueue 31 .rx [evA]))).map (·.queue 31 .rx) =
    some [evA, evB] := by decide
/-- V-D23. -/
theorem test_qpop_empty : answer (exec (.qpop ⟨5, .tx⟩) .reset) = some .empty := by decide
theorem test_qpop_oldest : answer (exec (.qpop ⟨0, .tx⟩) full) = some (.event evA) ∧
    (after (exec (.qpop ⟨0, .tx⟩) full)).map (·.queue 0 .tx) = some [evB, evA, evB] := by decide
/-- V-D28. -/
theorem test_qpeek_keeps : answer (exec (.qpeek ⟨0, .rx⟩) full) = some (.event evA) ∧
    (after (exec (.qpeek ⟨0, .rx⟩) full)).map (·.slots) = some full.slots := by decide
/-- V-D25. -/
theorem test_qdiscard_empty : answer (exec (.qdiscard ⟨5, .tx⟩) .reset) = some .unit ∧
    (after (exec (.qdiscard ⟨5, .tx⟩) .reset)).map (·.slots) = some State.reset.slots := by decide
theorem test_qdiscard_oldest : (after (exec (.qdiscard ⟨0, .rx⟩) full)).map (·.queue 0 .rx) = some [evB, evA, evB] := by decide
/-- V-D37. -/
theorem test_slotSend_full : answer (exec (.slotSend 0 evA) full) = some (.error .txOverflow) := by decide
theorem test_slotSend_stores : (after (exec (.slotSend 31 evA) .reset)).map (·.queue 31 .tx) = some [evA] := by decide
/-- V-D39. -/
theorem test_slotRecv_none : answer (exec (.slotRecv 9) .reset) = some .noEvent := by decide
theorem test_slotRecv_oldest : answer (exec (.slotRecv 0) full) = some (.event evA) := by decide
/-- V-D36: the ping goes out, the answer is pushed. -/
theorem test_slotPoll_ping : (after (exec (.slotPoll 3) (answering 0x851234FFFE070900))).map (fun s => (s.busLog, s.queue 3 .rx)) =
    some ([⟨3, ⟨0x01, 0, 0, 0, 0x39, 0x27, 0, 0⟩, ⟨0x85, 0x12, 0x34, 0xFF, 0xFE, 0x07, 0x09, 0x00⟩⟩], [evA]) := by
  decide +kernel
/-- V-D38, on slot 0: the transmit event is consumed, the decoded event is lost. -/
theorem test_slotPoll_full : answer (exec (.slotPoll 0) full) = some (.error .rxOverflow) ∧
    (after (exec (.slotPoll 0) full)).map (fun s => (s.queue 0 .tx, s.queue 0 .rx)) =
      some ([evB, evA, evB], [evA, evB, evA, evB]) := ⟨rfl, rfl⟩

/-! ### XFER -/

/-- V-D35. -/
theorem test_xfer_frame : answer (exec (.xfer 7 ⟨0x12, 0x34, 0x56, 0x78, 0x9A, 0xBC, 0xDE, 0xF0⟩) (answering 0x0FEDCBA987654321)) =
    some (.frame ⟨0x0F, 0xED, 0xCB, 0xA9, 0x87, 0x65, 0x43, 0x21⟩) := by decide +kernel
/-- V-D33. -/
theorem test_xfer_above31 : answer (exec (.xfer 32 Frame.zero) .reset) = some (.error (.busError .invalidChipSelect)) := by decide

/-! ### Steps -/

/-- V-D30, row 1: from the idle lines to 00011. -/
theorem test_cswSelect : (after (exec (.cswSelect 3 0) { State.reset with cse := { State.reset.cse with ctlf := [3] } })).map (·.cse) =
    some ⟨.cHold, [], true, true, 3, 0b00011⟩ := by decide
/-- A control word that is not at the head of `ctlf` finds CSE held (log 13). -/
theorem test_cswSelect_held : after (exec (.cswSelect 3 0) State.reset) = some State.reset := rfl
/-- V-D30, row 3. -/
theorem test_shift : (after (step loaded)).map (fun s => (s.mcg.sck, s.mcg.mosi, s.mcg.osr)) = some (true, false, 0x02000000#32) := by
  decide
/-- V-D30, row 66: the last sample of a word. -/
theorem test_sample_last : (after (step { loaded with
      mcg := { loaded.mcg with phase1 := .mSample, bitcnt := 31, isr := 0x42891A7F, sck := true }
      oracle := { loaded.oracle with miso := [true] } })).map (fun s => (s.mcg.isr, s.mcg.phase1, s.mcg.sck)) =
    some (0x851234FF#32, .mPush, false) := by decide
/-- V-D30, row 133: the second word, and the completion signal. -/
theorem test_push_second : (after (step { loaded with
      mcg := { loaded.mcg with phase1 := .mPush, bitcnt := 32, isr := 0xFE070900, wordcnt := 1, txf := [] } })).map
      (fun s => (s.mcg.rxf, s.done, s.mcg.phase1, s.mcg.wordcnt)) = some ([0xFE070900#32], true, .mDone, 0) := by decide
/-- V-D30, row 134. -/
theorem test_release : (after (step { turning [.cse] with done := true, cse := loaded.cse })).map
      (fun s => (s.done, s.cse.csl, s.cse.csActive)) = some (false, 0b11111#5, false) := by decide
theorem test_rearm : (after (step { turning [.mcg] with mcg := { State.reset.mcg with phase1 := .mDone } })).map (·.mcg.phase1) =
    some .mLoad := by decide
/-- R113: the next bit of `s_out` on the leading level of the clock. -/
theorem test_scr_shift : (after (step { turning [.scr] with
      scr := { State.reset.scr with phase2 := .sWaitShift, sOut := [true, false] }
      lines := ⟨false, true, false⟩ })).map (·.scr) = some ⟨.sWaitSample, [false], [], true, true⟩ := by decide
theorem test_env : (after (step (turning [.env .sSel false]))).map (·.lines) = some ⟨false, false, false⟩ := by decide
/-- An ordinal placed where the next step fetches it runs as the first instruction after reset. -/
theorem test_fetch_op : answer (step (State.reset.withFetchWord 8 10)) = some .noEvent := by decide
theorem test_fetch_frame : answer (step (State.reset.withFetchWord 64 0x0300000000000000)) = some (.event ⟨.reboot, 0, 0, 0, 0⟩) := by decide
theorem test_fetch_csw : (after (step (State.reset.withFetchWord 32 0x1F))).map (·.selected) = some (some 31) := by decide
/-- 60_exceptions.md R156: a word channel is no operand of HOST's. -/
theorem test_csw_is_no_call : refusal (step { turning [.host] with host := { State.reset.host with calls := [⟨.csw, [0, 0, 0, 3]⟩] } }) =
    some .wordChannelAccess := by decide
theorem test_undecodable_call : refusal (step { turning [.host] with host := { State.reset.host with calls := [⟨.op, [0]⟩] } }) =
    some (.undecodable (.unknownOrdinal 0)) := by decide
/-- 30_encoding.md R69: TICK is 32 polls in order. -/
theorem test_tick : tickCalls.length = 32 ∧ tickCalls.head? = some ⟨.op, [8, 0]⟩ ∧ tickCalls.getLast? = some ⟨.op, [8, 31]⟩ := by decide

/-! ### Witnesses: the operations -/

theorem witness_outside_xfer : State.reset.host.hphase = .hNone := rfl

theorem witness_SerReturnsTheFrameOfTheEvent : State.reset.host.hphase = .hNone ∧ (evA.eventType = .input 5) := ⟨rfl, rfl⟩
theorem witness_DesReturnsTheEventOfTheFrame : full.host.hphase = .hNone := rfl
theorem witness_EventRowsReturnTheirEvent : full.host.hphase = .hNone := rfl
/-- A full queue, and one with room, at both ends of the slots. -/
theorem witness_QpushAppendsOrOverflows :
    (full.host.hphase = .hNone ∧ (⟨0, .tx⟩ : QueueRef).slot.toNat = (0 : Fin 32).val ∧ (full.queue 0 .tx).length = full.params.qcap) ∧
    (State.reset.host.hphase = .hNone ∧ (⟨31, .rx⟩ : QueueRef).slot.toNat = (31 : Fin 32).val ∧
      (State.reset.queue 31 .rx).length ≠ State.reset.params.qcap) := by decide
/-- An empty queue, and one that holds an element. -/
theorem witness_QpopTakesTheOldest :
    (State.reset.host.hphase = .hNone ∧ (⟨31, .rx⟩ : QueueRef).slot.toNat = (31 : Fin 32).val ∧ State.reset.queue 31 .rx = []) ∧
    (full.host.hphase = .hNone ∧ (⟨0, .tx⟩ : QueueRef).slot.toNat = (0 : Fin 32).val ∧ full.queue 0 .tx = evA :: [evB, evA, evB]) := by
  decide
theorem witness_QpeekReadsTheOldest :
    (State.reset.host.hphase = .hNone ∧ (⟨31, .tx⟩ : QueueRef).slot.toNat = (31 : Fin 32).val ∧ State.reset.queue 31 .tx = []) ∧
    (full.host.hphase = .hNone ∧ (⟨0, .rx⟩ : QueueRef).slot.toNat = (0 : Fin 32).val ∧ full.queue 0 .rx = evA :: [evB, evA, evB]) := by
  decide
theorem witness_QdiscardDropsTheOldest :
    (State.reset.host.hphase = .hNone ∧ (⟨0, .rx⟩ : QueueRef).slot.toNat = (0 : Fin 32).val ∧ State.reset.queue 0 .rx = []) ∧
    (full.host.hphase = .hNone ∧ (⟨0, .rx⟩ : QueueRef).slot.toNat = (0 : Fin 32).val ∧ full.queue 0 .rx = evA :: [evB, evA, evB]) := by
  decide
theorem witness_PeekThenDiscardIsPop : ∃ t u v, exec (.qpeek ⟨0, .tx⟩) full = .next t ∧ exec (.qdiscard ⟨0, .tx⟩) t = .next u ∧
    exec (.qpop ⟨0, .tx⟩) full = .next v := ⟨_, _, _, rfl, rfl, rfl⟩
theorem witness_SlotSendEnqueuesOrOverflows :
    (full.host.hphase = .hNone ∧ (0 : Byte).toNat = (0 : Fin 32).val ∧ (full.queue 0 .tx).length = full.params.qcap) ∧
    (State.reset.host.hphase = .hNone ∧ (31 : Byte).toNat = (31 : Fin 32).val ∧
      (State.reset.queue 31 .tx).length ≠ State.reset.params.qcap) := by decide
theorem witness_SlotRecvDequeuesOrNone :
    (State.reset.host.hphase = .hNone ∧ (31 : Byte).toNat = (31 : Fin 32).val ∧ State.reset.queue 31 .rx = []) ∧
    (full.host.hphase = .hNone ∧ (0 : Byte).toNat = (0 : Fin 32).val ∧ full.queue 0 .rx = evA :: [evB, evA, evB]) := by decide
/-- A bus fault; an invalid frame; a full receive queue; room. -/
theorem witness_SlotPollOutcomesAtTransactionLevel :
    (∃ s : State, (0 : Byte).toNat = (0 : Fin 32).val ∧ s.clean = true ∧ s.level = .transaction ∧ s.busFaultNow = true) ∧
    (∃ s : State, (31 : Byte).toNat = (31 : Fin 32).val ∧ s.clean = true ∧ s.level = .transaction ∧ s.busFaultNow ≠ true ∧
      s.oracle.misoFrame ∈ s.params.invalidFrames) ∧
    (∃ s : State, (0 : Byte).toNat = (0 : Fin 32).val ∧ s.clean = true ∧ s.level = .transaction ∧ s.busFaultNow ≠ true ∧
      s.oracle.misoFrame ∉ s.params.invalidFrames ∧ (s.queue 0 .rx).length = s.params.qcap) ∧
    (∃ s : State, (3 : Byte).toNat = (3 : Fin 32).val ∧ s.clean = true ∧ s.level = .transaction ∧ s.busFaultNow ≠ true ∧
      s.oracle.misoFrame ∉ s.params.invalidFrames ∧ (s.queue 3 .rx).length ≠ s.params.qcap) :=
  ⟨⟨{ State.reset with oracle := { State.reset.oracle with busFault := [true] } }, by decide⟩,
    ⟨{ answering 0 with params := { invalidFrames := [Frame.zero] } }, by decide +kernel⟩,
    ⟨{ full with oracle := (answering 0).oracle }, by decide +kernel⟩, ⟨answering 0, by decide +kernel⟩⟩
theorem witness_SlotPollEntersTransferAtWaveformLevel :
    (31 : Byte).toNat = (31 : Fin 32).val ∧ ({ State.reset with chosenLevel := .waveform } : State).clean = true ∧
    ({ State.reset with chosenLevel := .waveform } : State).level = .waveform ∧ stoppedMcg.clean = true ∧ stoppedMcg.level = .waveform := by
  decide
theorem witness_SlotIndexAbove31IsRefused : State.reset.host.hphase = .hNone ∧ (Instr.slotPoll 32).wellFormed = false ∧
    (Instr.qpush ⟨255, .rx⟩ evA).wellFormed = false := by decide
theorem witness_XferAbove31IsInvalidChipSelect : State.reset.host.hphase = .hNone ∧ 31 < (32 : Byte).toNat ∧ 31 < (255 : Byte).toNat := by
  decide
theorem witness_XferReturnsTheSampledFrame : (31 : Byte).toNat ≤ 31 ∧ State.reset.clean = true ∧ State.reset.level = .transaction := by decide
theorem witness_XferLeavesTheDriverClean : ∃ t, (31 : Byte).toNat ≤ 31 ∧ State.reset.level = .transaction ∧
    exec (.xfer 31 Frame.zero) .reset = .next t := ⟨_, by decide, by decide, rfl⟩
theorem witness_UncleanDriverIsRefused : ({ State.reset with mcg := { State.reset.mcg with rxf := [0] } } : State).host.hphase = .hNone ∧
    ({ State.reset with mcg := { State.reset.mcg with rxf := [0] } } : State).clean = false ∧ (31 : Byte).toNat ≤ 31 := by decide
/-- Each row of the table, with room and without, and both reads. -/
theorem witness_HostSubStepsFollowTheTable :
    (({ State.reset with chosenLevel := .waveform } : State).level = .waveform ∧
      ({ State.reset with chosenLevel := .waveform } : State).clean = true ∧ (31 : Byte).toNat ≤ 31) ∧
    (stoppedMcg.level = .waveform ∧ stoppedMcg.clean = true) ∧
    ((inside .hCtl).turn = .host ∧ (inside .hCtl).host.hphase = .hCtl ∧ (inside .hCtl).cse.ctlf.length < (inside .hCtl).params.wfifoDepth) ∧
    ((inside .hW0).turn = .host ∧ (inside .hW0).host.hphase = .hW0) ∧ ((inside .hW1).turn = .host ∧ (inside .hW1).host.hphase = .hW1) ∧
    ((inside .hR0).turn = .host ∧ (inside .hR0).host.hphase = .hR0 ∧ (inside .hR0).mcg.rxf = []) ∧
    (∃ s : State, s.turn = .host ∧ s.host.hphase = .hR0 ∧ s.mcg.rxf = (7 : Word32) :: []) ∧
    (∃ s : State, s.turn = .host ∧ s.host.hphase = .hR1 ∧ s.host.caller = .xfer ∧ s.busFaultNow = false ∧
      s.mcg.rxf = (7 : Word32) :: []) ∧
    (∃ s : State, s.turn = .host ∧ s.host.hphase = .hR1 ∧ s.host.caller = .xfer ∧ s.busFaultNow = true ∧
      s.mcg.rxf = (7 : Word32) :: []) :=
  ⟨by decide, by decide, by decide, by decide, by decide, by decide,
    ⟨{ inside .hR0 with mcg := { State.reset.mcg with rxf := [7] } }, by decide⟩,
    ⟨{ inside .hR1 with mcg := { State.reset.mcg with rxf := [7] } }, by decide⟩,
    ⟨{ inside .hR1 with
        mcg := { State.reset.mcg with rxf := [7] }
        oracle := { (inside .hR1).oracle with busFault := [true] } }, by decide⟩⟩
/-- A bus fault; an invalid frame; a full receive queue; room. -/
theorem witness_SlotPollEndsWithTheLastRead :
    let s (fault : List Bool) (bad : List Frame) (sl : Vector Slot 32) : State := { inside .hR1 with
      params := { invalidFrames := bad }
      slots := sl
      mcg := { State.reset.mcg with rxf := [7] }
      host := { (inside .hR1).host with caller := .slotPoll 0 }
      oracle := { (inside .hR1).oracle with busFault := fault } }
    let ok (u : State) : Prop := u.turn = .host ∧ u.host.hphase = .hR1 ∧ u.host.caller = .slotPoll 0 ∧ u.mcg.rxf = (7 : Word32) :: []
    let frame : Frame := frameOfWords 0 7
    (ok (s [true] [] full.slots) ∧ (s [true] [] full.slots).busFaultNow = true) ∧
    (ok (s [] [frame] full.slots) ∧ (s [] [frame] full.slots).busFaultNow = false ∧
      frameOfWords (s [] [frame] full.slots).host.hR0 7 ∈ (s [] [frame] full.slots).params.invalidFrames) ∧
    (ok (s [] [] full.slots) ∧ ((s [] [] full.slots).queue 0 .rx).length = (s [] [] full.slots).params.qcap) ∧
    (ok (s [] [] State.reset.slots) ∧
      ((s [] [] State.reset.slots).queue 0 .rx).length ≠ (s [] [] State.reset.slots).params.qcap) := by decide
theorem witness_OperationInsideXferIsRefused : (inside .hR0).host.hphase ≠ .hNone ∧ (Instr.ser evA).format ≠ .csw ∧
    (Instr.slotRecv 0).format ≠ .csw := by decide
/-- At the bound, below it, and with no time-out. -/
theorem witness_TimeoutRaisesBusError :
    let s (n polls : Nat) : State := { inside .hR1 with
      params := { xferTimeout := some n }
      host := { (inside .hR1).host with polls := polls }
      oracle := { State.reset.oracle with turns := [.hostTimeout] } }
    ((s 2 2).turn = .hostTimeout ∧ (s 2 2).params.xferTimeout = some 2 ∧ ((s 2 2).host.hphase = .hR0 ∨ (s 2 2).host.hphase = .hR1) ∧
      2 ≤ (s 2 2).host.polls) ∧
    ((s 2 1).turn = .hostTimeout ∧ (s 2 1).params.xferTimeout = some 2 ∧ (s 2 1).host.polls < 2) ∧
    ((turning [.hostTimeout]).turn = .hostTimeout ∧ (turning [.hostTimeout]).params.xferTimeout = none) := by decide

/-! ### Witnesses: the machines -/

theorem witness_CswSelectDrivesTheLines :
    let s : State := { State.reset with cse := { State.reset.cse with ctlf := [0xFFFFFFF3] } }
    (s.cse.en0 = true ∧ s.cse.phase0 = .cIdle ∧ s.cse.ctlf = cswWord 19 0x7FFFFFF :: []) ∧
      ∃ t, exec (.cswSelect 19 0x7FFFFFF) s = .next t := ⟨by decide, ⟨_, rfl⟩⟩
theorem witness_CseSelectAndReleaseSteps :
    (let s : State := { turning [.cse] with cse := { State.reset.cse with ctlf := [31] } }
     s.turn = .cse ∧ s.cse.en0 = true ∧ s.cse.phase0 = .cIdle ∧ s.cse.ctlf = (31 : Word32) :: []) ∧
    (let s : State := { turning [.cse] with cse := loaded.cse, done := true }
     s.turn = .cse ∧ s.cse.en0 = true ∧ s.cse.phase0 = .cHold ∧ s.done = true) := by decide
theorem witness_McgLoadAndRearmSteps :
    (let s : State := { turning [.mcg] with cse := loaded.cse, mcg := { State.reset.mcg with txf := [5] } }
     s.turn = .mcg ∧ s.mcg.en1 = true ∧ s.mcg.phase1 = .mLoad ∧ s.cse.csActive = true ∧ s.mcg.txf = (5 : Word32) :: []) ∧
    ((turning [.mcg]).turn = .mcg ∧ (turning [.mcg]).mcg.en1 = true ∧ (turning [.mcg]).mcg.phase1 = .mLoad ∧
      ((turning [.mcg]).cse.csActive = false ∨ (turning [.mcg]).mcg.txf = [])) ∧
    (let s : State := { turning [.mcg] with mcg := { State.reset.mcg with phase1 := .mDone } }
     s.turn = .mcg ∧ s.mcg.en1 = true ∧ s.mcg.phase1 = .mDone) := by decide
theorem witness_McgShiftAndSampleSteps : (loaded.turn = .mcg ∧ loaded.mcg.en1 = true ∧ loaded.mcg.phase1 = .mShift) ∧
    (let s (n : Nat) : State := { loaded with mcg := { loaded.mcg with phase1 := .mSample, bitcnt := n } }
     (s 0).turn = .mcg ∧ (s 0).mcg.en1 = true ∧ (s 0).mcg.phase1 = .mSample ∧ (s 31).mcg.phase1 = .mSample ∧
      (s 31).mcg.bitcnt + 1 = 32) := by decide
/-- With room for the word, and without. -/
theorem witness_McgPushStep :
    let s (l : List Word32) : State := { loaded with mcg := { loaded.mcg with phase1 := .mPush, rxf := l } }
    ((s []).turn = .mcg ∧ (s []).mcg.en1 = true ∧ (s []).mcg.phase1 = .mPush ∧ (s []).mcg.rxf.length < (s []).params.wfifoDepth) ∧
    ((s [1, 2, 3, 4]).mcg.phase1 = .mPush ∧ ¬ (s [1, 2, 3, 4]).mcg.rxf.length < (s [1, 2, 3, 4]).params.wfifoDepth) := by decide
theorem witness_ScrStepsFollowTheExternalMaster :
    let s (p : ScrPhase) (o : List LineLevel) (sel sck : LineLevel) : State :=
      { turning [.scr] with scr := { State.reset.scr with phase2 := p, sOut := o }, lines := ⟨sel, sck, true⟩ }
    let a := s .sIdle [] false false
    let b := s .sWaitShift [true] false true
    let c := s .sWaitShift [] false true
    let d := s .sWaitSample [] false false
    let e := s .sWaitSample [] true false
    (a.turn = .scr ∧ a.scr.en2 = true ∧ a.scr.phase2 = .sIdle ∧ a.lines.sSel = a.params.sSelActive) ∧
    (b.turn = .scr ∧ b.scr.en2 = true ∧ b.scr.phase2 = .sWaitShift ∧ b.lines.sSel = b.params.sSelActive ∧
      b.lines.sSck = !b.params.sckIdle ∧ b.scr.sOut = true :: []) ∧
    (c.scr.phase2 = .sWaitShift ∧ c.lines.sSel = c.params.sSelActive ∧ c.lines.sSck = !c.params.sckIdle ∧ c.scr.sOut = []) ∧
    (d.scr.phase2 = .sWaitSample ∧ d.lines.sSel = d.params.sSelActive ∧ d.lines.sSck = d.params.sckIdle) ∧
    (e.scr.phase2 ≠ .sIdle ∧ e.lines.sSel ≠ e.params.sSelActive) := by decide
theorem witness_EnvSetsOneLine : (turning [.env .sSel true]).turn = .env .sSel true ∧ (turning [.env .sSck true]).turn = .env .sSck true ∧
    (turning [.env .sDin false]).turn = .env .sDin false := by decide
/-- Stopped, and waiting in every phase that waits, for each machine. -/
theorem witness_HeldMachineChangesNothing :
    (let c (e : Bool) (p : CsePhase) : State := { turning [.cse] with cse := { State.reset.cse with en0 := e, phase0 := p } }
     ((c false .cIdle).turn = .cse ∧ (c false .cIdle).cse.en0 = false) ∧
     ((c true .cIdle).turn = .cse ∧ (c true .cIdle).cse.phase0 = .cIdle ∧ (c true .cIdle).cse.ctlf = []) ∧
     ((c true .cHold).turn = .cse ∧ (c true .cHold).cse.phase0 = .cHold ∧ (c true .cHold).done = false)) ∧
    (let m (e : Bool) (p : McgPhase) (rx : List Word32) (d : Bool) : State :=
      { turning [.mcg] with mcg := { State.reset.mcg with en1 := e, phase1 := p, rxf := rx }, done := d }
     ((m false .mShift [] false).turn = .mcg ∧ (m false .mShift [] false).mcg.en1 = false) ∧
     ((m true .mLoad [] false).turn = .mcg ∧ (m true .mLoad [] false).mcg.phase1 = .mLoad ∧
      ((m true .mLoad [] false).cse.csActive = false ∨ (m true .mLoad [] false).mcg.txf = [])) ∧
     ((m true .mPush [1, 2, 3, 4] false).turn = .mcg ∧ (m true .mPush [1, 2, 3, 4] false).mcg.phase1 = .mPush ∧
      (m true .mPush [1, 2, 3, 4] false).params.wfifoDepth ≤ (m true .mPush [1, 2, 3, 4] false).mcg.rxf.length) ∧
     ((m true .mDone [] true).turn = .mcg ∧ (m true .mDone [] true).mcg.phase1 = .mDone ∧ (m true .mDone [] true).done = true)) ∧
    (let r (e : Bool) (p : ScrPhase) (sel sck : LineLevel) : State :=
      { turning [.scr] with scr := { State.reset.scr with en2 := e, phase2 := p }, lines := ⟨sel, sck, false⟩ }
     ((r false .sIdle false false).turn = .scr ∧ (r false .sIdle false false).scr.en2 = false) ∧
     ((r true .sIdle true false).turn = .scr ∧ (r true .sIdle true false).scr.phase2 = .sIdle ∧
      (r true .sIdle true false).lines.sSel ≠ (r true .sIdle true false).params.sSelActive) ∧
     ((r true .sWaitShift false false).turn = .scr ∧ (r true .sWaitShift false false).scr.phase2 = .sWaitShift ∧
      (r true .sWaitShift false false).lines.sSel = (r true .sWaitShift false false).params.sSelActive ∧
      (r true .sWaitShift false false).lines.sSck = (r true .sWaitShift false false).params.sckIdle) ∧
     ((r true .sWaitSample false true).turn = .scr ∧ (r true .sWaitSample false true).scr.phase2 = .sWaitSample ∧
      (r true .sWaitSample false true).lines.sSel = (r true .sWaitSample false true).params.sSelActive ∧
      (r true .sWaitSample false true).lines.sSck = !(r true .sWaitSample false true).params.sckIdle)) := by decide
/-- The turn of every agent; for HOST inside XFER, at the entry at the waveform level, and at its time-out. -/
theorem witness_AgentsWriteOnlyTheirOwnState :
    (∃ t, step (turning [.cse]) = .next t) ∧ (∃ t, step (turning [.mcg]) = .next t) ∧ (∃ t, step (turning [.scr]) = .next t) ∧
    (∃ t, step (turning [.env .sDin true]) = .next t) ∧ (∃ t, step (turning [.host]) = .next t) ∧
    ((inside .hW0).turn = .host ∧ (inside .hW0).level = .waveform ∧ ∃ t, step (inside .hW0) = .next t) ∧
    (stoppedMcg.level = .waveform ∧ ∃ t, step (stoppedMcg.withFetchWord 8 7) = .next t) ∧
    (∃ t, step (turning [.hostTimeout]) = .next t) :=
  ⟨⟨_, rfl⟩, ⟨_, rfl⟩, ⟨_, rfl⟩, ⟨_, rfl⟩, ⟨_, rfl⟩, ⟨rfl, rfl, ⟨_, rfl⟩⟩, ⟨rfl, ⟨_, rfl⟩⟩, ⟨_, rfl⟩⟩

/-! ### Witnesses: steps and frames -/

/-- An operation, a frame, a control word at the head of `ctlf`; as calls, a control word, a data word and bytes that are no
instruction. -/
theorem witness_StepRunsTheDecodedInstruction :
    let s (c : Call) : State := { turning [.host] with host := { State.reset.host with calls := [c] } }
    let a : Call := ⟨.op, [10, 9]⟩
    let b : Call := ⟨.frame, [3, 0, 0, 0, 0, 0, 0, 0]⟩
    let w : State := { turning [.cse] with cse := { State.reset.cse with ctlf := [31] } }
    ((s a).turn = .host ∧ (s a).host.hphase = .hNone ∧ (s a).host.calls = a :: [] ∧ (a.format = .op ∨ a.format = .frame) ∧
      decode a.format a.bytes = .ok (.slotRecv 9, [])) ∧
    ((s b).turn = .host ∧ (s b).host.hphase = .hNone ∧ (s b).host.calls = b :: [] ∧ (b.format = .op ∨ b.format = .frame) ∧
      decode b.format b.bytes = .ok (.evReboot ⟨0, 0, 0, 0, 0⟩, [])) ∧
    (w.turn = .cse ∧ w.cse.en0 = true ∧ w.cse.phase0 = .cIdle ∧ w.cse.ctlf = (31 : Word32) :: []) ∧
    (∀ c ∈ [(⟨.csw, [0, 0, 0, 3]⟩ : Call), ⟨.dw, [1, 2, 3, 4]⟩], (s c).turn = .host ∧ (s c).host.hphase = .hNone ∧
      (s c).host.calls = c :: [] ∧ (c.format = .csw ∨ c.format = .dw)) ∧
    decode .op [0#8] = .error (.unknownOrdinal 0) ∧ decode .frame [1#8, 2, 3] = .error .truncated :=
  ⟨⟨rfl, rfl, rfl, .inl rfl, rfl⟩, ⟨rfl, rfl, rfl, .inr rfl, rfl⟩, ⟨rfl, rfl, rfl, rfl⟩, by decide, rfl, rfl⟩
theorem witness_CodecOperationsOnlyReturn : (∃ t, exec (.ser evA) .reset = .next t) ∧ (∃ t, exec (.des Frame.zero) .reset = .next t) ∧
    (Instr.evReboot ⟨0, 0, 0, 0, 0⟩).format = .frame ∧ (∃ t, exec (.evReboot ⟨0, 0, 0, 0, 0⟩) .reset = .next t) :=
  ⟨⟨_, rfl⟩, ⟨_, rfl⟩, rfl, ⟨_, rfl⟩⟩
theorem witness_QueueAndSlotOperationsFrame : (∃ t, exec (.qpush ⟨31, .tx⟩ evA) .reset = .next t) ∧
    (∃ t, exec (.qpop ⟨0, .tx⟩) full = .next t) ∧ (∃ t, exec (.qpeek ⟨0, .tx⟩) full = .next t) ∧
    (∃ t, exec (.qdiscard ⟨0, .rx⟩) full = .next t) ∧ (∃ t, exec (.slotSend 31 evA) .reset = .next t) ∧
    (∃ t, exec (.slotRecv 0) full = .next t) := ⟨⟨_, rfl⟩, ⟨_, rfl⟩, ⟨_, rfl⟩, ⟨_, rfl⟩, ⟨_, rfl⟩, ⟨_, rfl⟩⟩
/-- At both levels. -/
theorem witness_TransferFrame : (∃ t, exec (.xfer 31 Frame.zero) .reset = .next t) ∧ (∃ t, exec (.slotPoll 31) .reset = .next t) ∧
    (∃ t, exec (.slotPoll 0) { full with chosenLevel := .waveform } = .next t) := ⟨⟨_, rfl⟩, ⟨_, rfl⟩, ⟨_, rfl⟩⟩

/-! ### Witnesses: invariants -/

theorem loaded_driver : loaded.DriverInv where
  select := .inr ⟨rfl, rfl, rfl⟩
  clock := rfl
  bitcnt := by show 0 < 32; decide
  wordcnt := by decide
  completion := by decide
  active := by decide

theorem loaded_transfer : loaded.TransferInv where
  driver := loaded_driver
  idle := by intro h; cases h
  stage := fun _ => .inr (.inl ⟨rfl, rfl, rfl, by decide, rfl⟩)
  pending := rfl
  loaded := by decide
  wordcnt := rfl
  data := rfl

theorem reset_driver : State.reset.DriverInv where
  select := .inl ⟨rfl, rfl, rfl⟩
  clock := rfl
  bitcnt := by show 0 ≤ 32; decide
  wordcnt := by decide
  completion := by decide
  active := by decide

theorem reset_transfer : State.reset.TransferInv where
  driver := reset_driver
  idle := fun _ => ⟨rfl, .inl rfl, .inl rfl⟩
  stage := by intro h; cases h
  pending := rfl
  loaded := by decide
  wordcnt := rfl
  data := trivial

theorem witness_StepKeepsQueuesAndChannels : full.SlotsInv ∧ full.ChannelInv ∧ ∃ t, step { full with oracle := (turning [.host]).oracle } =
    .next t := ⟨⟨by decide, by decide, by decide⟩, ⟨by decide, by decide, by decide⟩, ⟨_, rfl⟩⟩
theorem witness_StepKeepsDriver : loaded.DriverInv ∧ ∃ t, step loaded = .next t := ⟨loaded_driver, ⟨_, rfl⟩⟩
theorem witness_StepKeepsParametersAndRunBits : ∃ t, step loaded = .next t := ⟨_, rfl⟩
/-- At the transaction level, the turn of an agent that steps. -/
theorem witness_TransactionLevelKeepsHostOutsideXfer : State.reset.LevelInv ∧ (turning [.host]).LevelInv ∧
    (turning [.host]).level = .transaction ∧ ∃ t, step (turning [.host]) = .next t := ⟨fun _ => rfl, fun _ => rfl, rfl, ⟨_, rfl⟩⟩
theorem witness_StepKeepsTransfer : loaded.params.xferTimeout = none ∧ loaded.TransferInv ∧ ∃ t, step loaded = .next t :=
  ⟨rfl, loaded_transfer, ⟨_, rfl⟩⟩
theorem witness_DriverIsCleanOutsideXfer : State.reset.TransferInv ∧ State.reset.host.hphase = .hNone ∧
    exec (.slotPoll 32) State.reset = .refused .slotIndexAbove31 := ⟨reset_transfer, rfl, rfl⟩
theorem witness_SelectLinesHoldDuringTransaction : loaded.cse.phase0 = .cHold ∧ loaded.done = false ∧ ∃ t, step loaded = .next t :=
  ⟨rfl, rfl, ⟨_, rfl⟩⟩
/-- The one freedom: a new control word waits, MCG has not re-armed. -/
theorem witness_OneMachineEnabledAtATime :
    let s : State := { State.reset with cse := { State.reset.cse with ctlf := [5] }, mcg := { State.reset.mcg with phase1 := .mDone } }
    s.DriverInv ∧ (s.preCseSelect || s.preCseRelease) = true ∧
      (s.preMcgLoad || s.preMcgShift || s.preMcgSample || s.preMcgPush || s.preMcgRearm) = true :=
  ⟨⟨.inl ⟨rfl, rfl, rfl⟩, rfl, by show 0 ≤ 32; decide, by decide, by decide, by decide⟩, by decide, by decide⟩
theorem witness_FinishedRunStaysFinished : State.reset.RunOver ∧ (turning [.host]).RunOver ∧ (turning [.host]).turn = .host :=
  ⟨⟨rfl, rfl, ⟨rfl, rfl, rfl, rfl, rfl, rfl⟩⟩, ⟨rfl, rfl, ⟨rfl, rfl, rfl, rfl, rfl, rfl⟩⟩, rfl⟩
theorem witness_BitOrderOfAFrame : (31 : Nat) < 32 := by decide
theorem witness_ShiftEdgeSendsTheBitOfItsBitTime : loaded.TransferInv ∧ loaded.turn = .mcg ∧ loaded.mcg.en1 = true ∧
    loaded.mcg.phase1 = .mShift := ⟨loaded_transfer, rfl, rfl, rfl⟩

/-- V-D30, before HOST's last read: 64 levels of zero were drawn, HOST has the first word, the second waits; `fault` is what the
`bus_fault` oracle answers. -/
def lastRead (fault : Bool) : State :=
  { inside .hR1 with
    cse := { State.reset.cse with phase0 := .cHold, csActive := true, csIndex := 3, csl := 3 }
    mcg := { State.reset.mcg with phase1 := .mDone, bitcnt := 32, rxf := [0] }
    done := true
    oracle := { (answering 0).oracle.misoTaken 64 with turns := [.host], busFault := [fault] } }

theorem lastRead_transfer (fault : Bool) : (lastRead fault).TransferInv where
  driver := ⟨.inr ⟨rfl, rfl, rfl⟩, rfl, Nat.le_refl 32, ⟨Nat.zero_le 1, fun _ => rfl⟩, fun _ => ⟨rfl, rfl⟩, fun _ => rfl⟩
  idle := by intro h; cases h
  stage := fun _ => .inr (.inr ⟨rfl, rfl, .inr ⟨rfl, rfl⟩, .inr rfl⟩)
  pending := rfl
  loaded := Nat.le_refl 2
  wordcnt := rfl
  data := trivial

theorem lastRead_receive (fault : Bool) : (lastRead fault).ReceiveInv (answering 0).oracle :=
  ⟨fun k => (Oracle.misoTaken_misoBit (answering 0).oracle 64 k : _), by cases fault <;> decide +kernel, fun h => by cases h⟩

/-- The entry; a step inside XFER; the step that leaves it, with a bus fault and without. -/
theorem witness_ReceivedFrameIsWhatWasSampled : State.reset.clean = true ∧
    (loaded.params.xferTimeout = none ∧ loaded.TransferInv ∧ loaded.ReceiveInv loaded.oracle ∧ loaded.host.hphase ≠ .hNone ∧
      ∃ t, step loaded = .next t) ∧
    (∀ fault, (lastRead fault).params.xferTimeout = none ∧ (lastRead fault).TransferInv ∧
      (lastRead fault).ReceiveInv (answering 0).oracle ∧ (lastRead fault).host.hphase ≠ .hNone ∧
      (lastRead fault).busFaultNow = fault ∧ ∃ t, step (lastRead fault) = .next t) :=
  ⟨by decide,
    ⟨rfl, loaded_transfer, ⟨fun k => (by simp [show loaded.samples = 0 from rfl]), rfl, fun _ j hj => absurd hj (Nat.not_lt_zero j)⟩,
      by decide, ⟨_, rfl⟩⟩,
    fun fault => ⟨rfl, lastRead_transfer fault, lastRead_receive fault, nofun, rfl, ⟨_, rfl⟩⟩⟩

/-- HOST has just entered XFER from reset; in each of the 142 rounds to come HOST, CSE and MCG each take a turn. -/
def fairRounds : List (List Turn) := List.replicate 142 [.mcg, .scr, .host, .cse]
def entered : State := { inside .hCtl with oracle := { State.reset.oracle with turns := fairRounds.flatten } }

theorem entered_transfer : entered.TransferInv where
  driver := ⟨.inl ⟨rfl, rfl, rfl⟩, rfl, by show 0 ≤ 32; decide, by decide, by decide, by decide⟩
  idle := fun _ => ⟨rfl, .inl rfl, .inl rfl⟩
  stage := by intro h; cases h
  pending := rfl
  loaded := by decide
  wordcnt := rfl
  data := trivial

/-- The entry; a step inside XFER, and the last. -/
theorem witness_TransferStepsCountDown : (State.reset.DriverInv ∧ State.reset.clean = true) ∧
    (loaded.machinesRun ∧ loaded.params.xferTimeout = none ∧ 2 ≤ loaded.params.wfifoDepth ∧ loaded.TransferInv ∧
      loaded.host.hphase ≠ .hNone ∧ ∃ t, step loaded = .next t) ∧
    ((lastRead false).machinesRun ∧ (lastRead false).params.xferTimeout = none ∧ 2 ≤ (lastRead false).params.wfifoDepth ∧ (lastRead false).TransferInv ∧
      (lastRead false).host.hphase ≠ .hNone ∧ ∃ t, step (lastRead false) = .next t ∧ t.host.hphase = .hNone) :=
  ⟨⟨reset_driver, by decide⟩, ⟨⟨rfl, rfl⟩, rfl, by decide, loaded_transfer, by decide, ⟨_, rfl⟩⟩,
    ⟨⟨rfl, rfl⟩, rfl, by decide, lastRead_transfer false, by decide, ⟨_, rfl, rfl⟩⟩⟩

theorem witness_XferEndsUnderEveryFairSchedule : entered.machinesRun ∧ entered.params.xferTimeout = none ∧
    2 ≤ entered.params.wfifoDepth ∧ entered.TransferInv ∧ entered.ReceiveInv entered.oracle ∧ entered.host.hphase ≠ .hNone ∧
    entered.oracle.turns = fairRounds.flatten ++ [] ∧ entered.stepsLeft ≤ fairRounds.length ∧
    (∀ r ∈ fairRounds, .host ∈ r ∧ .cse ∈ r ∧ .mcg ∈ r) :=
  ⟨⟨rfl, rfl⟩, rfl, by decide, entered_transfer,
    ⟨fun k => (by simp [show entered.samples = 0 from rfl]), rfl, fun h => by cases h⟩, by decide,
    (List.append_nil _).symm, by rw [fairRounds, List.length_replicate]; decide,
    fun r h => by rw [List.eq_of_mem_replicate h]; decide⟩

/-- Each machine stopped before the call; inside XFER with MCG stopped, with CSE stopped, and with its release for ever pending. -/
theorem witness_StoppedMachineHangsXfer :
    (stoppedMcg.DriverInv ∧ stoppedMcg.clean = true ∧ stoppedMcg.params.xferTimeout = none ∧ ¬ stoppedMcg.machinesRun) ∧
    (stoppedCse.DriverInv ∧ stoppedCse.clean = true ∧ stoppedCse.params.xferTimeout = none ∧ ¬ stoppedCse.machinesRun) ∧
    ({ inside .hR0 with mcg := stoppedMcg.mcg } : State).Stalled ∧ ({ inside .hCtl with cse := stoppedCse.cse } : State).Stalled ∧
    ({ inside .hR0 with
        cse := { loaded.cse with en0 := false }, mcg := { State.reset.mcg with phase1 := .mDone }, done := true } : State).Stalled :=
  ⟨⟨⟨.inl ⟨rfl, rfl, rfl⟩, rfl, by show 0 ≤ 32; decide, by decide, by decide, by decide⟩, by decide, rfl, fun h => by cases h.2⟩,
    ⟨⟨.inl ⟨rfl, rfl, rfl⟩, rfl, by show 0 ≤ 32; decide, by decide, by decide, by decide⟩, by decide, rfl, fun h => by cases h.1⟩,
    ⟨rfl, by decide, rfl, .inl rfl⟩, ⟨rfl, by decide, rfl, .inr ⟨rfl, .inl ⟨rfl, .inl rfl⟩⟩⟩,
    ⟨rfl, by decide, rfl, .inr ⟨rfl, .inr ⟨rfl, rfl⟩⟩⟩⟩

/-- The premises of the refinement, for the first XFER after reset to the last slot. -/
theorem witness_WaveformTransferRefinesAtomicTransfer :
    let s : State := { turning (transferTurns ++ [.scr]) with
      chosenLevel := .waveform
      host := { State.reset.host with calls := [⟨.op, encode (.xfer 31 Frame.zero)⟩] } }
    s.DriverInv ∧ s.clean = true ∧ s.machinesRun ∧ s.params.xferTimeout = none ∧ 2 ≤ s.params.wfifoDepth ∧ (31 : Byte).toNat ≤ 31 ∧
      s.level = .waveform ∧ s.host.calls = ⟨.op, encode (.xfer 31 Frame.zero)⟩ :: [] ∧ s.oracle.turns = transferTurns ++ [.scr] :=
  ⟨⟨.inl ⟨rfl, rfl, rfl⟩, rfl, by show 0 ≤ 32; decide, by decide, by decide, by decide⟩, by decide, ⟨rfl, rfl⟩, rfl, by decide, by decide,
    rfl, rfl, rfl⟩

theorem witness_Slot31SelectionDoesNotMoveTheLines :
    let s : State := { State.reset with cse := { State.reset.cse with ctlf := [31] } }
    s.DriverInv ∧ s.preCseSelect = true ∧ s.cse.ctlf.head? = some (cswWord 31 0) ∧ ∃ t, exec (.cswSelect 31 0) s = .next t :=
  ⟨⟨.inl ⟨rfl, rfl, rfl⟩, rfl, by show 0 ≤ 32; decide, by decide, by decide, by decide⟩, by decide, by decide, ⟨_, rfl⟩⟩

theorem witness_EveryFrameMatchesExactlyOneRow : (Instr.evInput 127 ⟨0, 0, 0, 0, 0⟩).format = .frame ∧
    (decodeFrame Frame.zero).format = .frame := by decide
theorem witness_ControlWordCarriesIndexInLowBits : (0 : Byte).toNat ≤ 31 ∧ (31 : Byte).toNat ≤ 31 := by decide

end Sys2Proof.Tests
end

section
/-! The meaning of DES by arithmetic on the bytes of a frame (40_codec.md R81). -/

namespace Sys2Proof.Machine

theorem exec_des_outside_xfer (p : Frame) {s : State} (h : s.host.hphase = .hNone) :
    exec (.des p) s = .next (s.ret (.event (deserialize p))) :=
  State.hostCall_of_free _ h

/-- The top bit of byte 0, the mark of Input, as a bound on the number. -/
theorem getLsbD_seven_eq_decide (b : Byte) : b.getLsbD 7 = decide (0x80 ≤ b.toNat) :=
  (BitVec.msb_eq_getLsbD_last b).symm.trans (BitVec.msb_eq_decide b)

/-- The `sub_id` of an Input's byte 0 is the rest after the mark. -/
theorem extract_subId_of_le {b : Byte} (h : 0x80 ≤ b.toNat) : b.extractLsb' 0 7 = BitVec.ofNat 7 (b.toNat - 0x80) := by
  apply BitVec.eq_of_toNat_eq
  rw [BitVec.extractLsb'_toNat, BitVec.toNat_ofNat, Nat.shiftRight_zero]
  omega

theorem desEventType_of_le {b : Byte} (h : 0x80 ≤ b.toNat) : desEventType b = .input (BitVec.ofNat 7 (b.toNat - 0x80)) := by
  rw [desEventType, getLsbD_seven_eq_decide, if_pos (decide_eq_true h), extract_subId_of_le h]

theorem desEventType_of_lt {b : Byte} (h : b.toNat < 0x80) : desEventType b =
    if b.toNat = 1 then .output
    else if b.toNat = 2 then .memWrite
    else if b.toNat = 3 then .reboot
    else if b.toNat = 4 then .setControllerId
    else if b.toNat = 5 then .log
    else .input 0 := by
  have unmarked : ¬ b.getLsbD 7 = true := by rw [getLsbD_seven_eq_decide, decide_eq_true_iff]; omega
  rw [desEventType, if_neg unmarked]
  simp [← BitVec.toNat_inj]

theorem toInt_append_bytes (a b : Byte) : BitVec.toInt (n := 16) (a ++ b) =
    if 256 * a.toNat + b.toNat < 0x8000 then (256 * a.toNat + b.toNat : Int) else 256 * a.toNat + b.toNat - 0x10000 := by
  rw [BitVec.toInt_eq_toNat_cond, toNat_append_bytes]
  split <;> split <;> omega

end Sys2Proof.Machine

namespace Sys2Proof

open Sys2Proof.Machine

/-- Settles O6: outside XFER the answer is `deserialize`, read field by field; the type by whether byte 0 has its top bit. -/
theorem desReturnsTheEventOfTheFrame : Obligations.DesReturnsTheEventOfTheFrame := by
  intro p s free
  refine ⟨deserialize p, exec_des_outside_xfer p free, toNat_append_bytes p.b1 p.b2, toInt_append_bytes p.b3 p.b4, rfl, rfl, ?_⟩
  show desEventType p.b0 = _
  split
  case isTrue marked => exact desEventType_of_le marked
  case isFalse unmarked => exact desEventType_of_lt (Nat.lt_of_not_le unmarked)

end Sys2Proof
end

section
/-! The meanings of QPUSH, QPOP, QPEEK and QDISCARD, by what their queue holds (41_queue.md R90 to R93). -/

namespace Sys2Proof.Machine

/-- Both checks of an operation on a slot pass: HOST is outside XFER and the index names slot `i`. -/
theorem State.hostCall_withSlot {s : State} {n : Byte} {i : Fin 32} (k : Fin 32 → Host.Outcome State Fault Refusal)
    (free : s.host.hphase = .hNone) (hi : n.toNat = i.val) : s.hostCall (withSlot n k) = k i := by
  have below : n.toNat < 32 := hi ▸ i.isLt
  rw [State.hostCall_of_free _ free, withSlot_of_lt k below]
  exact congrArg k (Fin.ext hi)

section

variable {q : QueueRef} {i : Fin 32} {s : State} (free : s.host.hphase = .hNone) (hi : q.slot.toNat = i.val)
include free hi

theorem exec_qpush_outside_xfer (x : Event) : exec (.qpush q x) s = .next (s.qpush i q.side x) :=
  State.hostCall_withSlot _ free hi

theorem exec_qpop_outside_xfer : exec (.qpop q) s = .next (s.qpop i q.side) := State.hostCall_withSlot _ free hi

theorem exec_qpeek_outside_xfer : exec (.qpeek q) s = .next (s.qpeek i q.side) := State.hostCall_withSlot _ free hi

theorem exec_qdiscard_outside_xfer : exec (.qdiscard q) s = .next (s.qdiscard i q.side) :=
  State.hostCall_withSlot _ free hi

end

section

variable {s : State} {i : Fin 32} {d : Side} {x : Event} {rest : List Event}

theorem State.qpush_of_full (x : Event) (full : (s.queue i d).length = s.params.qcap) :
    s.qpush i d x = s.ret (.error .overflow) := by
  rw [State.qpush, queuePush_of_full x full]
  rfl

theorem State.qpush_of_not_full (x : Event) (room : (s.queue i d).length ≠ s.params.qcap) :
    s.qpush i d x = (s.setQueue i d (s.queue i d ++ [x])).ret .ok := by
  rw [State.qpush, queuePush_of_not_full x room]

theorem State.qpop_of_nil (h : s.queue i d = []) : s.qpop i d = s.ret .empty := by
  rw [State.qpop, h]
  rfl

theorem State.qpop_of_cons (h : s.queue i d = x :: rest) : s.qpop i d = (s.setQueue i d rest).ret (.event x) := by
  rw [State.qpop, h]
  rfl

theorem State.qpeek_of_nil (h : s.queue i d = []) : s.qpeek i d = s.ret .empty := by
  rw [State.qpeek, h]
  rfl

theorem State.qpeek_of_cons (h : s.queue i d = x :: rest) : s.qpeek i d = s.ret (.event x) := by
  rw [State.qpeek, h]
  rfl

/-- QDISCARD writes the empty list back to an empty queue, which changes nothing. -/
theorem State.qdiscard_of_nil (h : s.queue i d = []) : s.qdiscard i d = s.ret .unit := by
  have same : s.setQueue i d (queueDiscard (s.queue i d)) = s := by
    calc s.setQueue i d (queueDiscard (s.queue i d))
      _ = s.setQueue i d (s.queue i d) := by rw [h]; rfl
      _ = s := s.setQueue_queue i d
  rw [State.qdiscard, same]

theorem State.qdiscard_of_cons (h : s.queue i d = x :: rest) : s.qdiscard i d = (s.setQueue i d rest).ret .unit := by
  rw [State.qdiscard, h]
  rfl

end

end Sys2Proof.Machine

namespace Sys2Proof

open Sys2Proof.Machine

/-- Settles O10, by whether the queue holds N elements. -/
theorem qpushAppendsOrOverflows : Obligations.QpushAppendsOrOverflows := by
  intro q i x s free hi
  rw [exec_qpush_outside_xfer free hi x]
  split
  case isTrue full => rw [State.qpush_of_full x full]
  case isFalse room => rw [State.qpush_of_not_full x room]

/-- Settles O11, by the items of the queue. -/
theorem qpopTakesTheOldest : Obligations.QpopTakesTheOldest := by
  intro q i s free hi
  rw [exec_qpop_outside_xfer free hi]
  exact ⟨fun empty => congrArg _ (State.qpop_of_nil empty), fun _ _ held => congrArg _ (State.qpop_of_cons held)⟩

/-- Settles O12, by the items of the queue. -/
theorem qpeekReadsTheOldest : Obligations.QpeekReadsTheOldest := by
  intro q i s free hi
  rw [exec_qpeek_outside_xfer free hi]
  exact ⟨fun empty => congrArg _ (State.qpeek_of_nil empty), fun _ _ held => congrArg _ (State.qpeek_of_cons held)⟩

/-- Settles O13, by the items of the queue; on an empty one the write-back leaves the state as it is. -/
theorem qdiscardDropsTheOldest : Obligations.QdiscardDropsTheOldest := by
  intro q i s free hi
  rw [exec_qdiscard_outside_xfer free hi]
  exact ⟨fun empty => congrArg _ (State.qdiscard_of_nil empty), fun _ _ held => congrArg _ (State.qdiscard_of_cons held)⟩

end Sys2Proof
end

section
/-! The meanings of SLOT_SEND and SLOT_RECV, by what their queue holds (44_slot.md R142, R143). -/

namespace Sys2Proof.Machine

section

variable {n : Byte} {i : Fin 32} {s : State} (free : s.host.hphase = .hNone) (hi : n.toNat = i.val)
include free hi

theorem exec_slotSend_outside_xfer (e : Event) : exec (.slotSend n e) s = .next (s.slotSend i e) :=
  State.hostCall_withSlot _ free hi

theorem exec_slotRecv_outside_xfer : exec (.slotRecv n) s = .next (s.slotRecv i) := State.hostCall_withSlot _ free hi

end

section

variable {s : State} {i : Fin 32} {x : Event} {rest : List Event}

theorem State.slotSend_of_full (e : Event) (full : (s.queue i .tx).length = s.params.qcap) :
    s.slotSend i e = s.ret (.error .txOverflow) := by
  rw [State.slotSend, queuePush_of_full e full]
  rfl

theorem State.slotSend_of_not_full (e : Event) (room : (s.queue i .tx).length ≠ s.params.qcap) :
    s.slotSend i e = (s.setQueue i .tx (s.queue i .tx ++ [e])).ret .ok := by
  rw [State.slotSend, queuePush_of_not_full e room]

theorem State.slotRecv_of_nil (h : s.queue i .rx = []) : s.slotRecv i = s.ret .noEvent := by
  rw [State.slotRecv, h]
  rfl

theorem State.slotRecv_of_cons (h : s.queue i .rx = x :: rest) :
    s.slotRecv i = (s.setQueue i .rx rest).ret (.event x) := by
  rw [State.slotRecv, h]
  rfl

end

end Sys2Proof.Machine

namespace Sys2Proof

open Sys2Proof.Machine

/-- Settles O15, by whether the transmit queue holds N elements. -/
theorem slotSendEnqueuesOrOverflows : Obligations.SlotSendEnqueuesOrOverflows := by
  intro n i e s free hi
  rw [exec_slotSend_outside_xfer free hi e]
  split
  case isTrue full => rw [State.slotSend_of_full e full]
  case isFalse room => rw [State.slotSend_of_not_full e room]

/-- Settles O16, by the items of the receive queue. -/
theorem slotRecvDequeuesOrNone : Obligations.SlotRecvDequeuesOrNone := by
  intro n i s free hi
  rw [exec_slotRecv_outside_xfer free hi]
  exact ⟨fun empty => congrArg _ (State.slotRecv_of_nil empty), fun _ _ held => congrArg _ (State.slotRecv_of_cons held)⟩

end Sys2Proof
end

section
/-! Encodings: every row of the FRAME group against its byte 0, and the encoder against the decoder (30_encoding.md R60 to R68). -/

namespace Sys2Proof

open Sys2Proof.Machine

/-! ### A row of the FRAME group from the byte 0 the encoder writes -/

theorem decodeFrame_evInput (s : BitVec 7) (b : Body) : decodeFrame (b.frame (1#1 ++ s)) = .evInput s b := by
  have row : ∀ s : BitVec 7, (1#1 ++ s : Byte) &&& 0x80#8 = 0x80#8 ∧ (1#1 ++ s : Byte).extractLsb' 0 7 = s := by decide
  rw [decodeFrame_frame, if_pos (row s).1, (row s).2]

/-- A byte 0 below 0x80 that is no discriminant of R62 and not zero falls to the rows EV_FALLBACK_06_07 to EV_FALLBACK_40_7F. -/
theorem decodeFrame_fallback {y : Byte} (b : Body) (top : y &&& 0x80#8 ≠ 0x80#8) (low : 5 < y.toNat) : decodeFrame (b.frame y) =
    if y &&& 0xFE#8 = 0x06#8 then .evFallback06 (y.extractLsb' 0 1) b
    else if y &&& 0xF8#8 = 0x08#8 then .evFallback08 (y.extractLsb' 0 3) b
    else if y &&& 0xF0#8 = 0x10#8 then .evFallback10 (y.extractLsb' 0 4) b
    else if y &&& 0xE0#8 = 0x20#8 then .evFallback20 (y.extractLsb' 0 5) b
    else .evFallback40 (y.extractLsb' 0 6) b := by
  have ne (n : Byte) (hn : n.toNat ≤ 5) : y ≠ n := by rintro rfl; omega
  rw [decodeFrame_frame, if_neg top, if_neg (ne 1#8 (by decide)), if_neg (ne 2#8 (by decide)), if_neg (ne 3#8 (by decide)),
    if_neg (ne 4#8 (by decide)), if_neg (ne 5#8 (by decide)), if_neg (ne 0#8 (by decide))]

theorem decodeFrame_evFallback06 (x : BitVec 1) (b : Body) : decodeFrame (b.frame (0b0000011#7 ++ x)) = .evFallback06 x b := by
  have row : ∀ x : BitVec 1, let y : Byte := 0b0000011#7 ++ x
      y &&& 0x80#8 ≠ 0x80#8 ∧ 5 < y.toNat ∧ y &&& 0xFE#8 = 0x06#8 ∧ y.extractLsb' 0 1 = x := by decide
  obtain ⟨top, low, h06, field⟩ := row x
  rw [decodeFrame_fallback b top low, if_pos h06, field]

theorem decodeFrame_evFallback08 (x : BitVec 3) (b : Body) : decodeFrame (b.frame (0b00001#5 ++ x)) = .evFallback08 x b := by
  have row : ∀ x : BitVec 3, let y : Byte := 0b00001#5 ++ x
      y &&& 0x80#8 ≠ 0x80#8 ∧ 5 < y.toNat ∧ y &&& 0xFE#8 ≠ 0x06#8 ∧ y &&& 0xF8#8 = 0x08#8 ∧ y.extractLsb' 0 3 = x := by decide
  obtain ⟨top, low, h06, h08, field⟩ := row x
  rw [decodeFrame_fallback b top low, if_neg h06, if_pos h08, field]

theorem decodeFrame_evFallback10 (x : BitVec 4) (b : Body) : decodeFrame (b.frame (0b0001#4 ++ x)) = .evFallback10 x b := by
  have row : ∀ x : BitVec 4, let y : Byte := 0b0001#4 ++ x
      y &&& 0x80#8 ≠ 0x80#8 ∧ 5 < y.toNat ∧ y &&& 0xFE#8 ≠ 0x06#8 ∧ y &&& 0xF8#8 ≠ 0x08#8 ∧ y &&& 0xF0#8 = 0x10#8 ∧
        y.extractLsb' 0 4 = x := by decide
  obtain ⟨top, low, h06, h08, h10, field⟩ := row x
  rw [decodeFrame_fallback b top low, if_neg h06, if_neg h08, if_pos h10, field]

theorem decodeFrame_evFallback20 (x : BitVec 5) (b : Body) : decodeFrame (b.frame (0b001#3 ++ x)) = .evFallback20 x b := by
  have row : ∀ x : BitVec 5, let y : Byte := 0b001#3 ++ x
      y &&& 0x80#8 ≠ 0x80#8 ∧ 5 < y.toNat ∧ y &&& 0xFE#8 ≠ 0x06#8 ∧ y &&& 0xF8#8 ≠ 0x08#8 ∧ y &&& 0xF0#8 ≠ 0x10#8 ∧
        y &&& 0xE0#8 = 0x20#8 ∧ y.extractLsb' 0 5 = x := by decide
  obtain ⟨top, low, h06, h08, h10, h20, field⟩ := row x
  rw [decodeFrame_fallback b top low, if_neg h06, if_neg h08, if_neg h10, if_pos h20, field]

theorem decodeFrame_evFallback40 (x : BitVec 6) (b : Body) : decodeFrame (b.frame (0b01#2 ++ x)) = .evFallback40 x b := by
  have row : ∀ x : BitVec 6, let y : Byte := 0b01#2 ++ x
      y &&& 0x80#8 ≠ 0x80#8 ∧ 5 < y.toNat ∧ y &&& 0xFE#8 ≠ 0x06#8 ∧ y &&& 0xF8#8 ≠ 0x08#8 ∧ y &&& 0xF0#8 ≠ 0x10#8 ∧
        y &&& 0xE0#8 ≠ 0x20#8 ∧ y.extractLsb' 0 6 = x := by decide
  obtain ⟨top, low, h06, h08, h10, h20, field⟩ := row x
  rw [decodeFrame_fallback b top low, if_neg h06, if_neg h08, if_neg h10, if_neg h20, field]

/-! ### Decoding what the encoder writes -/

/-- A FRAME row is read back from its frame once the decoder names it from that frame. -/
theorem decode_frame_of_row {i : Instr} {p : Frame} (h : decodeFrame p = i) : decode .frame p.bytes = .ok (i, []) := by
  rw [decode_frame_bytes, h]

/-- An operand reader that undoes its writer on every tail does so at the end of the bytes. -/
theorem withOperand_read {α : Type} {mk : α → Instr} {x : Except DecodeError (α × List Byte)} {a : α} (h : x = .ok (a, [])) :
    withOperand mk x = .ok (mk a, []) := by
  rw [h]; rfl

theorem takeXfer_bytes (c : Byte) (p : Frame) : takeXfer (c :: p.bytes) = .ok ((c, p), []) := rfl

theorem takePush_encode (q : QueueRef) (x : Event) : takePush (encodeQueue q ++ encodeEvent x) = .ok ((q, x), []) := by
  have hx := takeEvent_encode x []
  rw [List.append_nil] at hx
  simp only [takePush, takeQueue_encode, hx]

theorem takeSend_encode (i : Byte) (e : Event) : takeSend (i :: encodeEvent e) = .ok ((i, e), []) := by
  have he := takeEvent_encode e []
  rw [List.append_nil] at he
  simp only [takeSend, takeByte, he]

/-- Settles O1, row by row: a FRAME row by its byte 0, the control word by its fields, an operation by its operand readers. -/
theorem decodeOfEncodeIsTheInstruction : Obligations.DecodeOfEncodeIsTheInstruction := by
  intro i
  cases i with
  | evInput s b => exact decode_frame_of_row (decodeFrame_evInput s b)
  | evOutput b => exact decode_frame_of_row (decodeFrame_frame b 0x01)
  | evMemWrite b => exact decode_frame_of_row (decodeFrame_frame b 0x02)
  | evReboot b => exact decode_frame_of_row (decodeFrame_frame b 0x03)
  | evSetControllerId b => exact decode_frame_of_row (decodeFrame_frame b 0x04)
  | evLog b => exact decode_frame_of_row (decodeFrame_frame b 0x05)
  | evFallback00 b => exact decode_frame_of_row (decodeFrame_frame b 0x00)
  | evFallback06 x b => exact decode_frame_of_row (decodeFrame_evFallback06 x b)
  | evFallback08 x b => exact decode_frame_of_row (decodeFrame_evFallback08 x b)
  | evFallback10 x b => exact decode_frame_of_row (decodeFrame_evFallback10 x b)
  | evFallback20 x b => exact decode_frame_of_row (decodeFrame_evFallback20 x b)
  | evFallback40 x b => exact decode_frame_of_row (decodeFrame_evFallback40 x b)
  | cswSelect n u =>
    have word : takeWord (wordBytes (cswWord n u)) = .ok (cswWord n u, []) := takeWord_wordBytes _ []
    exact (withOperand_read word).trans (by rw [decodeCsw_cswWord])
  | ser e => exact withOperand_read (by simpa using takeEvent_encode e [])
  | des p => exact withOperand_read (takeFrame_bytes p [])
  | qpush q x => exact withOperand_read (takePush_encode q x)
  | qpop q => exact withOperand_read (takeQueue_encode q [])
  | qpeek q => exact withOperand_read (takeQueue_encode q [])
  | qdiscard q => exact withOperand_read (takeQueue_encode q [])
  | xfer c p => exact withOperand_read (mk := fun a => .xfer a.1 a.2) (takeXfer_bytes c p)
  | slotPoll n => rfl
  | slotSend n e => exact withOperand_read (takeSend_encode n e)
  | slotRecv n => rfl

/-! ### The rows partition the frames -/

/-- The fixed bits of a row and its field make byte 0 again, for each row with a field (30_encoding.md R67). -/
theorem byte0_of_row (y : Byte) :
    (y &&& 0x80#8 = 0x80#8 → 1#1 ++ y.extractLsb' 0 7 = y) ∧
    (y &&& 0xFE#8 = 0x06#8 → 0b0000011#7 ++ y.extractLsb' 0 1 = y) ∧
    (y &&& 0xF8#8 = 0x08#8 → 0b00001#5 ++ y.extractLsb' 0 3 = y) ∧
    (y &&& 0xF0#8 = 0x10#8 → 0b0001#4 ++ y.extractLsb' 0 4 = y) ∧
    (y &&& 0xE0#8 = 0x20#8 → 0b001#3 ++ y.extractLsb' 0 5 = y) ∧
    (y &&& 0xC0#8 = 0x40#8 → 0b01#2 ++ y.extractLsb' 0 6 = y) := by
  revert y; decide +kernel

/-- What no other row matches is EV_FALLBACK_40_7F's (30_encoding.md R67). -/
theorem byte0_of_last_row (y : Byte) : y &&& 0x80#8 = 0x80#8 ∨ y.toNat ≤ 5 ∨ y &&& 0xFE#8 = 0x06#8 ∨ y &&& 0xF8#8 = 0x08#8 ∨
    y &&& 0xF0#8 = 0x10#8 ∨ y &&& 0xE0#8 = 0x20#8 ∨ y &&& 0xC0#8 = 0x40#8 := by
  revert y; decide +kernel

theorem byte0_le_five (y : Byte) : y.toNat ≤ 5 →
    y = 0x01#8 ∨ y = 0x02#8 ∨ y = 0x03#8 ∨ y = 0x04#8 ∨ y = 0x05#8 ∨ y = 0x00#8 := by
  revert y; decide +kernel

theorem encode_ite {c : Prop} [Decidable c] {i j : Instr} {bs : List Byte} (hi : c → encode i = bs) (hj : ¬ c → encode j = bs) :
    encode (if c then i else j) = bs := by
  split
  case isTrue h => exact hi h
  case isFalse h => exact hj h

/-- The row a frame matches, encoded again, is the frame. -/
theorem encode_decodeFrame (p : Frame) : encode (decodeFrame p) = p.bytes := by
  have b0 {y : Byte} (h : y = p.b0) : (p.body.frame y).bytes = p.bytes := by rw [h, Frame.frame_body]
  obtain ⟨input, f06, f08, f10, f20, f40⟩ := byte0_of_row p.b0
  refine encode_ite (fun h => b0 (input h)) fun h1 => ?_
  refine encode_ite (fun h => b0 h.symm) fun h2 => ?_
  refine encode_ite (fun h => b0 h.symm) fun h3 => ?_
  refine encode_ite (fun h => b0 h.symm) fun h4 => ?_
  refine encode_ite (fun h => b0 h.symm) fun h5 => ?_
  refine encode_ite (fun h => b0 h.symm) fun h6 => ?_
  refine encode_ite (fun h => b0 h.symm) fun h7 => ?_
  refine encode_ite (fun h => b0 (f06 h)) fun h8 => ?_
  refine encode_ite (fun h => b0 (f08 h)) fun h9 => ?_
  refine encode_ite (fun h => b0 (f10 h)) fun h10 => ?_
  refine encode_ite (fun h => b0 (f20 h)) fun h11 => b0 (f40 ?_)
  rcases byte0_of_last_row p.b0 with h | h | h | h | h | h | h
  · exact absurd h h1
  · rcases byte0_le_five _ h with h | h | h | h | h | h
    · exact absurd h h2
    · exact absurd h h3
    · exact absurd h h4
    · exact absurd h h5
    · exact absurd h h6
    · exact absurd h h7
  · exact absurd h h8
  · exact absurd h h9
  · exact absurd h h10
  · exact absurd h h11
  · exact h

/-- Settles O2: the bytes of a FRAME row decode to it alone, and the row of a frame is encoded by the frame. -/
theorem everyFrameMatchesExactlyOneRow : Obligations.EveryFrameMatchesExactlyOneRow := by
  refine fun p => ⟨decodeFrame_format p, fun i hi => ⟨fun same => ?_, ?_⟩⟩
  · have back := decodeOfEncodeIsTheInstruction i
    rw [hi, same, decode_frame_bytes] at back
    simpa using back.symm
  · rintro rfl
    exact encode_decodeFrame p

/-! ### Words written out -/

theorem decode_csw_wordBytes (w : Word32) (rest : List Byte) : decode .csw (wordBytes w ++ rest) = .ok (decodeCsw w, rest) := by
  simp only [decode, takeWord_wordBytes, withOperand]

/-- XFER's control word is its chip-select below 27 zero bits. -/
theorem controlWord_eq_cswWord {c : Byte} (h : c.toNat ≤ 31) : controlWord c = cswWord (c.setWidth 5) 0 := by
  have rest : ∀ c : Byte, c.toNat ≤ 31 → controlWord c = cswWord (c.setWidth 5) 0 := by decide +kernel
  exact rest c h

/-- Settles O3: the reader of a word undoes its writer, and the control word of an index has its upper bits zero. -/
theorem controlWordCarriesIndexInLowBits : Obligations.ControlWordCarriesIndexInLowBits :=
  ⟨decode_csw_wordBytes, fun c hc => by rw [controlWord_eq_cswWord hc, decodeCsw_cswWord]⟩

/-- Settles O4: the decoder run on each of the five words. -/
theorem sampleWordsDecode : Obligations.SampleWordsDecode := ⟨rfl, rfl, rfl, rfl, rfl⟩

end Sys2Proof
end

section
/-! What the turn of each agent can do, said once: HOST's sub-steps, its time-out, CSE-RELEASE, the steps of MCG, SCR and ENV
(42_waveform.md R102 to R117, 43_transfer.md R133, R135). -/

namespace Sys2Proof.Machine

/-! ### HOST -/

/-- What HOST's sub-step can do, by the rows of 43_transfer.md R133. -/
inductive SubStepEffect (s t : State) : Prop where
  | held (h : t = s)
  | poll (empty : s.mcg.rxf = []) (h : t = s.hostPoll)
  | ctl (phase : s.host.hphase = .hCtl) (room : s.cse.ctlf.length < s.params.wfifoDepth)
      (h : t = { s with cse := { s.cse with ctlf := s.cse.ctlf ++ [controlWord s.host.hCs] }, host := { s.host with hphase := .hW0 } })
  | w0 (phase : s.host.hphase = .hW0) (room : s.mcg.txf.length < s.params.wfifoDepth)
      (h : t = { s with mcg := { s.mcg with txf := s.mcg.txf ++ [s.host.hW0] }, host := { s.host with hphase := .hW1 } })
  | w1 (phase : s.host.hphase = .hW1) (room : s.mcg.txf.length < s.params.wfifoDepth)
      (h : t = { s with mcg := { s.mcg with txf := s.mcg.txf ++ [s.host.hW1] }, host := { s.host with hphase := .hR0 } })
  | r0 (w : Word32) (rest : List Word32) (phase : s.host.hphase = .hR0) (rxf : s.mcg.rxf = w :: rest)
      (h : t = { s with mcg := { s.mcg with rxf := rest }, host := { s.host with hR0 := w, hphase := .hR1 } })
  /-- The last read, with which HOST leaves XFER. -/
  | r1 (w : Word32) (rest : List Word32) (phase : s.host.hphase = .hR1) (rxf : s.mcg.rxf = w :: rest)
      (h : t = (s.lastWordTaken rest).xferFinish s.host.caller s.host.hCs (frameOfWords s.host.hW0 s.host.hW1)
        (frameOfWords s.host.hR0 w))

theorem hostSubStep_effect (s : State) : SubStepEffect s s.hostSubStep := by
  unfold State.hostSubStep
  cases phase : s.host.hphase with
  | hNone => exact .held rfl
  | hCtl =>
    show SubStepEffect s s.hostCtl
    unfold State.hostCtl
    split
    case isTrue room => exact .ctl phase room rfl
    case isFalse => exact .held rfl
  | hW0 =>
    show SubStepEffect s s.hostW0
    unfold State.hostW0
    split
    case isTrue room => exact .w0 phase room rfl
    case isFalse => exact .held rfl
  | hW1 =>
    show SubStepEffect s s.hostW1
    unfold State.hostW1
    split
    case isTrue room => exact .w1 phase room rfl
    case isFalse => exact .held rfl
  | hR0 =>
    show SubStepEffect s s.hostR0
    unfold State.hostR0
    split
    case h_1 empty => exact .poll empty rfl
    case h_2 w rest rxf => exact .r0 w rest phase rxf rfl
  | hR1 =>
    show SubStepEffect s s.hostR1
    unfold State.hostR1
    split
    case h_1 empty => exact .poll empty rfl
    case h_2 w rest rxf => exact .r1 w rest phase rxf rfl

/-- HOST's time-out: held, or XFER ends with the error (43_transfer.md R135 (b)). -/
theorem hostTimeout_eq (s : State) : s.hostTimeout = s ∨
    (s.mayTimeout = true ∧ s.hostTimeout = s.leaveXfer.ret (.error (.busError .timeout))) := by
  unfold State.hostTimeout
  split
  case isTrue may => exact .inr ⟨may, rfl⟩
  case isFalse => exact .inl rfl

theorem hostTimeout_of_none {s : State} (h : s.params.xferTimeout = none) : s.hostTimeout = s := by
  have no : ¬ s.mayTimeout = true := by simp [State.mayTimeout, h]
  rw [State.hostTimeout, if_neg no]

/-! ### CSE -/

/-- What CSE does on its turn when it does not select (42_waveform.md R103). -/
inductive ReleaseEffect (s t : State) : Prop where
  | held (h : t = s)
  | released (running : s.cse.en0 = true) (phase : s.cse.phase0 = .cHold) (done : s.done = true)
      (h : t = { s with done := false, cse := { s.cse with csl := Config.csIdle, csActive := false, phase0 := .cIdle } })

theorem State.preCseSelect_iff (s : State) :
    s.preCseSelect = true ↔ s.cse.en0 = true ∧ s.cse.phase0 = .cIdle ∧ s.cse.ctlf ≠ [] := by
  simp [State.preCseSelect, and_assoc]

theorem State.preCseRelease_iff (s : State) :
    s.preCseRelease = true ↔ s.cse.en0 = true ∧ s.cse.phase0 = .cHold ∧ s.done = true := by
  simp [State.preCseRelease, and_assoc]

theorem cseRelease_effect (s : State) : ReleaseEffect s s.cseRelease := by
  unfold State.cseRelease
  split
  case isTrue pre =>
    obtain ⟨running, phase, done⟩ := s.preCseRelease_iff.1 pre
    exact .released running phase done rfl
  case isFalse => exact .held rfl

/-- CSE-SELECT on the word at the head of `ctlf` (42_waveform.md R102). -/
theorem exec_decodeCsw {s : State} {w : Word32} {rest : List Word32} (pre : s.preCseSelect = true) (ctlf : s.cse.ctlf = w :: rest) :
    exec (decodeCsw w) s = .next { s with cse := s.cse.select (w.extractLsb' 0 5) } := by
  have head : (s.cse.ctlf.head? == some (cswWord (w.extractLsb' 0 5) (w.extractLsb' 5 27))) = true := by
    simp [ctlf, cswWord_extract]
  show execCswSelect (w.extractLsb' 0 5) (w.extractLsb' 5 27) s = _
  rw [execCswSelect, pre, head]
  rfl

/-! ### MCG -/

/-- What MCG's turn can do, by the steps of 42_waveform.md R104 to R108. -/
inductive McgEffect (s t : State) : Prop where
  | held (h : t = s)
  | load (w : Word32) (rest : List Word32) (phase : s.mcg.phase1 = .mLoad) (active : s.cse.csActive = true)
      (txf : s.mcg.txf = w :: rest)
      (h : t = { s with mcg := { s.mcg with osr := w, txf := rest, bitcnt := 0, phase1 := .mShift } })
  | shift (phase : s.mcg.phase1 = .mShift)
      (h : t = { s with mcg := { s.mcg with
        mosi := s.mcg.osr.getLsbD 31, osr := s.mcg.osr <<< 1, sck := !s.params.sckIdle, phase1 := .mSample } })
  | sample (phase : s.mcg.phase1 = .mSample)
      (h : t = { s with
        mcg := { s.mcg with
          isr := shiftIn s.mcg.isr (s.oracle.misoBit 0), sck := s.params.sckIdle, bitcnt := s.mcg.bitcnt + 1,
          phase1 := if s.mcg.bitcnt + 1 = 32 then .mPush else .mShift }
        oracle := s.oracle.misoTaken 1 })
  | pushFirst (phase : s.mcg.phase1 = .mPush) (room : s.mcg.rxf.length < s.params.wfifoDepth) (wordcnt : s.mcg.wordcnt = 0)
      (h : t = { s with mcg := { s.mcg with rxf := s.mcg.rxf ++ [s.mcg.isr], wordcnt := 1, phase1 := .mLoad } })
  | pushSecond (phase : s.mcg.phase1 = .mPush) (room : s.mcg.rxf.length < s.params.wfifoDepth) (wordcnt : s.mcg.wordcnt ≠ 0)
      (h : t = { s with
        mcg := { s.mcg with rxf := s.mcg.rxf ++ [s.mcg.isr], wordcnt := 0, phase1 := .mDone }, done := true })
  | rearm (phase : s.mcg.phase1 = .mDone) (done : s.done = false) (h : t = { s with mcg := { s.mcg with phase1 := .mLoad } })

theorem State.mcgLoad_of_cons {s : State} {w : Word32} {rest : List Word32} (running : s.mcg.en1 = true) (phase : s.mcg.phase1 = .mLoad)
    (active : s.cse.csActive = true) (txf : s.mcg.txf = w :: rest) :
    s.mcgStep = { s with mcg := { s.mcg with osr := w, txf := rest, bitcnt := 0, phase1 := .mShift } } := by
  simp [State.mcgStep, phase, State.mcgLoad, txf, State.preMcgLoad, running, active]

theorem State.mcgLoad_held {s : State} (phase : s.mcg.phase1 = .mLoad) (h : s.cse.csActive = false ∨ s.mcg.txf = []) :
    s.mcgStep = s := by
  simp only [State.mcgStep, phase, State.mcgLoad]
  split
  case h_1 => rfl
  case h_2 w rest txf =>
    have idle : s.cse.csActive = false := h.resolve_right (by simp [txf])
    simp [State.preMcgLoad, idle]

theorem State.mcgShift_eq {s : State} (running : s.mcg.en1 = true) (phase : s.mcg.phase1 = .mShift) :
    s.mcgStep = { s with mcg := { s.mcg with
      mosi := s.mcg.osr.getLsbD 31, osr := s.mcg.osr <<< 1, sck := !s.params.sckIdle, phase1 := .mSample } } := by
  simp [State.mcgStep, phase, State.mcgShift, State.preMcgShift, running, shiftOutBit, shiftIn_false]

theorem State.mcgSample_eq {s : State} (running : s.mcg.en1 = true) (phase : s.mcg.phase1 = .mSample) :
    s.mcgStep = { s with
      mcg := { s.mcg with
        isr := shiftIn s.mcg.isr (s.oracle.misoBit 0), sck := s.params.sckIdle, bitcnt := s.mcg.bitcnt + 1,
        phase1 := if s.mcg.bitcnt + 1 = 32 then .mPush else .mShift }
      oracle := s.oracle.misoTaken 1 } := by
  simp [State.mcgStep, phase, State.mcgSample, State.preMcgSample, running]

theorem State.mcgPush_eq {s : State} (running : s.mcg.en1 = true) (phase : s.mcg.phase1 = .mPush)
    (room : s.mcg.rxf.length < s.params.wfifoDepth) :
    s.mcgStep = if s.mcg.wordcnt = 0 then
        { s with mcg := { s.mcg with rxf := s.mcg.rxf ++ [s.mcg.isr], wordcnt := 1, phase1 := .mLoad } }
      else
        { s with mcg := { s.mcg with rxf := s.mcg.rxf ++ [s.mcg.isr], wordcnt := 0, phase1 := .mDone }, done := true } := by
  simp [State.mcgStep, phase, State.mcgPush, State.preMcgPush, running, room]

theorem State.mcgPush_held {s : State} (phase : s.mcg.phase1 = .mPush) (full : s.params.wfifoDepth ≤ s.mcg.rxf.length) :
    s.mcgStep = s := by
  simp [State.mcgStep, phase, State.mcgPush, State.preMcgPush, Nat.not_lt.2 full]

theorem State.mcgRearm_eq {s : State} (running : s.mcg.en1 = true) (phase : s.mcg.phase1 = .mDone) (done : s.done = false) :
    s.mcgStep = { s with mcg := { s.mcg with phase1 := .mLoad } } := by
  simp [State.mcgStep, phase, State.mcgRearm, State.preMcgRearm, running, done]

theorem State.mcgRearm_held {s : State} (phase : s.mcg.phase1 = .mDone) (done : s.done = true) : s.mcgStep = s := by
  simp [State.mcgStep, phase, State.mcgRearm, State.preMcgRearm, done]

/-- A stopped MCG is held in every phase (42_waveform.md R100). -/
theorem State.mcgStep_stopped {s : State} (stopped : s.mcg.en1 = false) : s.mcgStep = s := by
  cases phase : s.mcg.phase1 <;> simp only [State.mcgStep, phase]
  case mLoad => unfold State.mcgLoad; split <;> simp [State.preMcgLoad, stopped]
  case mShift => simp [State.mcgShift, State.preMcgShift, stopped]
  case mSample => simp [State.mcgSample, State.preMcgSample, stopped]
  case mPush => simp [State.mcgPush, State.preMcgPush, stopped]
  case mDone => simp [State.mcgRearm, State.preMcgRearm, stopped]

theorem mcgStep_effect (s : State) : McgEffect s s.mcgStep := by
  cases running : s.mcg.en1 with
  | false => exact .held (State.mcgStep_stopped running)
  | true =>
    cases phase : s.mcg.phase1 with
    | mLoad =>
      cases active : s.cse.csActive with
      | false => exact .held (State.mcgLoad_held phase (.inl active))
      | true =>
        cases txf : s.mcg.txf with
        | nil => exact .held (State.mcgLoad_held phase (.inr txf))
        | cons w rest => exact .load w rest phase active txf (State.mcgLoad_of_cons running phase active txf)
    | mShift => exact .shift phase (State.mcgShift_eq running phase)
    | mSample => exact .sample phase (State.mcgSample_eq running phase)
    | mPush =>
      by_cases room : s.mcg.rxf.length < s.params.wfifoDepth
      · have pushed := State.mcgPush_eq running phase room
        by_cases wordcnt : s.mcg.wordcnt = 0
        · exact .pushFirst phase room wordcnt (by rw [pushed, if_pos wordcnt])
        · exact .pushSecond phase room wordcnt (by rw [pushed, if_neg wordcnt])
      · exact .held (State.mcgPush_held phase (Nat.not_lt.1 room))
    | mDone =>
      cases done : s.done with
      | true => exact .held (State.mcgRearm_held phase done)
      | false => exact .rearm phase done (State.mcgRearm_eq running phase done)

/-! ### SCR and ENV -/

/-- `t` differs from `s` in SCR, the input lines, HOST's calls and the oracle's turns and free bits alone: no transfer reads them. -/
structure TransferUntouched (s t : State) : Prop where
  params : t.params = s.params
  chosenLevel : t.chosenLevel = s.chosenLevel
  slots : t.slots = s.slots
  cse : t.cse = s.cse
  mcg : t.mcg = s.mcg
  done : t.done = s.done
  responder : t.scr.en2 = s.scr.en2
  host : t.host = { s.host with calls := t.host.calls }
  busLog : t.busLog = s.busLog
  miso : ∀ k, t.oracle.misoBit k = s.oracle.misoBit k
  busFault : t.busFaultNow = s.busFaultNow

theorem TransferUntouched.rfl (s : State) : TransferUntouched s s := by constructor <;> intros <;> exact .refl _

theorem turnTaken_untouched (s : State) : TransferUntouched s s.turnTaken := by constructor <;> simp

/-- The state in which HOST's call runs: the turn taken, the call removed. -/
theorem callTaken_untouched (s : State) (rest : List Call) :
    TransferUntouched s { s.turnTaken with host := { s.host with calls := rest } } := by
  obtain ⟨params, chosenLevel, slots, cse, mcg, done, responder, -, busLog, miso, busFault⟩ := turnTaken_untouched s
  exact ⟨params, chosenLevel, slots, cse, mcg, done, responder, .refl _, busLog, miso, busFault⟩

theorem scrStep_untouched (s : State) : TransferUntouched s s.scrStep := by
  unfold State.scrStep
  split_ifs
  · constructor <;> intros <;> rfl
  · unfold State.scrShift
    split <;> constructor <;> intros <;> rfl
  · constructor <;> intros <;> rfl
  · constructor <;> intros <;> rfl
  · exact .rfl s

theorem envSet_untouched (s : State) (line : InLine) (v : LineLevel) : TransferUntouched s (s.envSet line v) := by
  cases line <;> constructor <;> intros <;> rfl

section

variable {s t : State} (h : TransferUntouched s t)
include h

theorem TransferUntouched.hphase : t.host.hphase = s.host.hphase := by rw [h.host]
theorem TransferUntouched.hCs : t.host.hCs = s.host.hCs := by rw [h.host]
theorem TransferUntouched.hW0 : t.host.hW0 = s.host.hW0 := by rw [h.host]
theorem TransferUntouched.hW1 : t.host.hW1 = s.host.hW1 := by rw [h.host]
theorem TransferUntouched.hR0 : t.host.hR0 = s.host.hR0 := by rw [h.host]
theorem TransferUntouched.caller : t.host.caller = s.host.caller := by rw [h.host]
theorem TransferUntouched.returned : t.host.returned = s.host.returned := by rw [h.host]

end

/-! ### A step -/

/-- What a step does once the turn, and HOST's call, is taken: the one place where every invariant looks. -/
inductive Transition (s t : State) : Prop where
  /-- A held agent, SCR or ENV. -/
  | silent (h : TransferUntouched s t)
  /-- An operation of HOST's that leaves the driver alone. -/
  | operation (free : s.host.hphase = .hNone) (h : DriverUntouched s t)
  /-- A whole transaction. -/
  | atomic (u : State) (caller : Caller) (c : Byte) (p : Frame) (hu : DriverUntouched s u) (clean : u.clean = true)
      (ha : u.atomicXfer = true) (h : t = u.xferAtomic caller c p)
  /-- The entry of a transfer at the waveform level. -/
  | enter (u : State) (caller : Caller) (c : Byte) (p : Frame) (hu : DriverUntouched s u) (clean : u.clean = true)
      (ha : u.atomicXfer = false) (h : t = u.xferEnter caller c p)
  | subStep (busy : s.host.hphase ≠ .hNone) (h : SubStepEffect s t)
  | timeout (may : s.mayTimeout = true) (h : t = s.leaveXfer.ret (.error (.busError .timeout)))
  | select (w : Word32) (rest : List Word32) (pre : s.preCseSelect = true) (ctlf : s.cse.ctlf = w :: rest)
      (h : t = { s with cse := s.cse.select (w.extractLsb' 0 5) })
  | release (h : ReleaseEffect s t)
  | mcg (running : s.mcg.en1 = true) (h : McgEffect s t)

theorem exec_transition {i : Instr} {s t : State} (h : exec i s = .next t) (op : i.format ≠ .csw) : Transition s t := by
  cases exec_effect h with
  | held n u hi => subst hi; exact absurd rfl op
  | select n u hi => subst hi; exact absurd rfl op
  | host free hu => exact .operation free hu
  | atomic u caller c p hu hc clean ha ht => exact .atomic u caller c p hu clean ha ht
  | enter u caller c p hu hc clean ha ht => exact .enter u caller c p hu clean ha ht

theorem State.preCseSelect_turnTaken (s : State) : s.turnTaken.preCseSelect = s.preCseSelect := by simp [State.preCseSelect]

theorem step_transition {s t : State} (h : step s = .next t) : ∃ u, TransferUntouched s u ∧ Transition u t := by
  have taken := turnTaken_untouched s
  cases step_effect h with
  | call c rest i turn free calls hi h => exact ⟨_, callTaken_untouched s rest, exec_transition h (decodeCall_format hi)⟩
  | idle turn h => subst h; exact ⟨_, taken, .silent (.rfl _)⟩
  | subStep turn busy h => subst h; exact ⟨_, taken, .subStep (taken.hphase ▸ busy) (hostSubStep_effect _)⟩
  | timeout turn h =>
    subst h
    rcases hostTimeout_eq s.turnTaken with same | ⟨may, left⟩
    · rw [same]; exact ⟨_, taken, .silent (.rfl _)⟩
    · exact ⟨_, taken, .timeout may left⟩
  | select w rest turn pre ctlf h =>
    have pre' : s.turnTaken.preCseSelect = true := s.preCseSelect_turnTaken.trans pre
    have ctlf' : s.turnTaken.cse.ctlf = w :: rest := by rw [taken.cse, ctlf]
    rw [exec_decodeCsw pre' ctlf'] at h
    cases h
    exact ⟨_, taken, .select w rest pre' ctlf' rfl⟩
  | release turn pre h => subst h; exact ⟨_, taken, .release (cseRelease_effect _)⟩
  | mcg turn h =>
    subst h
    cases running : s.turnTaken.mcg.en1 with
    | false => exact ⟨_, taken, .silent (by rw [State.mcgStep_stopped running]; exact .rfl _)⟩
    | true => exact ⟨_, taken, .mcg running (mcgStep_effect _)⟩
  | scr turn h => subst h; exact ⟨_, taken, .silent (scrStep_untouched _)⟩
  | env line v turn h => subst h; exact ⟨_, taken, .silent (envSet_untouched _ line v)⟩

end Sys2Proof.Machine
end

section
/-! The invariant of CSE and MCG (10_state.md R16 to R19, 42_waveform.md R109): each transition keeps it. -/

namespace Sys2Proof.Machine

section

variable {s t : State} (inv : s.DriverInv)
include inv

theorem State.DriverInv.silent (h : TransferUntouched s t) : t.DriverInv := inv.congr h.params h.cse h.mcg h.done

theorem State.DriverInv.untouched (h : DriverUntouched s t) : t.DriverInv := inv.congr h.params h.cse h.mcg h.done

/-- The invariant reads no word channel. -/
theorem State.DriverInv.withChannels (ctlf txf rxf : List Word32) :
    { s with cse := { s.cse with ctlf := ctlf }, mcg := { s.mcg with txf := txf, rxf := rxf } : State }.DriverInv := by
  obtain ⟨select, clock, bitcnt, wordcnt, completion, active⟩ := inv
  exact ⟨select, clock, bitcnt, wordcnt, completion, active⟩

/-- The completion signal is down in every phase but M_DONE, and while CSE is idle. -/
theorem State.DriverInv.done_down (h : s.mcg.phase1 ≠ .mDone ∨ s.cse.phase0 ≠ .cHold) : s.done = false := by
  by_contra up
  obtain ⟨phase1, phase0⟩ := inv.completion (by simpa using up)
  exact h.elim (· phase1) (· phase0)

theorem State.DriverInv.phase0_of_active (h : s.cse.csActive = true) : s.cse.phase0 = .cHold := by
  rcases inv.select with ⟨-, idle, -⟩ | ⟨hold, -⟩
  · rw [h] at idle; cases idle
  · exact hold

/-- The clock is at its idle level in every phase but M_SAMPLE (42_waveform.md R109 (a)). -/
theorem State.DriverInv.clock_idle (h : s.mcg.phase1 ≠ .mSample) : s.mcg.sck = s.params.sckIdle := by
  rw [inv.clock, if_neg h]

/-! ### Each step of the machines -/

theorem State.DriverInv.select_csw (pre : s.preCseSelect = true) (n : BitVec 5) :
    { s with cse := s.cse.select n : State }.DriverInv := by
  obtain ⟨-, idle, -⟩ := s.preCseSelect_iff.1 pre
  have down : s.done = false := inv.done_down (.inr (by simp [idle]))
  exact ⟨.inr ⟨rfl, rfl, rfl⟩, inv.clock, inv.bitcnt, inv.wordcnt, fun up => absurd up (by simp [down]), fun _ => rfl⟩

/-- The release comes with MCG in M_DONE, so no word is shifted without a slot selected. -/
theorem State.DriverInv.release_step (h : ReleaseEffect s t) : t.DriverInv := by
  cases h with
  | held h => rwa [h]
  | released running phase done h =>
    subst h
    obtain ⟨mDone, -⟩ := inv.completion done
    have nothing : ¬ (s.mcg.phase1.inWord = true ∨ s.mcg.wordcnt = 1) := by simp [mDone, McgPhase.inWord, inv.wordcnt.2 mDone]
    exact ⟨.inl ⟨rfl, rfl, rfl⟩, inv.clock, inv.bitcnt, inv.wordcnt, fun up => absurd up (by simp), fun word => absurd word nothing⟩

theorem State.DriverInv.mcg_step (h : McgEffect s t) : t.DriverInv := by
  have select := inv.select
  have count := inv.bitcnt
  cases h with
  | held h => rwa [h]
  | load w rest phase active txf h =>
    subst h
    have down := inv.done_down (.inl (by simp [phase]))
    have clock := inv.clock_idle (by simp [phase])
    exact ⟨select, by simpa using clock, by simp [Mcg.BitcntOk], ⟨inv.wordcnt.1, by simp⟩, by simp [down], fun _ => active⟩
  | shift phase h =>
    subst h
    have down := inv.done_down (.inl (by simp [phase]))
    have active := inv.active (.inl (by simp [phase, McgPhase.inWord]))
    have below : s.mcg.bitcnt < 32 := by simpa [Mcg.BitcntOk, phase] using count
    exact ⟨select, by simp, by simpa [Mcg.BitcntOk] using below, ⟨inv.wordcnt.1, by simp⟩, by simp [down], fun _ => active⟩
  | sample phase h =>
    subst h
    have down := inv.done_down (.inl (by simp [phase]))
    have active := inv.active (.inl (by simp [phase, McgPhase.inWord]))
    have below : s.mcg.bitcnt < 32 := by simpa [Mcg.BitcntOk, phase] using count
    by_cases last : s.mcg.bitcnt + 1 = 32
    · simp only [last, if_true]
      exact ⟨select, by simp, by simp [Mcg.BitcntOk], ⟨inv.wordcnt.1, by simp⟩, by simp [down], fun _ => active⟩
    · simp only [last, if_false]
      exact ⟨select, by simp, by simp [Mcg.BitcntOk]; omega, ⟨inv.wordcnt.1, by simp⟩, by simp [down], fun _ => active⟩
  | pushFirst phase room wordcnt h =>
    subst h
    have down := inv.done_down (.inl (by simp [phase]))
    have active := inv.active (.inl (by simp [phase, McgPhase.inWord]))
    have clock := inv.clock_idle (by simp [phase])
    have full : s.mcg.bitcnt = 32 := by simpa [Mcg.BitcntOk, phase] using count
    exact ⟨select, by simpa using clock, by simp [Mcg.BitcntOk, full], by simp, by simp [down], fun _ => active⟩
  | pushSecond phase room wordcnt h =>
    subst h
    have hold := inv.phase0_of_active (inv.active (.inl (by simp [phase, McgPhase.inWord])))
    have clock := inv.clock_idle (by simp [phase])
    have full : s.mcg.bitcnt = 32 := by simpa [Mcg.BitcntOk, phase] using count
    exact ⟨select, by simpa using clock, by simp [Mcg.BitcntOk, full], by simp, fun _ => ⟨rfl, hold⟩, by simp [McgPhase.inWord]⟩
  | rearm phase done h =>
    subst h
    have clock := inv.clock_idle (by simp [phase])
    have full : s.mcg.bitcnt ≤ 32 := by simpa [Mcg.BitcntOk, phase] using count
    have none : s.mcg.wordcnt = 0 := inv.wordcnt.2 phase
    exact ⟨select, by simpa using clock, by simpa [Mcg.BitcntOk] using full, by simp [none], by simp [done],
      by simp [McgPhase.inWord, none]⟩

/-! ### HOST's steps -/

theorem State.DriverInv.xferFinish (caller : Caller) (c : Byte) (p r : Frame) : (s.xferFinish caller c p r).DriverInv := by
  have logged : (s.logTransaction c p r).busFaultTaken.DriverInv := inv.congr rfl rfl rfl rfl
  exact logged.untouched (xferFinish_untouched s caller c p r)

theorem State.DriverInv.subStep (h : SubStepEffect s t) : t.DriverInv := by
  cases h with
  | held h => rwa [h]
  | poll empty h => subst h; exact inv.congr rfl rfl rfl rfl
  | ctl phase room h => subst h; exact (inv.withChannels _ _ _).congr rfl rfl rfl rfl
  | w0 phase room h => subst h; exact (inv.withChannels _ _ _).congr rfl rfl rfl rfl
  | w1 phase room h => subst h; exact (inv.withChannels _ _ _).congr rfl rfl rfl rfl
  | r0 w rest phase rxf h => subst h; exact (inv.withChannels _ _ _).congr rfl rfl rfl rfl
  | r1 w rest phase rxf h =>
    subst h
    have taken : (s.lastWordTaken rest).DriverInv := (inv.withChannels s.cse.ctlf s.mcg.txf rest).congr rfl rfl rfl rfl
    exact taken.xferFinish _ _ _ _

end

/-- A whole transaction leaves CSE and MCG as R130 lists them, whatever they were. -/
theorem driverInv_driverAfterXfer (s : State) (c : Byte) (p : Frame) : (s.driverAfterXfer c p).DriverInv where
  select := .inl ⟨rfl, rfl, rfl⟩
  clock := rfl
  bitcnt := Nat.le_refl 32
  wordcnt := ⟨Nat.zero_le 1, fun _ => rfl⟩
  completion := fun up => by cases up
  active := fun word => by simp [Mcg.afterXfer, McgPhase.inWord] at word

theorem State.DriverInv.transition {s t : State} (inv : s.DriverInv) (h : Transition s t) : t.DriverInv := by
  cases h with
  | silent h => exact inv.silent h
  | operation free h => exact inv.untouched h
  | atomic u caller c p hu clean ha h => subst h; exact (driverInv_driverAfterXfer u c p).xferFinish _ _ _ _
  | enter u caller c p hu clean ha h => subst h; exact (inv.untouched hu).congr rfl rfl rfl rfl
  | subStep busy h => exact inv.subStep h
  | timeout may h => subst h; exact inv.congr rfl rfl rfl rfl
  | select w rest pre ctlf h => subst h; exact inv.select_csw pre _
  | release h => exact inv.release_step h
  | mcg running h => exact inv.mcg_step h

end Sys2Proof.Machine

namespace Sys2Proof

open Sys2Proof.Machine

/-- Settles O45: what a step does once the turn is taken is one transition, and each keeps the invariant. -/
theorem stepKeepsDriver : Obligations.StepKeepsDriver := by
  intro s t inv h
  obtain ⟨u, taken, move⟩ := step_transition h
  exact (inv.silent taken).transition move

end Sys2Proof
end

section
/-! The invariant of the XFER in progress (43_transfer.md R131, R134): each transition keeps it while no time-out is set. -/

namespace Sys2Proof.Machine

/-- A free driver is between two words: MCG in M_LOAD or M_DONE. -/
theorem State.driverFree.not_inWord {s : State} (free : s.driverFree) : s.mcg.phase1.inWord = false := by
  obtain ⟨-, load | done⟩ := free
  · rw [load]; rfl
  · rw [done]; rfl

theorem State.driverFree.sendRegister {s : State} (free : s.driverFree) : s.sendRegister := by
  obtain ⟨-, load | done⟩ := free
  · simp [State.sendRegister, load]
  · simp [State.sendRegister, done]

/-- XFER's control word carries its chip-select in the index (30_encoding.md R66). -/
theorem extract_controlWord (c : Byte) : (controlWord c).extractLsb' 0 5 = c.setWidth 5 :=
  cswWord_eq_controlWord (cswWord_extract (controlWord c))

/-- The bit a shift edge sends: the word has been shifted once for each bit before it. -/
theorem sent_bit (w : Word32) {n : Nat} (h : n < 32) : (w <<< n).getLsbD 31 = w.getLsbD (31 - n) := by
  rw [BitVec.getLsbD_shiftLeft]
  simp [show ¬ 31 < n by omega]

/-! ### What the invariant says of a state -/

section

variable {s : State} (inv : s.TransferInv)
include inv

theorem State.TransferInv.silent {t : State} (h : TransferUntouched s t) : t.TransferInv :=
  inv.congr h.params h.cse h.mcg h.done h.hphase h.hCs h.hW0 h.hW1

/-- A slot is selected for a transaction that is not over: the second stage of the transaction (42_waveform.md R118). -/
theorem State.TransferInv.transacting (active : s.cse.csActive = true) (down : s.done = false) :
    s.host.hphase.controlled = true ∧ s.cse.ctlf = [] ∧ s.cse.phase0 = .cHold ∧ s.cse.csIndex = s.host.hCs.setWidth 5 ∧
      s.delivered < 2 := by
  have hold := inv.driver.phase0_of_active active
  have busy : ¬ s.driverFree := by rintro ⟨idle | ⟨-, done⟩, -⟩ <;> simp_all
  cases controlled : s.host.hphase.controlled with
  | false => exact absurd (inv.idle controlled).2 busy
  | true =>
    rcases inv.stage controlled with ⟨-, -, free⟩ | ⟨ctlf, -, index, few, -⟩ | ⟨-, -, free⟩
    · exact absurd free busy
    · exact ⟨rfl, ctlf, hold, index, few⟩
    · exact absurd free busy

theorem State.TransferInv.transacting_inWord (word : s.mcg.phase1.inWord = true) :
    s.host.hphase.controlled = true ∧ s.cse.ctlf = [] ∧ s.cse.phase0 = .cHold ∧ s.cse.csIndex = s.host.hCs.setWidth 5 ∧
      s.delivered < 2 := by
  have notDone : s.mcg.phase1 ≠ .mDone := by intro h; rw [h] at word; cases word
  exact inv.transacting (inv.driver.active (.inl word)) (inv.driver.done_down (.inl notDone))

/-- At the first push no word is delivered yet, at the second one is (42_waveform.md R107). -/
theorem State.TransferInv.none_delivered (phase : s.mcg.phase1 = .mPush) (wordcnt : s.mcg.wordcnt = 0) : s.delivered = 0 := by
  obtain ⟨-, -, -, -, few⟩ := inv.transacting_inWord (by rw [phase]; rfl)
  have once := inv.wordcnt
  rw [wordcnt] at once
  split at once <;> omega

theorem State.TransferInv.one_delivered (wordcnt : s.mcg.wordcnt ≠ 0) : s.delivered = 1 := by
  have once := inv.wordcnt
  split at once <;> omega

/-- Outside XFER the driver is clean (43_transfer.md R131). -/
theorem State.TransferInv.clean (free : s.host.hphase = .hNone) : s.clean = true := by
  obtain ⟨ctlf, hfree⟩ := inv.idle (by rw [free]; rfl)
  have loaded := inv.loaded
  have pending := inv.pending
  have wordcnt := inv.wordcnt
  rw [free] at loaded pending
  have none : s.delivered = 0 := by simp [HostPhase.written] at loaded; omega
  have rxf : s.mcg.rxf = [] := List.eq_nil_of_length_eq_zero (by unfold State.delivered at none; omega)
  exact s.clean_iff.2 ⟨hfree, by simpa [none] using wordcnt, ctlf, by simpa [HostPhase.written] using pending, rxf, free⟩

end

/-- From a clean driver, HOST in a phase with nothing written or read: outside XFER, or just inside it. -/
theorem State.TransferInv.of_clean {s : State} (driver : s.DriverInv) (free : s.driverFree) (wordcnt : s.mcg.wordcnt = 0)
    (ctlf : s.cse.ctlf = []) (txf : s.mcg.txf = []) (rxf : s.mcg.rxf = []) (phase : s.host.hphase = .hNone ∨ s.host.hphase = .hCtl) :
    s.TransferInv := by
  have outside : s.host.hphase.controlled = false ∧ s.host.hphase.written = 0 ∧ s.host.hphase.read = 0 := by
    rcases phase with h | h <;> rw [h] <;> exact ⟨rfl, rfl, rfl⟩
  obtain ⟨controlled, written, read⟩ := outside
  have delivered : s.delivered = 0 := by simp [State.delivered, rxf, read]
  exact {
    driver := driver
    idle := fun _ => ⟨ctlf, free⟩
    stage := fun h => by rw [controlled] at h; cases h
    pending := by simp [written, txf]
    loaded := by simp [delivered, free.not_inWord]
    wordcnt := by rw [wordcnt, delivered]; rfl
    data := free.sendRegister }

/-! ### HOST's sub-steps -/

section

variable {s t : State} (inv : s.TransferInv)
include inv

theorem State.TransferInv.ctl (phase : s.host.hphase = .hCtl) : { s with
    cse := { s.cse with ctlf := s.cse.ctlf ++ [controlWord s.host.hCs] }, host := { s.host with hphase := .hW0 } : State }.TransferInv := by
  obtain ⟨ctlf, free⟩ := inv.idle (by rw [phase]; rfl)
  have loaded := inv.loaded
  have pending := inv.pending
  have wordcnt := inv.wordcnt
  rw [phase] at loaded pending
  have none : s.delivered = 0 := by simp [HostPhase.written] at loaded; omega
  have rxf : s.mcg.rxf = [] := List.eq_nil_of_length_eq_zero (by unfold State.delivered at none; omega)
  refine ⟨(inv.driver.withChannels _ _ _).congr rfl rfl rfl rfl, (by simp [HostPhase.controlled]), fun _ => .inl ⟨?_, ?_, free⟩,
    ?_, ?_, ?_, State.driverFree.sendRegister free⟩
  · simp [ctlf]
  · simp [State.delivered, rxf, HostPhase.read]
  · simpa [HostPhase.written] using pending
  · simp [State.delivered, rxf, HostPhase.read, free.not_inWord]
  · rw [none] at wordcnt
    simpa [State.delivered, rxf, HostPhase.read] using wordcnt

/-- The invariant reads HOST's position only by what is controlled, written and read, and by what is delivered. -/
theorem State.TransferInv.advance {txf rxf : List Word32} {phase : HostPhase} {r0 : Word32}
    (controlled : phase.controlled = s.host.hphase.controlled) (delivered : rxf.length + phase.read = s.delivered)
    (pending : txf = ([s.host.hW0, s.host.hW1].take phase.written).drop (s.delivered + (if s.mcg.phase1.inWord then 1 else 0)))
    (written : s.host.hphase.written ≤ phase.written) :
    { s with mcg := { s.mcg with txf := txf, rxf := rxf }, host := { s.host with hphase := phase, hR0 := r0 } : State }.TransferInv := by
  have same : { s with
      mcg := { s.mcg with txf := txf, rxf := rxf }, host := { s.host with hphase := phase, hR0 := r0 } : State }.delivered =
        s.delivered := delivered
  refine ⟨(inv.driver.withChannels s.cse.ctlf txf rxf).congr rfl rfl rfl rfl, fun h => inv.idle (controlled ▸ h), fun h => ?_, ?_, ?_,
    ?_, ?_⟩
  · have stage := inv.stage (controlled ▸ h)
    unfold State.transactionStage at stage ⊢
    rw [same]
    exact stage
  · rw [same]; exact pending
  · rw [same]; exact inv.loaded.trans written
  · rw [same]; exact inv.wordcnt
  · have data := inv.data
    unfold State.sendRegister State.currentWord at data ⊢
    rw [same]
    exact data

theorem State.TransferInv.w0 (phase : s.host.hphase = .hW0) : { s with
    mcg := { s.mcg with txf := s.mcg.txf ++ [s.host.hW0] }, host := { s.host with hphase := .hW1 } : State }.TransferInv := by
  have pending := inv.pending
  have loaded := inv.loaded
  rw [phase] at pending loaded
  have none : s.delivered + (if s.mcg.phase1.inWord then 1 else 0) = 0 := Nat.le_zero.1 loaded
  refine inv.advance (r0 := s.host.hR0) (by rw [phase]; rfl) (by rw [State.delivered, phase]; rfl) ?_ (by rw [phase]; simp [HostPhase.written])
  rw [pending, none]
  rfl

theorem State.TransferInv.w1 (phase : s.host.hphase = .hW1) : { s with
    mcg := { s.mcg with txf := s.mcg.txf ++ [s.host.hW1] }, host := { s.host with hphase := .hR0 } : State }.TransferInv := by
  have pending := inv.pending
  have loaded := inv.loaded
  rw [phase] at pending loaded
  refine inv.advance (r0 := s.host.hR0) (by rw [phase]; rfl) (by rw [State.delivered, phase]; rfl) ?_ (by rw [phase]; simp [HostPhase.written])
  rw [pending]
  exact (List.drop_append_of_le_length (l₂ := [s.host.hW1]) loaded).symm

theorem State.TransferInv.r0 {w : Word32} {rest : List Word32} (phase : s.host.hphase = .hR0) (rxf : s.mcg.rxf = w :: rest) :
    { s with mcg := { s.mcg with rxf := rest }, host := { s.host with hR0 := w, hphase := .hR1 } : State }.TransferInv := by
  refine inv.advance (txf := s.mcg.txf) (by rw [phase]; rfl) (by rw [State.delivered, phase, rxf]; rfl) ?_ (by rw [phase]; exact Nat.le_refl 2)
  have pending := inv.pending
  rwa [phase] at pending

/-- At the last read both words are delivered, no other word waits, and the driver is free again. -/
theorem State.TransferInv.last_word {w : Word32} {rest : List Word32} (phase : s.host.hphase = .hR1) (rxf : s.mcg.rxf = w :: rest) :
    rest = [] ∧ s.delivered = 2 ∧ s.cse.ctlf = [] ∧ s.driverFree := by
  have loaded := inv.loaded
  rw [phase] at loaded
  have count : s.delivered = rest.length + 2 := by rw [State.delivered, phase, rxf]; rfl
  have written : HostPhase.written .hR1 = 2 := rfl
  have both : s.delivered = 2 := by omega
  have empty : rest = [] := List.eq_nil_of_length_eq_zero (by omega)
  rcases inv.stage (by rw [phase]; rfl) with ⟨-, none, -⟩ | ⟨-, -, -, few, -⟩ | ⟨ctlf, -, free⟩
  · omega
  · omega
  · exact ⟨empty, both, ctlf, free⟩

theorem State.TransferInv.r1 {w : Word32} {rest : List Word32} (phase : s.host.hphase = .hR1) (rxf : s.mcg.rxf = w :: rest) :
    (s.lastWordTaken rest).TransferInv := by
  obtain ⟨empty, both, ctlf, free⟩ := inv.last_word phase rxf
  have pending := inv.pending
  rw [phase, both, free.not_inWord] at pending
  have wordcnt := inv.wordcnt
  rw [both] at wordcnt
  exact .of_clean ((inv.driver.withChannels s.cse.ctlf s.mcg.txf rest).congr rfl rfl rfl rfl) free wordcnt ctlf pending empty (.inl rfl)

theorem State.TransferInv.xferFinish (caller : Caller) (c : Byte) (p r : Frame) : (s.xferFinish caller c p r).TransferInv := by
  have logged : (s.logTransaction c p r).busFaultTaken.TransferInv := inv.congr rfl rfl rfl rfl rfl rfl rfl rfl
  exact logged.untouched (xferFinish_untouched s caller c p r)

theorem State.TransferInv.subStep (h : SubStepEffect s t) : t.TransferInv := by
  cases h with
  | held h => rwa [h]
  | poll empty h => subst h; exact inv.congr rfl rfl rfl rfl rfl rfl rfl rfl
  | ctl phase room h => subst h; exact inv.ctl phase
  | w0 phase room h => subst h; exact inv.w0 phase
  | w1 phase room h => subst h; exact inv.w1 phase
  | r0 w rest phase rxf h => subst h; exact inv.r0 phase rxf
  | r1 w rest phase rxf h => subst h; exact (inv.r1 phase rxf).xferFinish _ _ _ _

/-! ### CSE -/

/-- The control word that waits for an idle CSE is the one of the XFER in progress (42_waveform.md R118). -/
theorem State.TransferInv.waiting_word {w : Word32} {rest : List Word32} (ctlf : s.cse.ctlf = w :: rest) :
    s.host.hphase.controlled = true ∧ w = controlWord s.host.hCs ∧ rest = [] ∧ s.delivered = 0 ∧ s.driverFree := by
  cases controlled : s.host.hphase.controlled with
  | false =>
    have empty := (inv.idle controlled).1
    rw [ctlf] at empty
    cases empty
  | true =>
    rcases inv.stage controlled with ⟨one, none, free⟩ | ⟨empty, -⟩ | ⟨empty, -⟩
    · rw [ctlf] at one
      injection one with word empty
      exact ⟨rfl, word, empty, none, free⟩
    · rw [ctlf] at empty; cases empty
    · rw [ctlf] at empty; cases empty

theorem State.TransferInv.select_csw {w : Word32} {rest : List Word32} (pre : s.preCseSelect = true) (ctlf : s.cse.ctlf = w :: rest) :
    { s with cse := s.cse.select (w.extractLsb' 0 5) : State }.TransferInv := by
  obtain ⟨controlled, word, empty, none, free⟩ := inv.waiting_word ctlf
  obtain ⟨-, idle, -⟩ := s.preCseSelect_iff.1 pre
  have down : s.done = false := inv.driver.done_down (.inr (by simp [idle]))
  refine ⟨inv.driver.select_csw pre _, fun h => ?_, fun _ => .inr (.inl ⟨?_, rfl, ?_, ?_, down⟩), inv.pending, inv.loaded, inv.wordcnt,
    free.sendRegister⟩
  · exact absurd (controlled.symm.trans h) (by simp)
  · simp [Cse.select, ctlf, empty]
  · rw [word]; exact extract_controlWord _
  · show s.delivered < 2
    omega

theorem State.TransferInv.release_step (h : ReleaseEffect s t) : t.TransferInv := by
  have driver := inv.driver.release_step h
  cases h with
  | held h => rwa [h]
  | released running phase done h =>
    subst h
    have freed (free : s.driverFree) : { s with
        done := false, cse := { s.cse with csl := Config.csIdle, csActive := false, phase0 := .cIdle } : State }.driverFree :=
      ⟨.inl rfl, free.2⟩
    refine ⟨driver, fun h => ?_, fun h => ?_, inv.pending, inv.loaded, inv.wordcnt, inv.data⟩
    · obtain ⟨ctlf, free⟩ := inv.idle h
      exact ⟨ctlf, freed free⟩
    · rcases inv.stage h with ⟨one, none, free⟩ | ⟨-, -, -, -, down⟩ | ⟨ctlf, both, free⟩
      · exact .inl ⟨one, none, freed free⟩
      · rw [done] at down; cases down
      · exact .inr (.inr ⟨ctlf, both, freed free⟩)

/-! ### MCG -/

/-- A step of MCG within a transaction that delivers no word: the stage stays. -/
theorem State.TransferInv.within {m : Mcg} (driver : { s with mcg := m : State }.DriverInv) (active : s.cse.csActive = true)
    (down : s.done = false) (rxf : m.rxf = s.mcg.rxf)
    (pending : m.txf = ([s.host.hW0, s.host.hW1].take s.host.hphase.written).drop (s.delivered + (if m.phase1.inWord then 1 else 0)))
    (loaded : s.delivered + (if m.phase1.inWord then 1 else 0) ≤ s.host.hphase.written) (wordcnt : m.wordcnt = s.mcg.wordcnt)
    (data : { s with mcg := m : State }.sendRegister) : { s with mcg := m : State }.TransferInv := by
  obtain ⟨controlled, ctlf, hold, index, few⟩ := inv.transacting active down
  have same : { s with mcg := m : State }.delivered = s.delivered := by simp only [State.delivered, rxf]
  refine ⟨driver, fun h => ?_, fun _ => .inr (.inl ⟨ctlf, hold, index, ?_, down⟩), ?_, ?_, ?_, data⟩
  · exact absurd (controlled.symm.trans h) (by simp)
  · rw [same]; exact few
  · rw [same]; exact pending
  · rw [same]; exact loaded
  · rw [same]; exact wordcnt.trans inv.wordcnt

theorem State.TransferInv.load {w : Word32} {rest : List Word32} (phase : s.mcg.phase1 = .mLoad) (active : s.cse.csActive = true)
    (txf : s.mcg.txf = w :: rest)
    (driver : { s with mcg := { s.mcg with osr := w, txf := rest, bitcnt := 0, phase1 := .mShift } : State }.DriverInv) :
    { s with mcg := { s.mcg with osr := w, txf := rest, bitcnt := 0, phase1 := .mShift } : State }.TransferInv := by
  have down := inv.driver.done_down (.inl (by simp [phase]))
  obtain ⟨-, -, -, -, few⟩ := inv.transacting active down
  have pending := inv.pending
  rw [phase, txf] at pending
  have word : s.delivered < s.host.hphase.written ∧ w = s.currentWord ∧
      rest = ([s.host.hW0, s.host.hW1].take s.host.hphase.written).drop (s.delivered + 1) := by
    simp only [McgPhase.inWord, Bool.false_eq_true, if_false, Nat.add_zero] at pending
    have len := congrArg List.length pending
    have below : s.delivered < s.host.hphase.written := by
      simp at len; omega
    refine ⟨below, ?_, ?_⟩
    · have head := congrArg List.head? pending
      rw [List.head?_drop, List.getElem?_take_of_lt below] at head
      unfold State.currentWord
      rcases Nat.lt_succ_iff.1 few |>.lt_or_eq with zero | one
      · have zero : s.delivered = 0 := by omega
        simpa [zero] using head
      · simpa [one] using head
    · have tail := congrArg List.tail pending
      rwa [List.tail_drop] at tail
  obtain ⟨below, first, others⟩ := word
  exact inv.within driver active down rfl (by simpa [McgPhase.inWord] using others) (by simpa [McgPhase.inWord] using below) rfl
    (by simpa [State.sendRegister, State.currentWord, State.delivered] using first)

theorem State.TransferInv.mcg_step (h : McgEffect s t) : t.TransferInv := by
  have driver := inv.driver.mcg_step h
  have pending := inv.pending
  have loaded := inv.loaded
  have data := inv.data
  have count := inv.driver.bitcnt
  cases h with
  | held h => rwa [h]
  | load w rest phase active txf h => subst h; exact inv.load phase active txf driver
  | shift phase h =>
    subst h
    have active := inv.driver.active (.inl (by simp [phase, McgPhase.inWord]))
    have down := inv.driver.done_down (.inl (by simp [phase]))
    have below : s.mcg.bitcnt < 32 := by simpa [Mcg.BitcntOk, phase] using count
    rw [phase] at pending loaded
    refine inv.within driver active down rfl pending loaded rfl ?_
    have osr : s.mcg.osr = s.currentWord <<< s.mcg.bitcnt := by simpa [State.sendRegister, phase] using data
    show s.mcg.osr <<< 1 = s.currentWord <<< (s.mcg.bitcnt + 1) ∧ s.mcg.osr.getLsbD 31 = s.currentWord.getLsbD (31 - s.mcg.bitcnt)
    rw [osr]
    exact ⟨(BitVec.shiftLeft_add _ _ _).symm, sent_bit _ below⟩
  | sample phase h =>
    subst h
    have active := inv.driver.active (.inl (by simp [phase, McgPhase.inWord]))
    have down := inv.driver.done_down (.inl (by simp [phase]))
    rw [phase] at pending loaded
    have osr : s.mcg.osr = s.currentWord <<< (s.mcg.bitcnt + 1) := by
      have both := data
      simp only [State.sendRegister, phase] at both
      exact both.1
    have moved : { s with mcg := { s.mcg with
        isr := shiftIn s.mcg.isr (s.oracle.misoBit 0), sck := s.params.sckIdle, bitcnt := s.mcg.bitcnt + 1,
        phase1 := if s.mcg.bitcnt + 1 = 32 then .mPush else .mShift } : State }.TransferInv := by
      refine inv.within (driver.congr rfl rfl rfl rfl) active down rfl ?_ ?_ rfl ?_
      · split <;> exact pending
      · split <;> exact loaded
      · split
        · trivial
        · exact osr
    exact moved.congr rfl rfl rfl rfl rfl rfl rfl rfl
  | pushFirst phase room wordcnt h =>
    subst h
    obtain ⟨controlled, ctlf, hold, index, few⟩ := inv.transacting_inWord (by simp [phase, McgPhase.inWord])
    have down := inv.driver.done_down (.inl (by simp [phase]))
    have none := inv.none_delivered phase wordcnt
    have one : { s with mcg := { s.mcg with rxf := s.mcg.rxf ++ [s.mcg.isr], wordcnt := 1, phase1 := .mLoad } : State }.delivered = 1 := by
      simp only [State.delivered, List.length_append, List.length_cons, List.length_nil] at none ⊢
      omega
    rw [phase, none] at pending loaded
    refine ⟨driver, fun h => ?_, fun _ => .inr (.inl ⟨ctlf, hold, index, ?_, down⟩), ?_, ?_, ?_, trivial⟩
    · exact absurd (controlled.symm.trans h) (by simp)
    · omega
    · rw [one]; exact pending
    · rw [one]; exact loaded
    · rw [one]; rfl
  | pushSecond phase room wordcnt h =>
    subst h
    obtain ⟨controlled, ctlf, hold, index, few⟩ := inv.transacting_inWord (by simp [phase, McgPhase.inWord])
    have one := inv.one_delivered wordcnt
    have two : { s with
        mcg := { s.mcg with rxf := s.mcg.rxf ++ [s.mcg.isr], wordcnt := 0, phase1 := .mDone }, done := true : State }.delivered = 2 := by
      simp only [State.delivered, List.length_append, List.length_cons, List.length_nil] at one ⊢
      omega
    rw [phase, one] at pending loaded
    refine ⟨driver, fun h => ?_, fun _ => .inr (.inr ⟨ctlf, two, .inr ⟨hold, rfl⟩, .inr rfl⟩), ?_, ?_, ?_, trivial⟩
    · exact absurd (controlled.symm.trans h) (by simp)
    · rw [two]; exact pending
    · rw [two]; exact loaded
    · rw [two]; rfl
  | rearm phase done h =>
    subst h
    have freed (free : s.driverFree) : { s with mcg := { s.mcg with phase1 := .mLoad } : State }.driverFree := ⟨free.1, .inl rfl⟩
    rw [phase] at pending loaded
    refine ⟨driver, fun h => ?_, fun h => ?_, pending, loaded, inv.wordcnt, trivial⟩
    · obtain ⟨ctlf, free⟩ := inv.idle h
      exact ⟨ctlf, freed free⟩
    · rcases inv.stage h with ⟨one, none, free⟩ | transacting | ⟨ctlf, both, free⟩
      · exact .inl ⟨one, none, freed free⟩
      · exact .inr (.inl transacting)
      · exact .inr (.inr ⟨ctlf, both, freed free⟩)

end

/-! ### Every transition -/

theorem transferInv_driverAfterXfer {s : State} (c : Byte) (p : Frame) (outside : s.host.hphase = .hNone) :
    (s.driverAfterXfer c p).TransferInv :=
  .of_clean (driverInv_driverAfterXfer s c p) ⟨.inl rfl, .inl rfl⟩ rfl rfl rfl rfl (.inl outside)

theorem State.TransferInv.transition {s t : State} (inv : s.TransferInv) (noTimeout : s.params.xferTimeout = none)
    (h : Transition s t) : t.TransferInv := by
  cases h with
  | silent h => exact inv.silent h
  | operation free h => exact inv.untouched h
  | atomic u caller c p hu clean ha h =>
    subst h
    obtain ⟨-, -, -, -, -, outside⟩ := u.clean_iff.1 clean
    exact (transferInv_driverAfterXfer c p outside).xferFinish _ _ _ _
  | enter u caller c p hu clean ha h =>
    subst h
    obtain ⟨free, wordcnt, ctlf, txf, rxf, -⟩ := u.clean_iff.1 clean
    exact .of_clean ((inv.driver.untouched hu).congr rfl rfl rfl rfl) free wordcnt ctlf txf rxf (.inr rfl)
  | subStep busy h => exact inv.subStep h
  | timeout may h => simp [State.mayTimeout, noTimeout] at may
  | select w rest pre ctlf h => subst h; exact inv.select_csw pre ctlf
  | release h => exact inv.release_step h
  | mcg running h => exact inv.mcg_step h

end Sys2Proof.Machine

namespace Sys2Proof

open Sys2Proof.Machine

/-- Settles O48: each transition keeps the invariant, the time-out being none. -/
theorem stepKeepsTransfer : Obligations.StepKeepsTransfer := by
  intro s t noTimeout inv h
  obtain ⟨u, taken, move⟩ := step_transition h
  exact (inv.silent taken).transition (by rw [taken.params, noTimeout]) move

end Sys2Proof
end

section
/-! The receive side of the XFER in progress (43_transfer.md R134 (e)): from the entry to the last read HOST gets the levels sampled. -/

namespace Sys2Proof.Machine

/-! ### The words delivered -/

/-- The words of the XFER in progress that MCG has delivered, in order: the one HOST has read, then those in `rxf`. -/
def State.deliveredWords (s : State) : List Word32 := (if s.host.hphase = .hR1 then [s.host.hR0] else []) ++ s.mcg.rxf

theorem State.deliveredWords_length (s : State) : s.deliveredWords.length = s.delivered := by
  unfold State.deliveredWords State.delivered
  cases s.host.hphase <;> simp [HostPhase.read, Nat.add_comm]

theorem State.ReceiveInv.deliveredWords {o : Oracle} {s : State} (recv : s.ReceiveInv o) :
    s.deliveredWords = [o.misoWord 0 32, o.misoWord 32 32].take s.delivered := recv.words

/-- What the receive side reads of HOST is the list of words delivered; of MCG, beside it, the word being sampled. -/
theorem State.ReceiveInv.of_words {o : Oracle} {s t : State} (recv : s.ReceiveInv o) (words : t.deliveredWords = s.deliveredWords)
    (phase1 : t.mcg.phase1 = s.mcg.phase1) (bitcnt : t.mcg.bitcnt = s.mcg.bitcnt) (isr : t.mcg.isr = s.mcg.isr)
    (oracle : t.oracle = s.oracle) : t.ReceiveInv o := by
  have delivered : t.delivered = s.delivered := by rw [← t.deliveredWords_length, words, s.deliveredWords_length]
  have samples : t.samples = s.samples := by unfold State.samples; rw [delivered, phase1, bitcnt]
  refine ⟨fun k => ?_, ?_, fun word j hj => ?_⟩
  · rw [oracle, samples]; exact recv.future k
  · show t.deliveredWords = _
    rw [words, delivered]; exact recv.words
  · rw [isr, samples]; exact recv.register (phase1 ▸ word) j (bitcnt ▸ hj)

/-! ### The entry -/

theorem receiveInv_xferEnter {s : State} (caller : Caller) (c : Byte) (p : Frame) (clean : s.clean = true) :
    (s.xferEnter caller c p).ReceiveInv s.oracle := by
  obtain ⟨free, -, -, -, rxf, -⟩ := s.clean_iff.1 clean
  have between : (s.xferEnter caller c p).mcg.phase1.inWord = false := free.not_inWord
  have words : (s.xferEnter caller c p).deliveredWords = [] := by simp [State.deliveredWords, State.xferEnter, rxf]
  have delivered : (s.xferEnter caller c p).delivered = 0 := by rw [← State.deliveredWords_length, words]; rfl
  have samples : (s.xferEnter caller c p).samples = 0 := by simp [State.samples, delivered, between]
  refine ⟨fun k => by rw [samples, Nat.zero_add]; rfl, ?_, fun word => by rw [between] at word; cases word⟩
  show State.deliveredWords _ = _
  rw [words, delivered]
  rfl

/-! ### MCG -/

section

variable {o : Oracle} {s t : State} (recv : s.ReceiveInv o)
include recv

theorem State.ReceiveInv.sample (inv : s.TransferInv) (phase : s.mcg.phase1 = .mSample) : { s with
    mcg := { s.mcg with
      isr := shiftIn s.mcg.isr (s.oracle.misoBit 0), sck := s.params.sckIdle, bitcnt := s.mcg.bitcnt + 1,
      phase1 := if s.mcg.bitcnt + 1 = 32 then .mPush else .mShift }
    oracle := s.oracle.misoTaken 1 : State }.ReceiveInv o := by
  have below : s.mcg.bitcnt < 32 := by simpa [Mcg.BitcntOk, phase] using inv.driver.bitcnt
  have word : s.mcg.phase1.inWord = true := by rw [phase]; rfl
  have word' : (if s.mcg.bitcnt + 1 = 32 then McgPhase.mPush else .mShift).inWord = true := by split <;> rfl
  have before : s.samples = 32 * s.delivered + s.mcg.bitcnt := by simp [State.samples, word]
  have samples : { s with
      mcg := { s.mcg with
        isr := shiftIn s.mcg.isr (s.oracle.misoBit 0), sck := s.params.sckIdle, bitcnt := s.mcg.bitcnt + 1,
        phase1 := if s.mcg.bitcnt + 1 = 32 then .mPush else .mShift }
      oracle := s.oracle.misoTaken 1 : State }.samples = s.samples + 1 := by
    rw [before]
    exact congrArg (32 * s.delivered + ·) (if_pos word')
  refine ⟨fun k => ?_, recv.words, fun _ j hj => ?_⟩
  · rw [samples, Oracle.misoTaken_misoBit, recv.future, Nat.add_assoc]
  · have hj : j < s.mcg.bitcnt + 1 := hj
    rw [samples, getLsbD_shiftIn _ _ _ (by omega)]
    split
    case isTrue zero => rw [recv.future, zero]; rfl
    case isFalse pos =>
      rw [recv.register word (j - 1) (by omega)]
      congr 1
      omega

/-- The word MCG pushes is the 32 levels sampled since its load. -/
theorem State.ReceiveInv.pushed_word (inv : s.TransferInv) (phase : s.mcg.phase1 = .mPush) :
    s.mcg.isr = o.misoWord (32 * s.delivered) 32 := by
  have full : s.mcg.bitcnt = 32 := by simpa [Mcg.BitcntOk, phase] using inv.driver.bitcnt
  have samples : s.samples = 32 * s.delivered + 32 := by simp [State.samples, phase, McgPhase.inWord, full]
  apply eq_misoWord
  intro j hj
  rw [recv.register (by rw [phase]; rfl) j (by omega), samples]
  congr 1

theorem State.ReceiveInv.push (inv : s.TransferInv) (phase : s.mcg.phase1 = .mPush) {w : Nat} {next : McgPhase} {d : Bool}
    (between : next.inWord = false) :
    { s with mcg := { s.mcg with rxf := s.mcg.rxf ++ [s.mcg.isr], wordcnt := w, phase1 := next }, done := d : State }.ReceiveInv o := by
  obtain ⟨-, -, -, -, few⟩ := inv.transacting_inWord (by rw [phase]; rfl)
  have full : s.mcg.bitcnt = 32 := by simpa [Mcg.BitcntOk, phase] using inv.driver.bitcnt
  have before : s.samples = 32 * s.delivered + 32 := by simp [State.samples, phase, McgPhase.inWord, full]
  have words : { s with mcg := { s.mcg with rxf := s.mcg.rxf ++ [s.mcg.isr], wordcnt := w, phase1 := next }, done := d : State
      }.deliveredWords = s.deliveredWords ++ [s.mcg.isr] := (List.append_assoc _ _ _).symm
  have delivered : { s with mcg := { s.mcg with rxf := s.mcg.rxf ++ [s.mcg.isr], wordcnt := w, phase1 := next }, done := d : State
      }.delivered = s.delivered + 1 := by
    rw [← State.deliveredWords_length, words, List.length_append, s.deliveredWords_length]
    rfl
  have samples : { s with mcg := { s.mcg with rxf := s.mcg.rxf ++ [s.mcg.isr], wordcnt := w, phase1 := next }, done := d : State
      }.samples = s.samples := by
    rw [before]
    unfold State.samples
    rw [delivered]
    simp [between]
    omega
  refine ⟨fun k => ?_, ?_, fun word => by rw [between] at word; cases word⟩
  · rw [samples]; exact recv.future k
  · show State.deliveredWords _ = _
    rw [words, delivered, recv.deliveredWords, recv.pushed_word inv phase]
    have which : s.delivered = 0 ∨ s.delivered = 1 := by omega
    rcases which with h | h <;> rw [h] <;> rfl

theorem State.ReceiveInv.mcg_step (inv : s.TransferInv) (h : McgEffect s t) : t.ReceiveInv o := by
  cases h with
  | held h => rwa [h]
  | load w rest phase active txf h =>
    subst h
    have samples : s.samples = 32 * s.delivered := by simp [State.samples, phase, McgPhase.inWord]
    exact ⟨fun k => (recv.future k).trans (by rw [samples]; rfl), recv.words, fun _ j hj => absurd hj (Nat.not_lt_zero j)⟩
  | shift phase h =>
    subst h
    have word : s.mcg.phase1.inWord = true := by rw [phase]; rfl
    have samples : s.samples = 32 * s.delivered + s.mcg.bitcnt := by simp [State.samples, word]
    exact ⟨fun k => (recv.future k).trans (by rw [samples]; rfl), recv.words,
      fun _ j hj => (recv.register word j hj).trans (by rw [samples]; rfl)⟩
  | sample phase h => subst h; exact recv.sample inv phase
  | pushFirst phase room wordcnt h => subst h; exact recv.push inv phase (d := s.done) rfl
  | pushSecond phase room wordcnt h => subst h; exact recv.push inv phase rfl
  | rearm phase done h =>
    subst h
    have samples : s.samples = 32 * s.delivered := by simp [State.samples, phase, McgPhase.inWord]
    exact ⟨fun k => (recv.future k).trans (by rw [samples]; rfl), recv.words, fun word => by cases word⟩

end

/-- MCG's turn writes its own registers, `done` and the levels drawn alone. -/
theorem McgEffect.frame {s t : State} (h : McgEffect s t) :
    t = { s with mcg := t.mcg, done := t.done, oracle := t.oracle } ∧ t.busFaultNow = s.busFaultNow := by
  cases h with
  | held h => subst h; exact ⟨rfl, rfl⟩
  | load w rest phase active txf h => subst h; exact ⟨rfl, rfl⟩
  | shift phase h => subst h; exact ⟨rfl, rfl⟩
  | sample phase h => subst h; exact ⟨rfl, rfl⟩
  | pushFirst phase room wordcnt h => subst h; exact ⟨rfl, rfl⟩
  | pushSecond phase room wordcnt h => subst h; exact ⟨rfl, rfl⟩
  | rearm phase done h => subst h; exact ⟨rfl, rfl⟩

/-! ### A step inside XFER -/

/-- HOST stays inside the XFER that began at the oracle `o`: the receive side in step, the rest as it was. -/
structure StaysInXfer (o : Oracle) (s t : State) : Prop where
  inside : t.host.hphase ≠ .hNone
  receive : t.ReceiveInv o
  hCs : t.host.hCs = s.host.hCs
  hW0 : t.host.hW0 = s.host.hW0
  hW1 : t.host.hW1 = s.host.hW1
  caller : t.host.caller = s.host.caller
  busFault : t.busFaultNow = s.busFaultNow
  busLog : t.busLog = s.busLog
  returned : t.host.returned = s.host.returned
  slots : t.slots = s.slots
  params : t.params = s.params

/-- What the XFER that began at the oracle `o` returns once its 64 levels are drawn, a bus fault or their frame. -/
def State.xferResult (o : Oracle) (s : State) : Except BusCause Frame :=
  if s.busFaultNow = true then .error .fault else .ok o.misoFrame

/-- HOST leaves the XFER that began at the oracle `o` with the frame of the 64 levels drawn since. -/
structure LeavesXfer (o : Oracle) (s t : State) : Prop where
  outside : t.host.hphase = .hNone
  busLog : t.busLog = s.busLog ++ [⟨s.host.hCs, frameOfWords s.host.hW0 s.host.hW1, o.misoFrame⟩]
  returned : t.host.returned = (s.xferReturn s.host.caller (s.xferResult o)).host.returned
  slots : t.slots = (s.xferReturn s.host.caller (s.xferResult o)).slots

/-- What follows a step that stays is, seen from before it, the same end. -/
theorem LeavesXfer.of_stays {o : Oracle} {s u t : State} (h : LeavesXfer o u t) (stays : StaysInXfer o s u) : LeavesXfer o s t := by
  obtain ⟨outside, busLog, returned, slots⟩ := h
  have result : u.xferResult o = s.xferResult o := by unfold State.xferResult; rw [stays.busFault]
  obtain ⟨sameReturned, sameSlots⟩ := State.xferReturn_congr s.host.caller (s.xferResult o) stays.params stays.slots stays.returned
  rw [stays.caller, result] at returned slots
  rw [stays.busLog, stays.hCs, stays.hW0, stays.hW1] at busLog
  exact ⟨outside, busLog, returned.trans sameReturned, slots.trans sameSlots⟩

theorem StaysInXfer.silent {o : Oracle} {s t : State} (busy : s.host.hphase ≠ .hNone) (recv : s.ReceiveInv o)
    (h : TransferUntouched s t) : StaysInXfer o s t where
  inside := by rwa [h.hphase]
  receive := recv.congr h.mcg h.hphase h.hR0 h.miso
  hCs := h.hCs
  hW0 := h.hW0
  hW1 := h.hW1
  caller := h.caller
  busFault := h.busFault
  busLog := h.busLog
  returned := h.returned
  slots := h.slots
  params := h.params

theorem StaysInXfer.trans {o : Oracle} {s u t : State} (h : StaysInXfer o s u) (g : StaysInXfer o u t) : StaysInXfer o s t where
  inside := g.inside
  receive := g.receive
  hCs := g.hCs.trans h.hCs
  hW0 := g.hW0.trans h.hW0
  hW1 := g.hW1.trans h.hW1
  caller := g.caller.trans h.caller
  busFault := g.busFault.trans h.busFault
  busLog := g.busLog.trans h.busLog
  returned := g.returned.trans h.returned
  slots := g.slots.trans h.slots
  params := g.params.trans h.params

section

variable {o : Oracle} {s t : State} (inv : s.TransferInv) (recv : s.ReceiveInv o)
include inv recv

/-- The last read: the two words HOST has are those sampled, so the frame it returns is theirs. -/
theorem leavesXfer_last_read {w : Word32} {rest : List Word32} (phase : s.host.hphase = .hR1) (rxf : s.mcg.rxf = w :: rest) :
    LeavesXfer o s ((s.lastWordTaken rest).xferFinish s.host.caller s.host.hCs (frameOfWords s.host.hW0 s.host.hW1)
      (frameOfWords s.host.hR0 w)) := by
  obtain ⟨empty, both, -, -⟩ := inv.last_word phase rxf
  have words := recv.words
  rw [both, rxf, empty, if_pos phase] at words
  obtain ⟨first, second⟩ : s.host.hR0 = o.misoWord 0 32 ∧ w = o.misoWord 32 32 := by simpa using words
  have frame : frameOfWords s.host.hR0 w = o.misoFrame := by rw [first, second]; rfl
  rw [frame]
  have untouched := xferFinish_untouched (s.lastWordTaken rest) s.host.caller s.host.hCs (frameOfWords s.host.hW0 s.host.hW1) o.misoFrame
  obtain ⟨returned, slots⟩ := State.xferReturn_congr (s := s)
    (t := ((s.lastWordTaken rest).logTransaction s.host.hCs (frameOfWords s.host.hW0 s.host.hW1) o.misoFrame).busFaultTaken)
    s.host.caller (s.xferResult o) rfl rfl rfl
  exact ⟨by rw [untouched.host]; rfl, by rw [untouched.busLog]; rfl, returned, slots⟩

theorem subStep_stays_or_leaves (busy : s.host.hphase ≠ .hNone) (h : SubStepEffect s t) : StaysInXfer o s t ∨ LeavesXfer o s t := by
  cases h with
  | held h => subst h; exact .inl (.silent busy recv (.rfl _))
  | poll empty h => subst h; exact .inl ⟨busy, recv.of_words rfl rfl rfl rfl rfl, rfl, rfl, rfl, rfl, rfl, rfl, rfl, rfl, rfl⟩
  | ctl phase room h =>
    subst h
    have words := recv.of_words (t := { s with
      cse := { s.cse with ctlf := s.cse.ctlf ++ [controlWord s.host.hCs] }, host := { s.host with hphase := .hW0 } })
      (by simp [State.deliveredWords, phase]) rfl rfl rfl rfl
    exact .inl ⟨nofun, words, rfl, rfl, rfl, rfl, rfl, rfl, rfl, rfl, rfl⟩
  | w0 phase room h =>
    subst h
    have words := recv.of_words (t := { s with
      mcg := { s.mcg with txf := s.mcg.txf ++ [s.host.hW0] }, host := { s.host with hphase := .hW1 } })
      (by simp [State.deliveredWords, phase]) rfl rfl rfl rfl
    exact .inl ⟨nofun, words, rfl, rfl, rfl, rfl, rfl, rfl, rfl, rfl, rfl⟩
  | w1 phase room h =>
    subst h
    have words := recv.of_words (t := { s with
      mcg := { s.mcg with txf := s.mcg.txf ++ [s.host.hW1] }, host := { s.host with hphase := .hR0 } })
      (by simp [State.deliveredWords, phase]) rfl rfl rfl rfl
    exact .inl ⟨nofun, words, rfl, rfl, rfl, rfl, rfl, rfl, rfl, rfl, rfl⟩
  | r0 w rest phase rxf h =>
    subst h
    have words := recv.of_words (t := { s with mcg := { s.mcg with rxf := rest }, host := { s.host with hR0 := w, hphase := .hR1 } })
      (by simp [State.deliveredWords, phase, rxf]) rfl rfl rfl rfl
    exact .inl ⟨nofun, words, rfl, rfl, rfl, rfl, rfl, rfl, rfl, rfl, rfl⟩
  | r1 w rest phase rxf h => subst h; exact .inr (leavesXfer_last_read inv recv phase rxf)

theorem mcg_stays (busy : s.host.hphase ≠ .hNone) (h : McgEffect s t) : StaysInXfer o s t := by
  obtain ⟨frame, fault⟩ := h.frame
  have host : t.host = s.host := by rw [frame]
  exact ⟨by rwa [host], recv.mcg_step inv h, by rw [host], by rw [host], by rw [host], by rw [host], fault, by rw [frame], by rw [host],
    by rw [frame], by rw [frame]⟩

theorem transition_stays_or_leaves (noTimeout : s.params.xferTimeout = none) (busy : s.host.hphase ≠ .hNone) (h : Transition s t) :
    StaysInXfer o s t ∨ LeavesXfer o s t := by
  have unclean {u : State} (hu : DriverUntouched s u) (clean : u.clean = true) : False := by
    obtain ⟨-, -, -, -, -, outside⟩ := u.clean_iff.1 clean
    rw [hu.host] at outside
    exact busy outside
  cases h with
  | silent h => exact .inl (.silent busy recv h)
  | operation free h => exact absurd free busy
  | atomic u caller c p hu clean ha h => exact (unclean hu clean).elim
  | enter u caller c p hu clean ha h => exact (unclean hu clean).elim
  | subStep _ h => exact subStep_stays_or_leaves inv recv busy h
  | timeout may h => simp [State.mayTimeout, noTimeout] at may
  | select w rest pre ctlf h =>
    subst h
    exact .inl ⟨busy, recv.congr rfl rfl rfl fun _ => rfl, rfl, rfl, rfl, rfl, rfl, rfl, rfl, rfl, rfl⟩
  | release h =>
    cases h with
    | held h => subst h; exact .inl (.silent busy recv (.rfl _))
    | released running phase done h =>
      subst h
      exact .inl ⟨busy, recv.congr rfl rfl rfl fun _ => rfl, rfl, rfl, rfl, rfl, rfl, rfl, rfl, rfl, rfl⟩
  | mcg running h => exact .inl (mcg_stays inv recv busy h)

theorem step_stays_or_leaves (noTimeout : s.params.xferTimeout = none) (busy : s.host.hphase ≠ .hNone) (h : step s = .next t) :
    StaysInXfer o s t ∨ LeavesXfer o s t := by
  obtain ⟨u, taken, move⟩ := step_transition h
  have stays := StaysInXfer.silent busy recv taken
  rcases transition_stays_or_leaves (inv.silent taken) stays.receive (stays.params ▸ noTimeout) stays.inside move with stay | leave
  · exact .inl (stays.trans stay)
  · exact .inr (leave.of_stays stays)

end

end Sys2Proof.Machine

namespace Sys2Proof

open Sys2Proof.Machine

/-- Settles O55: the entry starts the receive side, and each transition keeps it or is the last read. -/
theorem receivedFrameIsWhatWasSampled : Obligations.ReceivedFrameIsWhatWasSampled := by
  refine ⟨fun s caller c p clean => receiveInv_xferEnter caller c p clean, fun o s t noTimeout inv recv busy h => ?_⟩
  rcases step_stays_or_leaves inv recv noTimeout busy h with stay | leave
  · obtain ⟨inside, receive, hCs, hW0, hW1, caller, busFault, busLog, returned, slots, -⟩ := stay
    exact .inl ⟨inside, receive, hCs, hW0, hW1, caller, busFault, busLog, returned, slots⟩
  · obtain ⟨outside, busLog, returned, slots⟩ := leave
    exact .inr ⟨outside, busLog, returned, slots⟩

end Sys2Proof
end

section
/-! The codec (40_codec.md R80 to R82) and the FRAME rows, which are its DES (30_encoding.md R67). -/

namespace Sys2Proof.Machine

/-! ### Byte 0 -/

theorem desEventType_serByte0 (t : EventType) : desEventType (serByte0 t) = t := by
  cases t with
  | input s => revert s; decide +kernel
  | output | memWrite | reboot | setControllerId | log => rfl

/-- Which values of byte 0 SER after DES gives back; for every other it writes the Input of `sub_id` 0. -/
theorem serByte0_desEventType (b : Byte) :
    serByte0 (desEventType b) = if (1 ≤ b.toNat ∧ b.toNat ≤ 5) ∨ 0x80 ≤ b.toNat then b else 0x80#8 := by
  revert b; decide +kernel

/-- DES by the matches of the FRAME rows. -/
theorem desEventType_eq (b : Byte) : desEventType b =
    if b &&& 0x80#8 = 0x80#8 then .input (b.extractLsb' 0 7)
    else if b = 0x01#8 then .output
    else if b = 0x02#8 then .memWrite
    else if b = 0x03#8 then .reboot
    else if b = 0x04#8 then .setControllerId
    else if b = 0x05#8 then .log
    else .input 0 := by
  have top : ∀ b : Byte, b.getLsbD 7 = decide (b &&& 0x80#8 = 0x80#8) := by decide +kernel
  simp only [desEventType, top, decide_eq_true_eq]

/-! ### Round trips -/

theorem deserialize_serialize (e : Event) : deserialize (serialize e) = e := by
  simp [deserialize, serialize, desEventType_serByte0]

theorem serialize_deserialize (p : Frame) : serialize (deserialize p) =
    { p with b0 := if (1 ≤ p.b0.toNat ∧ p.b0.toNat ≤ 5) ∨ 0x80 ≤ p.b0.toNat then p.b0 else 0x80#8, b7 := 0 } := by
  simp only [serialize, deserialize, serByte0_desEventType, hiByte_append, loByte_append]
  rfl

/-! ### The FRAME rows -/

theorem exec_ite {c : Prop} [Decidable c] {i j : Instr} {s : State} {k : Host.Outcome State Fault Refusal}
    (hi : c → exec i s = k) (hj : ¬ c → exec j s = k) : exec (if c then i else j) s = k := by
  split
  case isTrue h => exact hi h
  case isFalse h => exact hj h

theorem exec_decodeFrame (p : Frame) (s : State) : exec (decodeFrame p) s = exec (.des p) s := by
  have row {t : EventType} (h : desEventType p.b0 = t) : s.decodesTo (bodyEvent p.body t) = exec (.des p) s := by subst h; rfl
  refine exec_ite (fun h => row (by rw [desEventType_eq, if_pos h])) fun h1 => ?_
  refine exec_ite (fun h => row (by rw [h]; rfl)) fun h2 => ?_
  refine exec_ite (fun h => row (by rw [h]; rfl)) fun h3 => ?_
  refine exec_ite (fun h => row (by rw [h]; rfl)) fun h4 => ?_
  refine exec_ite (fun h => row (by rw [h]; rfl)) fun h5 => ?_
  refine exec_ite (fun h => row (by rw [h]; rfl)) fun h6 => ?_
  have fallback : desEventType p.b0 = .input 0 := by
    rw [desEventType_eq, if_neg h1, if_neg h2, if_neg h3, if_neg h4, if_neg h5, if_neg h6]
  refine exec_ite (fun _ => row fallback) fun _ => ?_
  refine exec_ite (fun _ => row fallback) fun _ => ?_
  refine exec_ite (fun _ => row fallback) fun _ => ?_
  refine exec_ite (fun _ => row fallback) fun _ => ?_
  exact exec_ite (fun _ => row fallback) fun _ => row fallback

/-- Every FRAME instruction is the row of some frame, since the decoder reads it back from its encoding. -/
theorem exists_decodeFrame {i : Instr} (h : i.format = .frame) : ∃ p, i = decodeFrame p := by
  have back := decodeOfEncodeIsTheInstruction i
  rw [h] at back
  exact withOperand_ok back

theorem exec_des_next {p : Frame} {s t : State} (h : exec (.des p) s = .next t) : t = s.ret (.event (deserialize p)) := by
  obtain ⟨-, answer⟩ := State.hostCall_next h
  cases answer
  rfl

end Sys2Proof.Machine

namespace Sys2Proof

open Sys2Proof.Machine

/-- Settles O5, by the type of the event. -/
theorem serReturnsTheFrameOfTheEvent : Obligations.SerReturnsTheFrameOfTheEvent := by
  intro e s free
  refine (State.hostCall_of_free _ free).trans ?_
  obtain ⟨type, id, value, controller, sequence⟩ := e
  cases type <;> rfl

/-- Settles O7, by what the codec does to byte 0 and byte 7. -/
theorem codecRoundTrip : Obligations.CodecRoundTrip := by
  refine ⟨deserialize_serialize, fun p => ?_, serialize_deserialize⟩
  have input : 0x80 ≤ (0x80#8 : Byte).toNat := by decide
  rw [serialize_deserialize]
  obtain ⟨b0, b1, b2, b3, b4, b5, b6, b7⟩ := p
  simp only [Frame.mk.injEq, true_and]
  constructor
  · rintro ⟨h0, h7⟩
    refine ⟨h7.symm, ?_⟩
    by_contra other
    rw [if_neg other] at h0
    exact other (.inr (h0 ▸ input))
  · rintro ⟨h7, named⟩
    exact ⟨if_pos named, h7.symm⟩

/-- Settles O8: outside XFER each row is its answer. -/
theorem eventRowsReturnTheirEvent : Obligations.EventRowsReturnTheirEvent := by
  intro b s free
  have answers (e : Event) : s.decodesTo e = .next (s.ret (.event e)) := State.hostCall_of_free _ free
  exact ⟨fun _ => answers _, answers _, answers _, answers _, answers _, answers _, answers _, fun _ => answers _, fun _ => answers _,
    fun _ => answers _, fun _ => answers _, fun _ => answers _⟩

/-- Settles O9, row by row. -/
theorem eventRowsAgreeWithDes : Obligations.EventRowsAgreeWithDes := exec_decodeFrame

/-- Settles O17, by computing the frame of the default PING. -/
theorem pingFrameBytes : Obligations.PingFrameBytes := ⟨rfl, rfl, rfl⟩

/-- Settles O39: a FRAME row is DES of the frame it matches, and SER and DES return one result. -/
theorem codecOperationsOnlyReturn : Obligations.CodecOperationsOnlyReturn := by
  rintro i s t (frame | ⟨e, rfl⟩ | ⟨p, rfl⟩) h
  · obtain ⟨p, rfl⟩ := exists_decodeFrame frame
    rw [exec_decodeFrame] at h
    exact ⟨_, exec_des_next h⟩
  · obtain ⟨-, answer⟩ := State.hostCall_next h
    cases answer
    exact ⟨_, rfl⟩
  · exact ⟨_, exec_des_next h⟩

end Sys2Proof
end

section
/-! Which operations are refused (60_exceptions.md R156), and what the queue and slot operations leave alone (41_queue.md,
44_slot.md). -/

namespace Sys2Proof.Machine

/-! ### Refusals -/

theorem State.hostCall_inside {s : State} (k : Host.Outcome State Fault Refusal) (busy : s.host.hphase ≠ .hNone) :
    s.hostCall k = .refused .hostInsideXfer := if_neg busy

theorem withSlot_refused {n : Byte} (k : Fin 32 → Host.Outcome State Fault Refusal) (above : slotIndexOk n = false) :
    withSlot n k = .refused .slotIndexAbove31 := by
  have h : ¬ n.toNat < 32 := by simpa [slotIndexOk] using above
  exact dif_neg h

theorem hostCall_withSlot_refused {s : State} {n : Byte} (k : Fin 32 → Host.Outcome State Fault Refusal) (free : s.host.hphase = .hNone)
    (above : slotIndexOk n = false) : s.hostCall (withSlot n k) = .refused .slotIndexAbove31 := by
  rw [State.hostCall_of_free _ free, withSlot_refused k above]

/-- An operation on a slot answers, when `k` does for every slot, unless its index is above 31. -/
theorem withSlot_refusal {n : Byte} {k : Fin 32 → Host.Outcome State Fault Refusal} {r : Refusal} (h : withSlot n k = .refused r)
    (answers : ∀ i, k i ≠ .refused r) : r = .slotIndexAbove31 := by
  unfold withSlot at h
  split at h
  · exact absurd h (answers _)
  · cases h; rfl

/-! ### The one queue an operation changes -/

/-- One queue of one slot replaced and one result returned. -/
def QueueEffect (s t : State) (i : Fin 32) (d : Side) : Prop := ∃ items r, t = (s.setQueue i d items).ret r

theorem QueueEffect.ret (s : State) (i : Fin 32) (d : Side) (r : Result) : QueueEffect s (s.ret r) i d :=
  ⟨s.queue i d, r, by rw [s.setQueue_queue]⟩

theorem qpush_effect (s : State) (i : Fin 32) (d : Side) (x : Event) : QueueEffect s (s.qpush i d x) i d := by
  unfold State.qpush
  split
  · exact .ret s i d _
  · exact ⟨_, _, rfl⟩

theorem qpop_effect (s : State) (i : Fin 32) (d : Side) : QueueEffect s (s.qpop i d) i d := by
  unfold State.qpop
  split
  · exact .ret s i d _
  · exact ⟨_, _, rfl⟩

theorem qpeek_effect (s : State) (i : Fin 32) (d : Side) : QueueEffect s (s.qpeek i d) i d := by
  unfold State.qpeek
  split <;> exact .ret s i d _

theorem qdiscard_effect (s : State) (i : Fin 32) (d : Side) : QueueEffect s (s.qdiscard i d) i d := ⟨_, _, rfl⟩

theorem slotSend_effect (s : State) (i : Fin 32) (e : Event) : QueueEffect s (s.slotSend i e) i .tx := by
  unfold State.slotSend
  split
  · exact .ret s i .tx _
  · exact ⟨_, _, rfl⟩

theorem slotRecv_effect (s : State) (i : Fin 32) : QueueEffect s (s.slotRecv i) i .rx := by
  unfold State.slotRecv
  split
  · exact .ret s i .rx _
  · exact ⟨_, _, rfl⟩

theorem slotPollEnd_effect (s : State) (i : Fin 32) (r : Frame) : QueueEffect s (s.slotPollEnd i r) i .rx := by
  unfold State.slotPollEnd
  split
  · split
    · exact .ret s i .rx _
    · exact ⟨_, _, rfl⟩
  · exact .ret s i .rx _

theorem QueueEffect.frame {s t : State} {i : Fin 32} {d : Side} (h : QueueEffect s t i d) :
    DriverUntouched s t ∧ (∃ r, t.host.returned = s.host.returned ++ [r]) ∧
      ∀ j : Fin 32, t.slots[j].cs = s.slots[j].cs ∧ ∀ e, ¬ (j = i ∧ e = d) → t.queue j e = s.queue j e := by
  obtain ⟨items, r, rfl⟩ := h
  refine ⟨.setQueue_ret s i d items r, ⟨r, rfl⟩, fun j => ⟨s.setQueue_cs i j d items, fun e other => ?_⟩⟩
  rw [State.queue_ret]
  exact s.queue_setQueue_other items fun ⟨hi, hd⟩ => other ⟨hi.symm, hd.symm⟩

/-- The frame of an operation that runs on the slot its index names. -/
theorem withSlot_frame {s t : State} {n : Byte} {d : Side} {f : Fin 32 → State}
    (h : s.hostCall (withSlot n fun i => .next (f i)) = .next t) (effect : ∀ i, QueueEffect s (f i) i d) :
    DriverUntouched s t ∧ (∃ r, t.host.returned = s.host.returned ++ [r]) ∧
      ∀ j : Fin 32, t.slots[j].cs = s.slots[j].cs ∧ ∀ e, ¬ (j.val = n.toNat ∧ e = d) → t.queue j e = s.queue j e := by
  obtain ⟨-, slot⟩ := State.hostCall_next h
  obtain ⟨i, hi, answer⟩ := withSlot_next slot
  cases answer
  obtain ⟨untouched, returned, slots⟩ := (effect i).frame
  refine ⟨untouched, returned, fun j => ⟨(slots j).1, fun e other => (slots j).2 e fun ⟨hj, he⟩ => other ⟨?_, he⟩⟩⟩
  rw [hj, hi]

end Sys2Proof.Machine

namespace Sys2Proof

open Sys2Proof.Machine

/-- Settles O20: the instructions with an ill-formed reading are those on a slot. -/
theorem slotIndexAbove31IsRefused : Obligations.SlotIndexAbove31IsRefused := by
  intro i s free ill
  cases i with
  | qpush q x => exact hostCall_withSlot_refused _ free ill
  | qpop q => exact hostCall_withSlot_refused _ free ill
  | qpeek q => exact hostCall_withSlot_refused _ free ill
  | qdiscard q => exact hostCall_withSlot_refused _ free ill
  | slotPoll n => exact hostCall_withSlot_refused _ free ill
  | slotSend n e => exact hostCall_withSlot_refused _ free ill
  | slotRecv n => exact hostCall_withSlot_refused _ free ill
  | _ => cases ill

/-- Settles O27: every meaning but that of the control word is a call of HOST's. -/
theorem operationInsideXferIsRefused : Obligations.OperationInsideXferIsRefused := by
  intro i s busy op
  cases i with
  | cswSelect n u => exact absurd rfl op
  | _ => exact State.hostCall_inside _ busy

/-- Settles O14, by the items of the queue. -/
theorem peekThenDiscardIsPop : Obligations.PeekThenDiscardIsPop := by
  intro q s t₁ t₂ u peek discard pop
  obtain ⟨free, slot⟩ := State.hostCall_next peek
  obtain ⟨i, hi, rfl⟩ : ∃ i : Fin 32, i.val = q.slot.toNat ∧ t₁ = s.qpeek i q.side := by
    obtain ⟨i, hi, answer⟩ := withSlot_next slot
    cases answer
    exact ⟨i, hi, rfl⟩
  have free₁ : (s.qpeek i q.side).host.hphase = .hNone := by rw [(qpeek_untouched s i q.side).host]; exact free
  rw [exec_qdiscard_outside_xfer free₁ hi.symm] at discard
  rw [exec_qpop_outside_xfer free hi.symm] at pop
  cases discard
  cases pop
  cases items : s.queue i q.side with
  | nil => rw [State.qpeek_of_nil items, State.qdiscard_of_nil (s := s.ret .empty) items, State.qpop_of_nil items]; exact ⟨rfl, rfl⟩
  | cons x rest =>
    rw [State.qpeek_of_cons items, State.qdiscard_of_cons (s := s.ret (.event x)) items, State.qpop_of_cons items]
    exact ⟨rfl, rfl⟩

/-- Settles O40: each operation replaces the one queue it names. -/
theorem queueAndSlotOperationsFrame : Obligations.QueueAndSlotOperationsFrame := by
  constructor
  · rintro i q s t (⟨x, rfl⟩ | rfl | rfl | rfl) h
    · exact withSlot_frame h fun i => qpush_effect s i q.side x
    · exact withSlot_frame h fun i => qpop_effect s i q.side
    · exact withSlot_frame h fun i => qpeek_effect s i q.side
    · exact withSlot_frame h fun i => qdiscard_effect s i q.side
  · rintro n i d s t (⟨rfl, e, rfl⟩ | ⟨rfl, rfl⟩) h
    · exact withSlot_frame h fun i => slotSend_effect s i e
    · exact withSlot_frame h fun i => slotRecv_effect s i

end Sys2Proof
end

section
/-! XFER and SLOT_POLL at both levels: what they answer, what they leave, and what they leave alone (43_transfer.md R130, R131, R137,
44_slot.md R141, R144). -/

namespace Sys2Proof.Machine

/-! ### Which answer XFER and SLOT_POLL give -/

theorem State.xfer_above31 (s : State) (caller : Caller) {c : Byte} (p : Frame) (above : 31 < c.toNat) :
    s.xfer caller c p = .next (s.ret (.error (.busError .invalidChipSelect))) := if_pos above

theorem State.xfer_unclean {s : State} (caller : Caller) {c : Byte} (p : Frame) (below : ¬ 31 < c.toNat) (unclean : s.clean = false) :
    s.xfer caller c p = .refused .driverNotClean := by
  simp [State.xfer, below, unclean]

theorem exec_xfer_outside_xfer {s : State} (c : Byte) (p : Frame) (free : s.host.hphase = .hNone) :
    exec (.xfer c p) s = s.xfer .xfer c p := State.hostCall_of_free _ free

theorem exec_slotPoll_outside_xfer {s : State} {n : Byte} {i : Fin 32} (free : s.host.hphase = .hNone) (hi : n.toNat = i.val) :
    exec (.slotPoll n) s = s.slotPoll i := State.hostCall_withSlot _ free hi

theorem State.clean_outside {s : State} (clean : s.clean = true) : s.host.hphase = .hNone := by
  obtain ⟨-, -, -, -, -, outside⟩ := s.clean_iff.1 clean
  exact outside

theorem State.slotPoll_unclean {s : State} (i : Fin 32) (unclean : s.clean = false) : s.slotPoll i = .refused .driverNotClean :=
  State.xfer_unclean _ _ (chipSelect_le _) ((pollPopped_untouched s i).clean.trans unclean)

theorem State.slotPoll_atomic {s : State} (i : Fin 32) (clean : s.clean = true) (ha : s.atomicXfer = true) : s.slotPoll i =
    .next ((s.pollPopped i).xferAtomic (.slotPoll i) (s.slots[i].cs.setWidth 8) (serialize (s.pollEvent i))) :=
  have popped := pollPopped_untouched s i
  State.xfer_atomic _ _ (chipSelect_le _) (popped.clean.trans clean) (popped.atomicXfer.trans ha)

theorem State.slotPoll_enter {s : State} (i : Fin 32) (clean : s.clean = true) (ha : s.atomicXfer = false) : s.slotPoll i =
    .next ((s.pollPopped i).xferEnter (.slotPoll i) (s.slots[i].cs.setWidth 8) (serialize (s.pollEvent i))) :=
  have popped := pollPopped_untouched s i
  State.xfer_enter _ _ (chipSelect_le _) (popped.clean.trans clean) (popped.atomicXfer.trans ha)

/-! ### The end of a transaction -/

theorem xferFinish_busLog (s : State) (caller : Caller) (c : Byte) (p r : Frame) :
    (s.xferFinish caller c p r).busLog = s.busLog ++ [⟨c, p, r⟩] := (xferFinish_untouched s caller c p r).busLog

theorem xferFinish_host (s : State) (caller : Caller) (c : Byte) (p r : Frame) :
    (s.xferFinish caller c p r).host = { s.host with returned := (s.xferFinish caller c p r).host.returned } :=
  (xferFinish_untouched s caller c p r).host

/-- What HOST gets for an XFER of its own. -/
theorem xferFinish_xfer (s : State) (c : Byte) (p r : Frame) : s.xferFinish .xfer c p r =
    (s.logTransaction c p r).busFaultTaken.ret (if s.busFaultNow = true then .error (.busError .fault) else .frame r) := by
  cases fault : s.busFaultNow with
  | true => exact State.xferFinish_fault _ _ _ _ fault
  | false => exact State.xferFinish_ok _ _ _ _ fault

/-- The outcomes of SLOT_POLL `i` on the frame `r` its transfer returned, in the order tested (44_slot.md R141). -/
def SlotPollEnding (s t : State) (i : Fin 32) (r : Frame) : Prop :=
  if r ∈ s.params.invalidFrames then
    t.host.returned = s.host.returned ++ [.error .invalidMessage] ∧ t.queue i .rx = s.queue i .rx
  else if (s.queue i .rx).length = s.params.qcap then
    t.host.returned = s.host.returned ++ [.error .rxOverflow] ∧ t.queue i .rx = s.queue i .rx
  else
    t.host.returned = s.host.returned ++ [.ok] ∧ t.queue i .rx = s.queue i .rx ++ [deserialize r]

/-- The same with the bus fault, which is tested first (44_slot.md R144). -/
def SlotPollOutcome (s t : State) (i : Fin 32) (r : Frame) : Prop :=
  if s.busFaultNow = true then
    t.host.returned = s.host.returned ++ [.error (.busError .fault)] ∧ t.queue i .rx = s.queue i .rx
  else SlotPollEnding s t i r

theorem slotPollEnd_ending (s : State) (i : Fin 32) (r : Frame) :
    (s.slotPollEnd i r).queue i .tx = s.queue i .tx ∧ SlotPollEnding s (s.slotPollEnd i r) i r := by
  unfold SlotPollEnding
  split_ifs with invalid full
  · rw [State.slotPollEnd_invalid invalid]
    exact ⟨rfl, rfl, rfl⟩
  · rw [State.slotPollEnd_full invalid full]
    exact ⟨rfl, rfl, rfl⟩
  · rw [State.slotPollEnd_ok invalid full]
    have pushed := s.queue_setQueue_same i .rx (s.queue i .rx ++ [deserialize r])
    have other : (s.setQueue i .rx (s.queue i .rx ++ [deserialize r])).queue i .tx = s.queue i .tx :=
      s.queue_setQueue_other _ (by simp)
    exact ⟨other, rfl, pushed⟩

theorem xferFinish_slotPoll (s : State) (i : Fin 32) (c : Byte) (p r : Frame) :
    (s.xferFinish (.slotPoll i) c p r).queue i .tx = s.queue i .tx ∧ SlotPollOutcome s (s.xferFinish (.slotPoll i) c p r) i r := by
  cases fault : s.busFaultNow with
  | true =>
    rw [State.xferFinish_fault _ _ _ _ fault, SlotPollOutcome, if_pos fault]
    exact ⟨rfl, rfl, rfl⟩
  | false =>
    rw [State.xferFinish_ok _ _ _ _ fault, SlotPollOutcome, if_neg (by simp [fault])]
    exact slotPollEnd_ending (s.logTransaction c p r).busFaultTaken i r

/-! ### The frame ENV answers with -/

/-- Bit-time `k` of the frame received carries the `k`-th level drawn (20_memory.md R44). -/
theorem frameBit_misoFrame (o : Oracle) {k : Nat} (hk : k < 64) : frameBit o.misoFrame k = o.misoBit k := by
  by_cases first : k < 32
  · obtain ⟨word0, -⟩ := frameBit_frameOfWords (o.misoWord 0 32) (o.misoWord 32 32) first
    rw [Oracle.misoFrame, word0, getLsbD_misoWord o 0 (by omega) (Nat.le_refl 32)]
    congr 1
    omega
  · obtain ⟨j, rfl⟩ := Nat.exists_eq_add_of_le (Nat.not_lt.1 first)
    have hj : j < 32 := by omega
    obtain ⟨-, word1⟩ := frameBit_frameOfWords (o.misoWord 0 32) (o.misoWord 32 32) hj
    rw [Oracle.misoFrame, word1, getLsbD_misoWord o 32 (by omega) (Nat.le_refl 32)]
    congr 1
    omega

/-! ### What a transfer leaves alone -/

/-- What neither XFER nor SLOT_POLL touches, the slots apart (43_transfer.md R130). -/
structure TransferKeeps (s t : State) : Prop where
  params : t.params = s.params
  chosenLevel : t.chosenLevel = s.chosenLevel
  scr : t.scr = s.scr
  lines : t.lines = s.lines
  en0 : t.cse.en0 = s.cse.en0
  en1 : t.mcg.en1 = s.mcg.en1
  calls : t.host.calls = s.host.calls
  turns : t.oracle.turns = s.oracle.turns
  doutDraws : t.oracle.doutDraws = s.oracle.doutDraws

theorem TransferKeeps.trans {s t u : State} (h : TransferKeeps s t) (g : TransferKeeps t u) : TransferKeeps s u := by
  obtain ⟨a1, a2, a3, a4, a5, a6, a7, a8, a9⟩ := h
  obtain ⟨b1, b2, b3, b4, b5, b6, b7, b8, b9⟩ := g
  exact ⟨b1.trans a1, b2.trans a2, b3.trans a3, b4.trans a4, b5.trans a5, b6.trans a6, b7.trans a7, b8.trans a8, b9.trans a9⟩

theorem DriverUntouched.transferKeeps {s t : State} (h : DriverUntouched s t) : TransferKeeps s t where
  params := h.params
  chosenLevel := h.chosenLevel
  scr := h.scr
  lines := h.lines
  en0 := by rw [h.cse]
  en1 := by rw [h.mcg]
  calls := by rw [h.host]
  turns := by rw [h.oracle]
  doutDraws := by rw [h.oracle]

theorem xferAtomic_transferKeeps (s : State) (caller : Caller) (c : Byte) (p : Frame) : TransferKeeps s (s.xferAtomic caller c p) :=
  have driver : TransferKeeps s ((s.driverAfterXfer c p).logTransaction c p s.oracle.misoFrame).busFaultTaken :=
    ⟨rfl, rfl, rfl, rfl, rfl, rfl, rfl, rfl, rfl⟩
  driver.trans (xferFinish_untouched _ _ _ _ _).transferKeeps

theorem xfer_transferKeeps {s t : State} {caller : Caller} {c : Byte} {p : Frame} (h : s.xfer caller c p = .next t) : TransferKeeps s t := by
  rcases xfer_next h with ⟨-, rfl⟩ | ⟨-, -, -, rfl⟩ | ⟨-, -, -, rfl⟩
  · exact (DriverUntouched.ret s _).transferKeeps
  · exact xferAtomic_transferKeeps s caller c p
  · exact ⟨rfl, rfl, rfl, rfl, rfl, rfl, rfl, rfl, rfl⟩

/-- A chip-select kept, and every slot but the one polled. -/
def SlotsKept (s t : State) (polled : Fin 32 → Prop) : Prop :=
  ∀ j : Fin 32, t.slots[j].cs = s.slots[j].cs ∧ (¬ polled j → t.slots[j] = s.slots[j])

theorem SlotsKept.of_eq {s t : State} (polled : Fin 32 → Prop) (h : t.slots = s.slots) : SlotsKept s t polled :=
  fun j => by rw [h]; exact ⟨rfl, fun _ => rfl⟩

theorem SlotsKept.trans {s t u : State} {polled : Fin 32 → Prop} (h : SlotsKept s t polled) (g : SlotsKept t u polled) :
    SlotsKept s u polled := fun j => ⟨(g j).1.trans (h j).1, fun other => ((g j).2 other).trans ((h j).2 other)⟩

theorem SlotsKept.setQueue (s : State) (i : Fin 32) (d : Side) (items : List Event) : SlotsKept s (s.setQueue i d items) (· = i) :=
  fun j => ⟨s.setQueue_cs i j d items, fun other => by rw [State.setQueue_getElem, if_neg (Ne.symm other)]⟩

/-- The slot whose receive queue the end of a transfer may change. -/
def Caller.polls : Caller → Fin 32 → Prop
  | .xfer, _ => False
  | .slotPoll i, j => j = i

theorem xferReturn_slotsKept (s : State) (caller : Caller) (x : Except BusCause Frame) : SlotsKept s (s.xferReturn caller x) caller.polls := by
  cases x with
  | error cause => exact .of_eq _ rfl
  | ok r =>
    cases caller with
    | xfer => exact .of_eq _ rfl
    | slotPoll i =>
      obtain ⟨items, r', ended⟩ := slotPollEnd_effect s i r
      show SlotsKept s (s.slotPollEnd i r) _
      rw [ended]
      exact .setQueue s i .rx items

theorem xfer_slotsKept {s t : State} {caller : Caller} {c : Byte} {p : Frame} (h : s.xfer caller c p = .next t) :
    SlotsKept s t caller.polls := by
  rcases xfer_next h with ⟨-, rfl⟩ | ⟨-, -, -, rfl⟩ | ⟨-, -, -, rfl⟩
  · exact .of_eq _ rfl
  · have before : SlotsKept s ((s.driverAfterXfer c p).logTransaction c p s.oracle.misoFrame).busFaultTaken caller.polls := .of_eq _ rfl
    exact before.trans (xferReturn_slotsKept _ caller _)
  · exact .of_eq _ rfl

theorem pollPopped_slotsKept (s : State) (i : Fin 32) : SlotsKept s (s.pollPopped i) (· = i) := by
  rw [s.pollPopped_eq i]
  exact .setQueue s i .tx _

/-! ### After a whole transaction -/

theorem xferAtomic_clean {s : State} (caller : Caller) (c : Byte) (p : Frame) (free : s.host.hphase = .hNone) :
    (s.xferAtomic caller c p).clean = true := by
  have before : ((s.driverAfterXfer c p).logTransaction c p s.oracle.misoFrame).busFaultTaken.clean = true :=
    (State.clean_iff _).2 ⟨⟨.inl rfl, .inl rfl⟩, rfl, rfl, rfl, rfl, free⟩
  rw [State.xferAtomic, (xferFinish_untouched _ caller c p _).clean, before]

end Sys2Proof.Machine

namespace Sys2Proof

open Sys2Proof.Machine

/-- Settles O21: outside XFER the check of the chip-select comes first. -/
theorem xferAbove31IsInvalidChipSelect : Obligations.XferAbove31IsInvalidChipSelect := by
  intro c p s free above
  rw [exec_xfer_outside_xfer c p free, s.xfer_above31 .xfer p above]

/-- Settles O24: SLOT_POLL refuses as the XFER it calls, to a chip-select in range. -/
theorem uncleanDriverIsRefused : Obligations.UncleanDriverIsRefused := by
  refine fun s free unclean => ⟨fun c p below => ?_, fun n below => ?_⟩
  · rw [exec_xfer_outside_xfer c p free, State.xfer_unclean .xfer p (Nat.not_lt.2 below) unclean]
  · rw [exec_slotPoll_outside_xfer (i := ⟨n.toNat, by omega⟩) free rfl, State.slotPoll_unclean _ unclean]

/-- Settles O18: one atomic transaction from the state with the transmit queue popped, and the outcome of its end. -/
theorem slotPollOutcomesAtTransactionLevel : Obligations.SlotPollOutcomesAtTransactionLevel := by
  intro n i s hi clean level
  have free := State.clean_outside clean
  have popped := s.pollPopped_eq i
  have untouched := pollPopped_untouched s i
  obtain ⟨tx, outcome⟩ := xferFinish_slotPoll ((s.pollPopped i).driverAfterXfer (s.slots[i].cs.setWidth 8) (serialize (s.pollEvent i))) i
    (s.slots[i].cs.setWidth 8) (serialize (s.pollEvent i)) (s.pollPopped i).oracle.misoFrame
  have sent : (s.pollPopped i).queue i .tx = (s.queue i .tx).tail := by rw [popped]; exact s.queue_setQueue_same i .tx _
  have kept : (s.pollPopped i).queue i .rx = s.queue i .rx := by rw [popped]; exact s.queue_setQueue_other _ (by simp)
  rw [exec_slotPoll_outside_xfer free hi, State.slotPoll_atomic i clean (s.level_transaction_iff.1 level)]
  refine ⟨_, rfl, ?_, tx.trans sent, xferAtomic_clean _ _ _ (by rw [untouched.host]; exact free), ?_⟩
  · rw [← s.pollEvent_eq i, ← untouched.busLog, ← untouched.oracle]
    exact xferFinish_busLog _ _ _ _ _
  · rw [← kept, ← untouched.params, ← untouched.oracle]
    have returned : (s.pollPopped i).host.returned = s.host.returned := by rw [popped]; rfl
    have fault : (s.pollPopped i).busFaultNow = s.busFaultNow := by rw [popped]; rfl
    rw [← returned, ← fault]
    exact outcome

/-- Settles O19: the entry of XFER from the state with the transmit queue popped. -/
theorem slotPollEntersTransferAtWaveformLevel : Obligations.SlotPollEntersTransferAtWaveformLevel := by
  intro n i s hi clean level
  rw [exec_slotPoll_outside_xfer (State.clean_outside clean) hi, State.slotPoll_enter i clean (s.level_waveform_iff.1 level),
    s.pollPopped_eq i, ← s.pollEvent_eq i]
  have sent : (s.setQueue i .tx (s.queue i .tx).tail).queue i .tx = (s.queue i .tx).tail := s.queue_setQueue_same i .tx _
  have kept : (s.setQueue i .tx (s.queue i .tx).tail).queue i .rx = s.queue i .rx := s.queue_setQueue_other _ (by simp)
  exact ⟨_, rfl, sent, kept, rfl, rfl, rfl, rfl, rfl, rfl, rfl, rfl, rfl⟩

/-- Settles O22: the atomic transaction received the frame of the 64 levels. -/
theorem xferReturnsTheSampledFrame : Obligations.XferReturnsTheSampledFrame := by
  intro c p s below clean level
  refine ⟨s.oracle.misoFrame, s.xferAtomic .xfer c p, ?_, fun k hk => frameBit_misoFrame s.oracle hk, xferFinish_busLog _ _ _ _ _, ?_⟩
  · rw [exec_xfer_outside_xfer c p (State.clean_outside clean),
      State.xfer_atomic .xfer p (Nat.not_lt.2 below) clean (s.level_transaction_iff.1 level)]
  · rw [State.xferAtomic, xferFinish_xfer]
    rfl

/-- Settles O23: at the transaction level the answer is the one atomic step, whose registers R130 lists. -/
theorem xferLeavesTheDriverClean : Obligations.XferLeavesTheDriverClean := by
  intro c p s t below level h
  obtain ⟨free, answer⟩ := State.hostCall_next h
  rcases xfer_next answer with ⟨above, -⟩ | ⟨-, clean, -, rfl⟩ | ⟨-, -, waveform, -⟩
  · omega
  · have index : ((c.setWidth 5 : BitVec 5)).toNat = c.toNat := by rw [BitVec.toNat_setWidth]; omega
    refine ⟨xferAtomic_clean .xfer c p free, ?_⟩
    rw [State.xferAtomic, xferFinish_xfer]
    exact ⟨rfl, congrArg frameWord1 rfl, rfl, rfl, rfl, rfl, index, rfl, rfl, rfl, rfl, rfl, rfl, rfl,
      rfl, rfl, rfl, rfl, rfl, rfl⟩
  · rw [s.level_transaction_iff.1 level] at waveform
    cases waveform

/-- Settles O41: XFER's frame, and SLOT_POLL's as the pop of its own queue before an XFER that may push into it. -/
theorem transferFrame : Obligations.TransferFrame := by
  intro i s t transfer h
  obtain ⟨keeps, slots⟩ : TransferKeeps s t ∧ SlotsKept s t fun j => ∃ n, i = .slotPoll n ∧ j.val = n.toNat := by
    rcases transfer with ⟨c, p, rfl⟩ | ⟨n, rfl⟩
    · obtain ⟨-, answer⟩ := State.hostCall_next h
      exact ⟨xfer_transferKeeps answer, fun j => ⟨(xfer_slotsKept answer j).1, fun _ => (xfer_slotsKept answer j).2 id⟩⟩
    · obtain ⟨-, slot⟩ := State.hostCall_next h
      obtain ⟨k, hk, answer⟩ := withSlot_next slot
      have kept : SlotsKept s t (· = k) := (pollPopped_slotsKept s k).trans (xfer_slotsKept answer)
      refine ⟨(pollPopped_untouched s k).transferKeeps.trans (xfer_transferKeeps answer), fun j => ⟨(kept j).1, fun other => ?_⟩⟩
      exact (kept j).2 fun same => other ⟨n, rfl, same ▸ hk⟩
  obtain ⟨params, chosenLevel, scr, lines, en0, en1, calls, turns, doutDraws⟩ := keeps
  refine ⟨params, chosenLevel, State.level_congr chosenLevel params en0 en1, scr, lines, en0, en1, calls, turns, doutDraws, fun j => ?_⟩
  exact ⟨(slots j).1, fun other => (slots j).2 fun ⟨n, hn, hj⟩ => other n hn hj⟩

end Sys2Proof
end

section
/-! One step of each agent, case by case: HOST's sub-steps (43_transfer.md R133, R135), CSE, MCG, SCR and ENV (42_waveform.md R100 to
R117), and the instruction a call or a control word is (20_memory.md R53). -/

namespace Sys2Proof.Machine

/-- Taking the turn writes two fields of the oracle alone. -/
theorem exists_turnTaken (s : State) :
    ∃ ts n, s.turnTaken = { s with oracle := { s.oracle with turns := ts, turnDraws := n } } := by
  unfold State.turnTaken
  split
  · exact ⟨_, _, rfl⟩
  · exact ⟨_, _, rfl⟩

/-! ### HOST -/

theorem step_ctl {s : State} (turn : s.turn = .host) (phase : s.host.hphase = .hCtl) : step s = .next s.turnTaken.hostCtl := by
  rw [step_subStep turn (by simp [phase]), State.hostSubStep, s.turnTaken_host, phase]

theorem step_w0 {s : State} (turn : s.turn = .host) (phase : s.host.hphase = .hW0) : step s = .next s.turnTaken.hostW0 := by
  rw [step_subStep turn (by simp [phase]), State.hostSubStep, s.turnTaken_host, phase]

theorem step_w1 {s : State} (turn : s.turn = .host) (phase : s.host.hphase = .hW1) : step s = .next s.turnTaken.hostW1 := by
  rw [step_subStep turn (by simp [phase]), State.hostSubStep, s.turnTaken_host, phase]

theorem hostSubStep_poll {s : State} (phase : s.host.hphase = .hR0 ∨ s.host.hphase = .hR1) (empty : s.mcg.rxf = []) :
    s.hostSubStep = s.hostPoll := by
  rcases phase with phase | phase <;> simp [State.hostSubStep, phase, State.hostR0, State.hostR1, empty]

theorem hostSubStep_r0 {s : State} {w : Word32} {rest : List Word32} (phase : s.host.hphase = .hR0) (rxf : s.mcg.rxf = w :: rest) :
    s.hostSubStep = { s with mcg := { s.mcg with rxf := rest }, host := { s.host with hR0 := w, hphase := .hR1 } } := by
  simp only [State.hostSubStep, phase, State.hostR0, rxf]

/-- HOST's last read, on behalf of whatever it serves. -/
theorem step_last_read {s : State} {w : Word32} {rest : List Word32} (turn : s.turn = .host) (phase : s.host.hphase = .hR1)
    (rxf : s.mcg.rxf = w :: rest) : step s = .next ((s.turnTaken.lastWordTaken rest).xferFinish s.host.caller s.host.hCs
      (frameOfWords s.host.hW0 s.host.hW1) (frameOfWords s.host.hR0 w)) := by
  obtain ⟨ts, n, taken⟩ := exists_turnTaken s
  rw [step_subStep turn (by simp [phase]), taken]
  exact congrArg Host.Outcome.next (State.hostSubStep_r1 (s := { s with oracle := { s.oracle with turns := ts, turnDraws := n } }) phase rxf)

theorem step_call {s : State} {c : Call} {rest : List Call} {i : Instr} (turn : s.turn = .host) (free : s.host.hphase = .hNone)
    (calls : s.host.calls = c :: rest) (hi : decodeCall c = .ok i) :
    step s = exec i { s.turnTaken with host := { s.host with calls := rest } } := by
  unfold step State.fetch
  simp [turn, State.hostTurn, free, calls, hi]

theorem step_call_refused {s : State} {c : Call} {rest : List Call} {r : Refusal} (turn : s.turn = .host)
    (free : s.host.hphase = .hNone) (calls : s.host.calls = c :: rest) (hr : decodeCall c = .error r) : step s = .refused r := by
  unfold step State.fetch
  simp [turn, State.hostTurn, free, calls, hr]

theorem step_no_call {s : State} (turn : s.turn = .host) (free : s.host.hphase = .hNone) (calls : s.host.calls = []) :
    step s = .next s.turnTaken := by
  unfold step State.fetch
  simp [turn, State.hostTurn, free, calls]

theorem decodeCall_of_ok {c : Call} {i : Instr} {left : List Byte} (format : c.format = .op ∨ c.format = .frame)
    (h : decode c.format c.bytes = .ok (i, left)) : decodeCall c = .ok i := by
  unfold decodeCall
  rcases format with f | f <;> rw [f] at h ⊢ <;> simp only [h]

theorem decodeCall_of_error {c : Call} {e : DecodeError} (format : c.format = .op ∨ c.format = .frame)
    (h : decode c.format c.bytes = .error e) : decodeCall c = .error (.undecodable e) := by
  unfold decodeCall
  rcases format with f | f <;> rw [f] at h ⊢ <;> simp only [h]

theorem decodeCall_of_channel {c : Call} (format : c.format = .csw ∨ c.format = .dw) : decodeCall c = .error .wordChannelAccess := by
  unfold decodeCall
  rcases format with f | f <;> rw [f]

/-! ### CSE -/

theorem exec_cswSelect_eq (n : BitVec 5) (u : BitVec 27) (s : State) :
    exec (.cswSelect n u) s = .next s ∨ exec (.cswSelect n u) s = .next { s with cse := s.cse.select n } := by
  show execCswSelect n u s = _ ∨ execCswSelect n u s = _
  unfold execCswSelect
  split
  · exact .inr rfl
  · exact .inl rfl

theorem cswWord_index (n : BitVec 5) (u : BitVec 27) : (cswWord n u).extractLsb' 0 5 = n :=
  (Instr.cswSelect.inj (decodeCsw_cswWord n u)).1

theorem step_cse_select {s : State} {w : Word32} {rest : List Word32} (turn : s.turn = .cse) (pre : s.preCseSelect = true)
    (ctlf : s.cse.ctlf = w :: rest) : step s = .next { s.turnTaken with cse := s.cse.select (w.extractLsb' 0 5) } := by
  have pre' := s.preCseSelect_turnTaken.trans pre
  have ctlf' : s.turnTaken.cse.ctlf = w :: rest := by rw [s.turnTaken_cse, ctlf]
  rw [step_select turn pre ctlf, exec_decodeCsw pre' ctlf', s.turnTaken_cse]

theorem preCseSelect_hold {s : State} (phase : s.cse.phase0 = .cHold) : s.preCseSelect = false := by
  simp [State.preCseSelect, phase]

theorem cseRelease_of_done {s : State} (running : s.cse.en0 = true) (phase : s.cse.phase0 = .cHold) (done : s.done = true) :
    s.cseRelease = { s with done := false, cse := { s.cse with csl := Config.csIdle, csActive := false, phase0 := .cIdle } } :=
  if_pos (s.preCseRelease_iff.2 ⟨running, phase, done⟩)

theorem cseRelease_held {s : State} (h : ¬ (s.cse.en0 = true ∧ s.cse.phase0 = .cHold ∧ s.done = true)) : s.cseRelease = s :=
  if_neg fun pre => h (s.preCseRelease_iff.1 pre)

theorem step_cse_held {s : State} (turn : s.turn = .cse)
    (h : s.cse.en0 = false ∨ (s.cse.phase0 = .cIdle ∧ s.cse.ctlf = []) ∨ (s.cse.phase0 = .cHold ∧ s.done = false)) :
    step s = .next s.turnTaken := by
  have noSelect : s.preCseSelect = false := by
    rw [← Bool.not_eq_true, s.preCseSelect_iff]
    rintro ⟨running, idle, waiting⟩
    rcases h with stopped | ⟨-, empty⟩ | ⟨hold, -⟩ <;> simp_all
  have noRelease : ¬ (s.cse.en0 = true ∧ s.cse.phase0 = .cHold ∧ s.done = true) := by
    rintro ⟨running, hold, up⟩
    rcases h with stopped | ⟨idle, -⟩ | ⟨-, down⟩ <;> simp_all
  rw [step_release turn noSelect, cseRelease_held (by simpa using noRelease)]

/-! ### SCR -/

theorem scrStep_arm {s : State} (running : s.scr.en2 = true) (phase : s.scr.phase2 = .sIdle) (sel : s.lines.sSel = s.params.sSelActive) :
    s.scrStep = s.scrArm := by
  simp [State.scrStep, State.preScrArm, State.slaveSelected, running, phase, sel]

theorem scrStep_shift {s : State} (running : s.scr.en2 = true) (phase : s.scr.phase2 = .sWaitShift)
    (sel : s.lines.sSel = s.params.sSelActive) (sck : s.lines.sSck = !s.params.sckIdle) : s.scrStep = s.scrShift := by
  simp [State.scrStep, State.preScrArm, State.preScrShift, State.slaveSelected, running, phase, sel, sck]

theorem scrStep_sample {s : State} (running : s.scr.en2 = true) (phase : s.scr.phase2 = .sWaitSample)
    (sel : s.lines.sSel = s.params.sSelActive) (sck : s.lines.sSck = s.params.sckIdle) : s.scrStep = s.scrSample := by
  simp [State.scrStep, State.preScrArm, State.preScrShift, State.preScrSample, State.slaveSelected, running, phase, sel, sck]

theorem scrStep_deselect {s : State} (running : s.scr.en2 = true) (phase : s.scr.phase2 ≠ .sIdle)
    (sel : s.lines.sSel ≠ s.params.sSelActive) : s.scrStep = s.scrDeselect := by
  simp [State.scrStep, State.preScrArm, State.preScrShift, State.preScrSample, State.preScrDeselect, State.slaveSelected, running, phase,
    sel]

/-- SCR is stopped, or waits in its phase for a line to move. -/
theorem scrStep_held {s : State} (h : s.scr.en2 = false ∨ (s.scr.phase2 = .sIdle ∧ s.lines.sSel ≠ s.params.sSelActive) ∨
      (s.scr.phase2 = .sWaitShift ∧ s.lines.sSel = s.params.sSelActive ∧ s.lines.sSck = s.params.sckIdle) ∨
      (s.scr.phase2 = .sWaitSample ∧ s.lines.sSel = s.params.sSelActive ∧ s.lines.sSck = !s.params.sckIdle)) : s.scrStep = s := by
  rcases h with stopped | ⟨phase, sel⟩ | ⟨phase, sel, sck⟩ | ⟨phase, sel, sck⟩
  · simp [State.scrStep, State.preScrArm, State.preScrShift, State.preScrSample, State.preScrDeselect, stopped]
  · simp [State.scrStep, State.preScrArm, State.preScrShift, State.preScrSample, State.preScrDeselect, State.slaveSelected, phase, sel]
  · simp [State.scrStep, State.preScrArm, State.preScrShift, State.preScrSample, State.preScrDeselect, State.slaveSelected, phase, sel, sck]
  · simp [State.scrStep, State.preScrArm, State.preScrShift, State.preScrSample, State.preScrDeselect, State.slaveSelected, phase, sel, sck]

end Sys2Proof.Machine

namespace Sys2Proof

open Sys2Proof.Machine

/-- Settles O25, row by row of R133. -/
theorem hostSubStepsFollowTheTable : Obligations.HostSubStepsFollowTheTable := by
  refine ⟨fun c p s level clean below => ?_, fun s turn phase => ?_, fun s turn phase => ?_, fun s turn phase => ?_,
    fun s turn phase empty => ?_, fun s w rest turn phase rxf => ?_, fun s w rest turn phase caller rxf => ?_⟩
  · rw [exec_xfer_outside_xfer c p (State.clean_outside clean),
      State.xfer_enter .xfer p (Nat.not_lt.2 below) clean (s.level_waveform_iff.1 level)]
    rfl
  · obtain ⟨ts, n, taken⟩ := exists_turnTaken s
    rw [step_ctl turn phase, taken]
    rfl
  · obtain ⟨ts, n, taken⟩ := exists_turnTaken s
    rw [step_w0 turn phase, taken]
    rfl
  · obtain ⟨ts, n, taken⟩ := exists_turnTaken s
    rw [step_w1 turn phase, taken]
    rfl
  · have busy : s.host.hphase ≠ .hNone := by rcases phase with h | h <;> simp [h]
    rw [step_subStep turn busy, hostSubStep_poll (by simpa using phase) (by simpa using empty), State.hostPoll, s.turnTaken_host]
  · rw [step_subStep turn (by simp [phase]), hostSubStep_r0 (s := s.turnTaken) (by simpa using phase) (by simpa using rxf),
      s.turnTaken_host, s.turnTaken_mcg]
  · rw [step_last_read turn phase rxf, caller, xferFinish_xfer]
    obtain ⟨ts, n, taken⟩ := exists_turnTaken s
    rw [taken]
    exact ⟨_, rfl, rfl, rfl, rfl, rfl, rfl⟩

/-- Settles O26: the last read is the end of the transaction, whose outcomes for SLOT_POLL are told once. -/
theorem slotPollEndsWithTheLastRead : Obligations.SlotPollEndsWithTheLastRead := by
  intro s i w rest turn phase caller rxf
  obtain ⟨ts, n, taken⟩ := exists_turnTaken s
  rw [step_last_read turn phase rxf, caller, taken]
  have untouched := xferFinish_untouched
    (State.lastWordTaken { s with oracle := { s.oracle with turns := ts, turnDraws := n } } rest) (.slotPoll i) s.host.hCs
    (frameOfWords s.host.hW0 s.host.hW1) (frameOfWords s.host.hR0 w)
  obtain ⟨tx, outcome⟩ := xferFinish_slotPoll
    (State.lastWordTaken { s with oracle := { s.oracle with turns := ts, turnDraws := n } } rest) i s.host.hCs
    (frameOfWords s.host.hW0 s.host.hW1) (frameOfWords s.host.hR0 w)
  exact ⟨_, rfl, by rw [untouched.host]; rfl, tx, untouched.mcg, untouched.cse, untouched.done, outcome⟩

/-- Settles O28, by whether HOST may time out. -/
theorem timeoutRaisesBusError : Obligations.TimeoutRaisesBusError := by
  refine ⟨fun s n turn set phase enough => ?_, fun s n turn set few => ?_, fun s turn none => ?_⟩
  · obtain ⟨ts, m, taken⟩ := exists_turnTaken s
    have may : s.mayTimeout = true := by simp [State.mayTimeout, set, State.hostWaits, enough, phase]
    rw [step_timeout turn, taken]
    exact congrArg Host.Outcome.next (if_pos may)
  · have not : ¬ s.turnTaken.mayTimeout = true := by simp [State.mayTimeout, set, few]
    rw [step_timeout turn, State.hostTimeout, if_neg not]
  · rw [step_timeout turn, hostTimeout_of_none (by simpa using none)]

/-- Settles O29: taken at the head of `ctlf`, held anywhere else. -/
theorem cswSelectDrivesTheLines : Obligations.CswSelectDrivesTheLines := by
  refine ⟨fun n u rest s running idle ctlf => ?_, fun n u s t h => ?_⟩
  · have pre : s.preCseSelect = true := s.preCseSelect_iff.2 ⟨running, idle, by simp [ctlf]⟩
    rw [← decodeCsw_cswWord n u, exec_decodeCsw pre ctlf, cswWord_index, Cse.select, ctlf]
    rfl
  · rcases exec_cswSelect_eq n u s with held | selected
    · rw [held] at h
      cases h
      exact ⟨rfl, rfl⟩
    · rw [selected] at h
      cases h
      exact ⟨rfl, rfl⟩

/-- Settles O30: CSE-SELECT by the word at the head of `ctlf`, CSE-RELEASE by the signal. -/
theorem cseSelectAndReleaseSteps : Obligations.CseSelectAndReleaseSteps := by
  refine ⟨fun w rest s turn running idle ctlf => ?_, fun s turn running hold done => ?_⟩
  · have pre : s.preCseSelect = true := s.preCseSelect_iff.2 ⟨running, idle, by simp [ctlf]⟩
    rw [step_cse_select turn pre ctlf, Cse.select, ctlf]
    rfl
  · rw [step_release turn (preCseSelect_hold hold), cseRelease_of_done (by simpa using running) (by simpa using hold) (by simpa using done),
      s.turnTaken_cse]

/-- Settles O31, by the phase and by what MCG waits for. -/
theorem mcgLoadAndRearmSteps : Obligations.McgLoadAndRearmSteps := by
  refine ⟨fun s turn running phase => ⟨fun w rest active txf => ?_, fun waits => ?_⟩, fun s turn running phase => ?_⟩
  · rw [step_mcg turn, State.mcgLoad_of_cons (by simpa using running) (by simpa using phase) (by simpa using active) (by simpa using txf),
      s.turnTaken_mcg]
  · rw [step_mcg turn, State.mcgLoad_held (by simpa using phase) (by simpa using waits)]
  · rw [step_mcg turn]
    split
    case isTrue done => rw [State.mcgRearm_held (by simpa using phase) (by simpa using done)]
    case isFalse down =>
      rw [State.mcgRearm_eq (by simpa using running) (by simpa using phase) (by simpa using down), s.turnTaken_mcg]

/-- Settles O32: the two edges; the oracle moves on by the one level drawn. -/
theorem mcgShiftAndSampleSteps : Obligations.McgShiftAndSampleSteps := by
  refine ⟨fun s turn running phase => ?_, fun s turn running phase => ?_⟩
  · obtain ⟨ts, n, taken⟩ := exists_turnTaken s
    rw [step_mcg turn, taken]
    exact congrArg Host.Outcome.next
      (State.mcgShift_eq (s := { s with oracle := { s.oracle with turns := ts, turnDraws := n } }) running phase)
  · rw [step_mcg turn, State.mcgSample_eq (by simpa using running) (by simpa using phase)]
    refine ⟨_, rfl, s.turnTaken_cse, s.turnTaken_done, s.turnTaken_slots, s.turnTaken_scr, s.turnTaken_host, ?_, fun k => ?_⟩
    · simp only [s.turnTaken_mcg, s.turnTaken_params, s.turnTaken_misoBit, shiftIn_eq_or]
    · rw [Oracle.misoTaken_misoBit, s.turnTaken_misoBit, Nat.add_comm]

/-- Settles O33, by the room in `rxf`. -/
theorem mcgPushStep : Obligations.McgPushStep := by
  intro s turn running phase
  obtain ⟨ts, n, taken⟩ := exists_turnTaken s
  rw [step_mcg turn, taken]
  split
  case isTrue room =>
    exact congrArg Host.Outcome.next
      (State.mcgPush_eq (s := { s with oracle := { s.oracle with turns := ts, turnDraws := n } }) running phase room)
  case isFalse full =>
    exact congrArg Host.Outcome.next
      (State.mcgPush_held (s := { s with oracle := { s.oracle with turns := ts, turnDraws := n } }) phase (Nat.not_lt.1 full))

/-- Settles O34: the one step of SCR its phase and the lines allow. -/
theorem scrStepsFollowTheExternalMaster : Obligations.ScrStepsFollowTheExternalMaster := by
  intro s turn running
  obtain ⟨ts, n, taken⟩ := exists_turnTaken s
  rw [step_scr turn, taken]
  refine ⟨fun phase sel => ?_, fun b rest phase sel sck sOut => ?_, fun phase sel sck sOut => ?_, fun phase sel sck => ?_,
    fun phase sel => ?_⟩
  · rw [scrStep_arm (s := { s with oracle := { s.oracle with turns := ts, turnDraws := n } }) running phase sel]
    rfl
  · rw [scrStep_shift (s := { s with oracle := { s.oracle with turns := ts, turnDraws := n } }) running phase sel sck]
    simp only [State.scrShift, sOut]
  · rw [scrStep_shift (s := { s with oracle := { s.oracle with turns := ts, turnDraws := n } }) running phase sel sck]
    simp only [State.scrShift, sOut]
    exact ⟨_, _, rfl, rfl, rfl, rfl, rfl, rfl⟩
  · rw [scrStep_sample (s := { s with oracle := { s.oracle with turns := ts, turnDraws := n } }) running phase sel sck]
    rfl
  · rw [scrStep_deselect (s := { s with oracle := { s.oracle with turns := ts, turnDraws := n } }) running phase sel]
    rfl

/-- Settles O35, line by line. -/
theorem envSetsOneLine : Obligations.EnvSetsOneLine := by
  intro s v
  obtain ⟨ts, n, taken⟩ := exists_turnTaken s
  exact ⟨fun turn => by rw [step_env turn, taken]; rfl, fun turn => by rw [step_env turn, taken]; rfl,
    fun turn => by rw [step_env turn, taken]; rfl⟩

/-- Settles O36, machine by machine. -/
theorem heldMachineChangesNothing : Obligations.HeldMachineChangesNothing := by
  refine ⟨fun s turn held => step_cse_held turn held, fun s turn held => ?_, fun s turn held => ?_⟩
  · rw [step_mcg turn]
    rcases held with stopped | ⟨phase, waits⟩ | ⟨phase, full⟩ | ⟨phase, done⟩
    · rw [State.mcgStep_stopped (by simpa using stopped)]
    · rw [State.mcgLoad_held (by simpa using phase) (by simpa using waits)]
    · rw [State.mcgPush_held (by simpa using phase) (by simpa using full)]
    · rw [State.mcgRearm_held (by simpa using phase) (by simpa using done)]
  · rw [step_scr turn, scrStep_held (by simpa using held)]

/-- Settles O38: HOST's next call, the control word at the head of `ctlf`, and the calls that are refused. -/
theorem stepRunsTheDecodedInstruction : Obligations.StepRunsTheDecodedInstruction := by
  refine ⟨fun s c rest i left turn free calls format h => step_call turn free calls (decodeCall_of_ok format h),
    fun s w rest turn running idle ctlf => ?_, fun s c rest turn free calls => ⟨fun channel => ?_, fun e format h => ?_⟩⟩
  · exact step_select turn (s.preCseSelect_iff.2 ⟨running, idle, by simp [ctlf]⟩) ctlf
  · exact step_call_refused turn free calls (decodeCall_of_channel channel)
  · exact step_call_refused turn free calls (decodeCall_of_error format h)

/-- Settles O60: the code of slot 31 is the idle code, which the lines of an idle CSE carry already. -/
theorem slot31SelectionDoesNotMoveTheLines : Obligations.Slot31SelectionDoesNotMoveTheLines := by
  intro s t u inv pre head h
  obtain ⟨-, idle, -⟩ := s.preCseSelect_iff.1 pre
  obtain ⟨rest, ctlf⟩ := List.head?_eq_some_iff.1 head
  rw [← decodeCsw_cswWord 31 u, exec_decodeCsw pre ctlf, cswWord_index] at h
  cases h
  rcases inv.select with ⟨-, inactive, lines⟩ | ⟨hold, -⟩
  · exact ⟨lines.symm, by simp [State.selected, inactive], rfl⟩
  · rw [idle] at hold
    cases hold

end Sys2Proof
end

section
/-! What every step keeps: the queues, the word channels, the parameters, the level, and each agent's own state (10_state.md,
42_waveform.md R100, R119). -/

namespace Sys2Proof.Machine

/-! ### The slots -/

/-- Every chip-select kept, and every queue that is within its capacity still within it. -/
def SlotsBounded (s t : State) : Prop :=
  ∀ j : Fin 32, t.slots[j].cs = s.slots[j].cs ∧ ∀ d, (s.queue j d).length ≤ s.params.qcap → (t.queue j d).length ≤ s.params.qcap

theorem SlotsBounded.of_eq {s t : State} (h : t.slots = s.slots) : SlotsBounded s t :=
  fun j => ⟨by rw [h], fun d bound => by cases d <;> simpa [State.queue, h] using bound⟩

theorem SlotsBounded.trans {s t u : State} (h : SlotsBounded s t) (params : t.params = s.params) (g : SlotsBounded t u) :
    SlotsBounded s u := fun j =>
  ⟨(g j).1.trans (h j).1, fun d bound => params ▸ (g j).2 d (params.symm ▸ (h j).2 d bound)⟩

theorem SlotsBounded.setQueue {s : State} {i : Fin 32} {d : Side} {items : List Event}
    (h : (s.queue i d).length ≤ s.params.qcap → items.length ≤ s.params.qcap) : SlotsBounded s (s.setQueue i d items) := by
  refine fun j => ⟨s.setQueue_cs i j d items, fun e bound => ?_⟩
  by_cases named : i = j ∧ d = e
  · obtain ⟨rfl, rfl⟩ := named
    rw [s.queue_setQueue_same]
    exact h bound
  · rwa [s.queue_setQueue_other items named]

theorem SlotsBounded.ret {s t : State} (h : SlotsBounded s t) (r : Result) : SlotsBounded s (t.ret r) := h

/-- A push that answers had room (41_queue.md R90). -/
theorem SlotsBounded.push {s : State} {i : Fin 32} {d : Side} {x : Event} {items : List Event}
    (h : queuePush s.params.qcap (s.queue i d) x = some items) : SlotsBounded s (s.setQueue i d items) := by
  obtain ⟨room, rfl⟩ := queuePush_eq_some h
  exact .setQueue fun bound => by simp; omega

theorem SlotsBounded.pop {s : State} {i : Fin 32} {d : Side} {x : Event} {items : List Event}
    (h : queuePop (s.queue i d) = some (x, items)) : SlotsBounded s (s.setQueue i d items) := by
  refine .setQueue fun bound => ?_
  rw [queuePop_eq_some h] at bound
  exact Nat.le_of_succ_le bound

theorem qpush_bounded (s : State) (i : Fin 32) (d : Side) (x : Event) : SlotsBounded s (s.qpush i d x) := by
  unfold State.qpush
  split
  case h_1 => exact .of_eq rfl
  case h_2 items pushed => exact (SlotsBounded.push pushed).ret .ok

theorem qpop_bounded (s : State) (i : Fin 32) (d : Side) : SlotsBounded s (s.qpop i d) := by
  unfold State.qpop
  split
  case h_1 => exact .of_eq rfl
  case h_2 x items popped => exact (SlotsBounded.pop popped).ret _

theorem qpeek_bounded (s : State) (i : Fin 32) (d : Side) : SlotsBounded s (s.qpeek i d) := by
  unfold State.qpeek
  split <;> exact .of_eq rfl

theorem qdiscard_bounded (s : State) (i : Fin 32) (d : Side) : SlotsBounded s (s.qdiscard i d) := by
  refine (SlotsBounded.setQueue fun bound => ?_).ret .unit
  cases items : s.queue i d with
  | nil => exact Nat.zero_le _
  | cons x rest => rw [items] at bound; exact Nat.le_of_succ_le bound

theorem slotSend_bounded (s : State) (i : Fin 32) (e : Event) : SlotsBounded s (s.slotSend i e) := by
  unfold State.slotSend
  split
  case h_1 => exact .of_eq rfl
  case h_2 items pushed => exact (SlotsBounded.push pushed).ret .ok

theorem slotRecv_bounded (s : State) (i : Fin 32) : SlotsBounded s (s.slotRecv i) := by
  unfold State.slotRecv
  split
  case h_1 => exact .of_eq rfl
  case h_2 x items popped => exact (SlotsBounded.pop popped).ret _

theorem pollPopped_bounded (s : State) (i : Fin 32) : SlotsBounded s (s.pollPopped i) := by
  unfold State.pollPopped
  split
  case h_1 => exact .of_eq rfl
  case h_2 x items popped => exact .pop popped

theorem xferReturn_bounded (s : State) (caller : Caller) (x : Except BusCause Frame) : SlotsBounded s (s.xferReturn caller x) := by
  cases x with
  | error cause => exact .of_eq rfl
  | ok r =>
    cases caller with
    | xfer => exact .of_eq rfl
    | slotPoll i =>
      show SlotsBounded s (s.slotPollEnd i r)
      unfold State.slotPollEnd
      split
      case isFalse => exact .of_eq rfl
      case isTrue =>
        split
        case h_1 => exact .of_eq rfl
        case h_2 items pushed => exact (SlotsBounded.push pushed).ret .ok

theorem xferFinish_bounded (s : State) (caller : Caller) (c : Byte) (p r : Frame) : SlotsBounded s (s.xferFinish caller c p r) :=
  have logged : SlotsBounded s (s.logTransaction c p r).busFaultTaken := .of_eq rfl
  logged.trans rfl (xferReturn_bounded _ caller _)

theorem xfer_bounded {s t : State} {caller : Caller} {c : Byte} {p : Frame} (h : s.xfer caller c p = .next t) : SlotsBounded s t := by
  rcases xfer_next h with ⟨-, rfl⟩ | ⟨-, -, -, rfl⟩ | ⟨-, -, -, rfl⟩
  · exact .of_eq rfl
  · have driver : SlotsBounded s (s.driverAfterXfer c p) := .of_eq rfl
    exact driver.trans rfl (xferFinish_bounded _ caller c p _)
  · exact .of_eq rfl

theorem withSlot_bounded {s t : State} {n : Byte} {f : Fin 32 → State} (h : s.hostCall (withSlot n fun i => .next (f i)) = .next t)
    (bounded : ∀ i, SlotsBounded s (f i)) : SlotsBounded s t := by
  obtain ⟨-, slot⟩ := State.hostCall_next h
  obtain ⟨i, -, answer⟩ := withSlot_next slot
  cases answer
  exact bounded i

theorem exec_bounded {i : Instr} {s t : State} (h : exec i s = .next t) : SlotsBounded s t := by
  have codec {i : Instr} (op : i.format = .frame ∨ (∃ e, i = .ser e) ∨ ∃ p, i = .des p) (h : exec i s = .next t) : SlotsBounded s t := by
    obtain ⟨r, rfl⟩ := codecOperationsOnlyReturn i s t op h
    exact .of_eq rfl
  cases i with
  | cswSelect n u =>
    rcases exec_cswSelect_eq n u s with held | selected
    · rw [held] at h; cases h; exact .of_eq rfl
    · rw [selected] at h; cases h; exact .of_eq rfl
  | ser e => exact codec (.inr (.inl ⟨e, rfl⟩)) h
  | des p => exact codec (.inr (.inr ⟨p, rfl⟩)) h
  | qpush q x => exact withSlot_bounded h fun i => qpush_bounded s i q.side x
  | qpop q => exact withSlot_bounded h fun i => qpop_bounded s i q.side
  | qpeek q => exact withSlot_bounded h fun i => qpeek_bounded s i q.side
  | qdiscard q => exact withSlot_bounded h fun i => qdiscard_bounded s i q.side
  | slotSend n e => exact withSlot_bounded h fun i => slotSend_bounded s i e
  | slotRecv n => exact withSlot_bounded h fun i => slotRecv_bounded s i
  | xfer c p =>
    obtain ⟨-, answer⟩ := State.hostCall_next h
    exact xfer_bounded answer
  | slotPoll n =>
    obtain ⟨-, slot⟩ := State.hostCall_next h
    obtain ⟨k, -, answer⟩ := withSlot_next slot
    exact (pollPopped_bounded s k).trans (pollPopped_untouched s k).params (xfer_bounded answer)
  | _ => exact codec (.inl rfl) h

theorem subStep_bounded {s t : State} (h : SubStepEffect s t) : SlotsBounded s t := by
  cases h with
  | r1 w rest phase rxf h =>
    subst h
    have taken : SlotsBounded s (s.lastWordTaken rest) := .of_eq rfl
    exact taken.trans rfl (xferFinish_bounded _ _ _ _ _)
  | _ => subst_vars; exact .of_eq rfl

theorem step_bounded {s t : State} (h : step s = .next t) : SlotsBounded s t := by
  have taken : SlotsBounded s s.turnTaken := .of_eq s.turnTaken_slots
  cases step_effect h with
  | call c rest i turn free calls hi h =>
    have called : SlotsBounded s { s.turnTaken with host := { s.host with calls := rest } } := .of_eq s.turnTaken_slots
    exact called.trans s.turnTaken_params (exec_bounded h)
  | idle turn h => rwa [h]
  | subStep turn busy h => rw [h]; exact taken.trans s.turnTaken_params (subStep_bounded (hostSubStep_effect _))
  | timeout turn h =>
    rw [h]
    rcases hostTimeout_eq s.turnTaken with same | ⟨-, left⟩
    · rwa [same]
    · rw [left]; exact taken
  | select w rest turn pre ctlf h => exact taken.trans s.turnTaken_params (exec_bounded h)
  | release turn pre h =>
    rw [h]
    cases cseRelease_effect s.turnTaken with
    | held h => rwa [h]
    | released running phase done h => rw [h]; exact taken
  | mcg turn h => rw [h, (mcgStep_effect s.turnTaken).frame.1]; exact taken
  | scr turn h => rw [h]; exact taken.trans s.turnTaken_params (.of_eq (scrStep_untouched _).slots)
  | env line v turn h => rw [h]; exact taken.trans s.turnTaken_params (.of_eq (envSet_untouched _ line v).slots)

/-! ### The parameters, the run bits and the level -/

/-- What no agent writes (10_state.md R25, 42_waveform.md R119). -/
structure SettingsKept (s t : State) : Prop where
  params : t.params = s.params
  chosenLevel : t.chosenLevel = s.chosenLevel
  en0 : t.cse.en0 = s.cse.en0
  en1 : t.mcg.en1 = s.mcg.en1
  en2 : t.scr.en2 = s.scr.en2

theorem SettingsKept.trans {s t u : State} (h : SettingsKept s t) (g : SettingsKept t u) : SettingsKept s u := by
  obtain ⟨a1, a2, a3, a4, a5⟩ := h
  obtain ⟨b1, b2, b3, b4, b5⟩ := g
  exact ⟨b1.trans a1, b2.trans a2, b3.trans a3, b4.trans a4, b5.trans a5⟩

theorem SettingsKept.level {s t : State} (h : SettingsKept s t) : t.level = s.level :=
  State.level_congr h.chosenLevel h.params h.en0 h.en1

theorem DriverUntouched.settings {s t : State} (h : DriverUntouched s t) : SettingsKept s t :=
  ⟨h.params, h.chosenLevel, by rw [h.cse], by rw [h.mcg], by rw [h.scr]⟩

theorem TransferUntouched.settings {s t : State} (h : TransferUntouched s t) : SettingsKept s t :=
  ⟨h.params, h.chosenLevel, by rw [h.cse], by rw [h.mcg], h.responder⟩

theorem TransferKeeps.settings {s t : State} (h : TransferKeeps s t) : SettingsKept s t :=
  ⟨h.params, h.chosenLevel, h.en0, h.en1, by rw [h.scr]⟩

theorem xferFinish_settings (s : State) (caller : Caller) (c : Byte) (p r : Frame) : SettingsKept s (s.xferFinish caller c p r) :=
  have logged : SettingsKept s (s.logTransaction c p r).busFaultTaken := ⟨rfl, rfl, rfl, rfl, rfl⟩
  logged.trans (xferFinish_untouched s caller c p r).settings

theorem McgEffect.settings {s t : State} (h : McgEffect s t) : SettingsKept s t := by
  cases h <;> subst_vars <;> exact ⟨rfl, rfl, rfl, rfl, rfl⟩

theorem SubStepEffect.settings {s t : State} (h : SubStepEffect s t) : SettingsKept s t := by
  cases h with
  | r1 w rest phase rxf h =>
    subst h
    have taken : SettingsKept s (s.lastWordTaken rest) := ⟨rfl, rfl, rfl, rfl, rfl⟩
    exact taken.trans (xferFinish_settings _ _ _ _ _)
  | _ => subst_vars; exact ⟨rfl, rfl, rfl, rfl, rfl⟩

theorem Transition.settings {s t : State} (h : Transition s t) : SettingsKept s t := by
  cases h with
  | silent h => exact h.settings
  | operation free h => exact h.settings
  | atomic u caller c p hu clean ha h => subst h; exact hu.settings.trans (xferAtomic_transferKeeps u caller c p).settings
  | enter u caller c p hu clean ha h => subst h; exact hu.settings.trans ⟨rfl, rfl, rfl, rfl, rfl⟩
  | subStep busy h => exact h.settings
  | timeout may h => subst h; exact ⟨rfl, rfl, rfl, rfl, rfl⟩
  | select w rest pre ctlf h => subst h; exact ⟨rfl, rfl, rfl, rfl, rfl⟩
  | release h => cases h <;> subst_vars <;> exact ⟨rfl, rfl, rfl, rfl, rfl⟩
  | mcg running h => exact h.settings

theorem step_settings {s t : State} (h : step s = .next t) : SettingsKept s t := by
  obtain ⟨u, taken, move⟩ := step_transition h
  exact taken.settings.trans move.settings

/-- At the transaction level a transition leaves HOST outside XFER. -/
theorem Transition.outside {s t : State} (h : Transition s t) (level : s.level = .transaction) (free : s.host.hphase = .hNone) :
    t.host.hphase = .hNone := by
  have atomic := s.level_transaction_iff.1 level
  cases h with
  | silent h => rw [h.hphase, free]
  | operation _ h => rw [h.host]; exact free
  | atomic u caller c p hu clean ha h => subst h; exact State.clean_outside (xferAtomic_clean caller c p (State.clean_outside clean))
  | enter u caller c p hu clean ha h => rw [hu.atomicXfer, atomic] at ha; cases ha
  | subStep busy h => exact absurd free busy
  | timeout may h => subst h; rfl
  | select w rest pre ctlf h => subst h; exact free
  | release h =>
    cases h with
    | held h => rwa [h]
    | released running phase done h => rw [h]; exact free
  | mcg running h => rw [h.frame.1]; exact free

/-! ### The word channels -/

theorem State.ChannelInv.silent {s t : State} (inv : s.ChannelInv) (h : TransferUntouched s t) : t.ChannelInv :=
  inv.congr h.params h.cse h.mcg

theorem State.ChannelInv.untouched {s t : State} (inv : s.ChannelInv) (h : DriverUntouched s t) : t.ChannelInv :=
  inv.congr h.params h.cse h.mcg

theorem State.ChannelInv.xferFinish {s : State} (inv : s.ChannelInv) (caller : Caller) (c : Byte) (p r : Frame) :
    (s.xferFinish caller c p r).ChannelInv := by
  have logged : (s.logTransaction c p r).busFaultTaken.ChannelInv := inv.congr rfl rfl rfl
  exact logged.untouched (xferFinish_untouched s caller c p r)

/-- One word more in a channel that had room. -/
theorem length_concat_le {α : Type} {l : List α} {n : Nat} (x : α) (room : l.length < n) : (l ++ [x]).length ≤ n := by
  rw [List.length_append]; exact room

/-- One word less. -/
theorem length_of_cons_le {α : Type} {l rest : List α} {x : α} {n : Nat} (h : l = x :: rest) (bound : l.length ≤ n) :
    rest.length ≤ n := by
  rw [h] at bound; exact Nat.le_of_succ_le bound

theorem State.ChannelInv.subStep {s t : State} (inv : s.ChannelInv) (h : SubStepEffect s t) : t.ChannelInv := by
  obtain ⟨ctlf, txf, rxf⟩ := inv
  cases h with
  | held h => subst h; exact ⟨ctlf, txf, rxf⟩
  | poll empty h => subst h; exact ⟨ctlf, txf, rxf⟩
  | ctl phase room h => subst h; exact ⟨length_concat_le _ room, txf, rxf⟩
  | w0 phase room h => subst h; exact ⟨ctlf, length_concat_le _ room, rxf⟩
  | w1 phase room h => subst h; exact ⟨ctlf, length_concat_le _ room, rxf⟩
  | r0 w rest phase words h => subst h; exact ⟨ctlf, txf, length_of_cons_le words rxf⟩
  | r1 w rest phase words h =>
    subst h
    have taken : (s.lastWordTaken rest).ChannelInv := ⟨ctlf, txf, length_of_cons_le words rxf⟩
    exact taken.xferFinish _ _ _ _

theorem State.ChannelInv.mcg_step {s t : State} (inv : s.ChannelInv) (h : McgEffect s t) : t.ChannelInv := by
  obtain ⟨ctlf, txf, rxf⟩ := inv
  cases h with
  | held h => subst h; exact ⟨ctlf, txf, rxf⟩
  | load w rest phase active words h => subst h; exact ⟨ctlf, length_of_cons_le words txf, rxf⟩
  | shift phase h => subst h; exact ⟨ctlf, txf, rxf⟩
  | sample phase h => subst h; exact ⟨ctlf, txf, rxf⟩
  | pushFirst phase room wordcnt h => subst h; exact ⟨ctlf, txf, length_concat_le _ room⟩
  | pushSecond phase room wordcnt h => subst h; exact ⟨ctlf, txf, length_concat_le _ room⟩
  | rearm phase done h => subst h; exact ⟨ctlf, txf, rxf⟩

theorem State.ChannelInv.transition {s t : State} (inv : s.ChannelInv) (h : Transition s t) : t.ChannelInv := by
  cases h with
  | silent h => exact inv.silent h
  | operation free h => exact inv.untouched h
  | atomic u caller c p hu clean ha h =>
    subst h
    have emptied : (u.driverAfterXfer c p).ChannelInv := ⟨Nat.zero_le _, Nat.zero_le _, Nat.zero_le _⟩
    exact emptied.xferFinish _ _ _ _
  | enter u caller c p hu clean ha h => subst h; exact (inv.untouched hu).congr rfl rfl rfl
  | subStep busy h => exact inv.subStep h
  | timeout may h => subst h; exact inv.congr rfl rfl rfl
  | select w rest pre ctlf h =>
    subst h
    exact ⟨by show s.cse.ctlf.tail.length ≤ _; rw [ctlf]; exact length_of_cons_le ctlf inv.ctlf, inv.txf, inv.rxf⟩
  | release h =>
    cases h with
    | held h => rwa [h]
    | released running phase done h => subst h; exact ⟨inv.ctlf, inv.txf, inv.rxf⟩
  | mcg running h => exact inv.mcg_step h

end Sys2Proof.Machine

namespace Sys2Proof

open Sys2Proof.Machine

/-- Settles O44: every step keeps each queue within its bound, and each transition the channels. -/
theorem stepKeepsQueuesAndChannels : Obligations.StepKeepsQueuesAndChannels := by
  refine fun s t h => ⟨fun inv => ?_, fun inv => ?_⟩
  · have bounded := step_bounded h
    have params := (step_settings h).params
    exact ⟨fun j => params ▸ (bounded j).2 .tx (inv.txBound j), fun j => params ▸ (bounded j).2 .rx (inv.rxBound j),
      fun j => (bounded j).1.trans (inv.index j)⟩
  · obtain ⟨u, taken, move⟩ := step_transition h
    exact (inv.silent taken).transition move

/-- Settles O46: no transition writes a setting, no step a chip-select. -/
theorem stepKeepsParametersAndRunBits : Obligations.StepKeepsParametersAndRunBits := by
  intro s t h
  have kept := step_settings h
  exact ⟨kept.params, kept.chosenLevel, kept.level, kept.en0, kept.en1, kept.en2, fun j => (step_bounded h j).1⟩

/-- Settles O47: at the transaction level no transition enters XFER. -/
theorem transactionLevelKeepsHostOutsideXfer : Obligations.TransactionLevelKeepsHostOutsideXfer := by
  intro s t inv h
  refine ⟨fun level => ?_, (step_settings h).level⟩
  rw [(step_settings h).level] at level
  obtain ⟨u, taken, move⟩ := step_transition h
  exact move.outside (taken.settings.level.trans level) (taken.hphase.trans (inv level))

/-- Settles O42, field by field. -/
theorem resetStateValues : Obligations.ResetStateValues := by
  refine ⟨fun i => ?_, rfl, rfl, rfl, rfl, rfl, rfl, rfl, rfl, rfl, rfl, rfl, rfl, rfl, rfl, rfl, rfl, rfl, rfl, rfl⟩
  have fresh : State.reset.slots[i] = Slot.fresh i := by simp [State.reset, State.resetSlots]
  rw [fresh]
  exact ⟨rfl, rfl, rfl⟩

/-- Settles O43: each invariant at the values of reset. -/
theorem resetMeetsTheInvariants : Obligations.ResetMeetsTheInvariants := by
  have fresh (i : Fin 32) : State.reset.slots[i] = Slot.fresh i := by simp [State.reset, State.resetSlots]
  have driver : State.reset.DriverInv :=
    ⟨.inl ⟨rfl, rfl, rfl⟩, rfl, Nat.zero_le 32, ⟨Nat.zero_le 1, fun _ => rfl⟩, nofun, by simp [State.reset, McgPhase.inWord]⟩
  refine ⟨⟨fun i => ?_, fun i => ?_, fun i => ?_⟩, driver, ⟨Nat.zero_le 4, Nat.zero_le 4, Nat.zero_le 4⟩,
    .of_clean driver ⟨.inl rfl, .inl rfl⟩ rfl rfl rfl rfl (.inl rfl), rfl, fun _ => rfl, ⟨⟨⟨rfl, rfl⟩, rfl⟩, rfl, rfl, ⟨rfl, rfl, rfl⟩⟩⟩
  · rw [fresh]; exact Nat.zero_le 4
  · rw [fresh]; exact Nat.zero_le 4
  · rw [fresh]; rfl

end Sys2Proof
end

section
/-! Who writes what, what holds of the driver in a reachable state, and the bits on the bus (42_waveform.md R100, R103, R110, R118,
43_transfer.md R131, R134, 20_memory.md R43, R44). -/

namespace Sys2Proof.Machine

/-! ### Single writers -/

theorem scrStep_frame (s : State) : s.scrStep = { s with scr := s.scrStep.scr, oracle := s.scrStep.oracle } := by
  unfold State.scrStep
  split_ifs
  · rfl
  · unfold State.scrShift
    split <;> rfl
  · rfl
  · rfl
  · rfl

theorem envSet_frame (s : State) (line : InLine) (v : LineLevel) : s.envSet line v = { s with lines := (s.envSet line v).lines } := by
  cases line <;> rfl

theorem McgEffect.done_stays_up {s t : State} (h : McgEffect s t) (up : s.done = true) : t.done = true := by
  cases h with
  | pushSecond phase room wordcnt h => rw [h]
  | _ => subst_vars; exact up

/-- What HOST's turn leaves of SCR, the lines and, at the waveform level, the machines. -/
structure HostWrites (s t : State) : Prop where
  scr : t.scr = s.scr
  lines : t.lines = s.lines
  machines : s.level = .waveform → t.cse = { s.cse with ctlf := t.cse.ctlf } ∧
    t.mcg = { s.mcg with txf := t.mcg.txf, rxf := t.mcg.rxf } ∧ t.done = s.done

theorem HostWrites.untouched {s t : State} (h : DriverUntouched s t) : HostWrites s t :=
  ⟨h.scr, h.lines, fun _ => ⟨by rw [h.cse], by rw [h.mcg], h.done⟩⟩

theorem exec_hostWrites {i : Instr} {s t : State} (h : exec i s = .next t) (op : i.format ≠ .csw) : HostWrites s t := by
  cases exec_effect h with
  | held n u hi => subst hi; exact absurd rfl op
  | select n u hi => subst hi; exact absurd rfl op
  | host free h => exact .untouched h
  | atomic u caller c p hu hc clean ha h =>
    subst h
    have keeps := hu.transferKeeps.trans (xferAtomic_transferKeeps u caller c p)
    refine ⟨keeps.scr, keeps.lines, fun level => ?_⟩
    rw [← hu.settings.level, u.level_waveform_iff, ha] at level
    cases level
  | enter u caller c p hu hc clean ha h =>
    subst h
    have cse : (u.xferEnter caller c p).cse = s.cse := hu.cse
    have mcg : (u.xferEnter caller c p).mcg = s.mcg := hu.mcg
    exact ⟨hu.scr, hu.lines, fun _ => ⟨by rw [cse], by rw [mcg], hu.done⟩⟩

theorem subStep_hostWrites {s t : State} (h : SubStepEffect s t) : HostWrites s t := by
  cases h with
  | r1 w rest phase rxf h =>
    subst h
    have after := xferFinish_untouched (s.lastWordTaken rest) s.host.caller s.host.hCs (frameOfWords s.host.hW0 s.host.hW1)
      (frameOfWords s.host.hR0 w)
    exact ⟨after.scr, after.lines, fun _ => ⟨by rw [after.cse]; rfl, by rw [after.mcg]; rfl, after.done⟩⟩
  | _ => subst_vars; exact ⟨rfl, rfl, fun _ => ⟨rfl, rfl, rfl⟩⟩

/-- What a transition writes, told after the turn is taken, is what the step writes. -/
theorem HostWrites.of_taken {s u t : State} (cse : u.cse = s.cse) (mcg : u.mcg = s.mcg) (done : u.done = s.done) (scr : u.scr = s.scr)
    (lines : u.lines = s.lines) (level : u.level = s.level) (h : HostWrites u t) : HostWrites s t := by
  obtain ⟨hscr, hlines, machines⟩ := h
  rw [cse, mcg, done, level] at machines
  exact ⟨hscr.trans scr, hlines.trans lines, machines⟩

theorem step_hostWrites {s t : State} (turn : s.turn = .host) (h : step s = .next t) : HostWrites s t := by
  have taken {t : State} (h : HostWrites s.turnTaken t) : HostWrites s t :=
    .of_taken s.turnTaken_cse s.turnTaken_mcg s.turnTaken_done s.turnTaken_scr s.turnTaken_lines s.turnTaken_level h
  cases step_effect h with
  | call c rest i _ free calls hi h =>
    refine .of_taken (u := { s.turnTaken with host := { s.host with calls := rest } }) s.turnTaken_cse s.turnTaken_mcg s.turnTaken_done
      s.turnTaken_scr s.turnTaken_lines ?_ (exec_hostWrites h (decodeCall_format hi))
    exact (callTaken_untouched s rest).settings.level
  | idle _ h => subst h; exact taken (.untouched (.rfl _))
  | subStep _ busy h => subst h; exact taken (subStep_hostWrites (hostSubStep_effect _))
  | timeout other h => rw [turn] at other; cases other
  | select w rest other => rw [turn] at other; cases other
  | release other => rw [turn] at other; cases other
  | mcg other => rw [turn] at other; cases other
  | scr other => rw [turn] at other; cases other
  | env line v other => rw [turn] at other; cases other

theorem step_cse_writes {s t : State} (turn : s.turn = .cse) (h : step s = .next t) :
    t.slots = s.slots ∧ t.mcg = s.mcg ∧ t.scr = s.scr ∧ t.lines = s.lines ∧ t.host = s.host ∧ (t.done = true → s.done = true) := by
  obtain ⟨ts, n, taken⟩ := exists_turnTaken s
  cases pre : s.preCseSelect with
  | true =>
    obtain ⟨-, -, waiting⟩ := s.preCseSelect_iff.1 pre
    obtain ⟨w, rest, ctlf⟩ := List.exists_cons_of_ne_nil waiting
    rw [step_cse_select turn pre ctlf, taken] at h
    cases h
    exact ⟨rfl, rfl, rfl, rfl, rfl, id⟩
  | false =>
    rw [step_release turn pre, taken] at h
    cases h
    cases cseRelease_effect { s with oracle := { s.oracle with turns := ts, turnDraws := n } } with
    | held h => rw [h]; exact ⟨rfl, rfl, rfl, rfl, rfl, id⟩
    | released running phase done h => rw [h]; exact ⟨rfl, rfl, rfl, rfl, rfl, nofun⟩

theorem step_mcg_writes {s t : State} (turn : s.turn = .mcg) (h : step s = .next t) :
    t.slots = s.slots ∧ t.cse = s.cse ∧ t.scr = s.scr ∧ t.lines = s.lines ∧ t.host = s.host ∧ (s.done = true → t.done = true) := by
  obtain ⟨ts, n, taken⟩ := exists_turnTaken s
  rw [step_mcg turn, taken] at h
  cases h
  have effect := mcgStep_effect { s with oracle := { s.oracle with turns := ts, turnDraws := n } }
  have up := effect.done_stays_up
  rw [effect.frame.1] at up ⊢
  exact ⟨rfl, rfl, rfl, rfl, rfl, up⟩

theorem step_scr_writes {s t : State} (turn : s.turn = .scr) (h : step s = .next t) :
    t.slots = s.slots ∧ t.cse = s.cse ∧ t.mcg = s.mcg ∧ t.lines = s.lines ∧ t.host = s.host ∧ t.done = s.done := by
  obtain ⟨ts, n, taken⟩ := exists_turnTaken s
  rw [step_scr turn, taken, scrStep_frame] at h
  cases h
  exact ⟨rfl, rfl, rfl, rfl, rfl, rfl⟩

theorem step_env_writes {s t : State} {l : InLine} {v : LineLevel} (turn : s.turn = .env l v) (h : step s = .next t) :
    t.slots = s.slots ∧ t.cse = s.cse ∧ t.mcg = s.mcg ∧ t.scr = s.scr ∧ t.host = s.host ∧ t.done = s.done := by
  obtain ⟨ts, n, taken⟩ := exists_turnTaken s
  rw [step_env turn, taken, envSet_frame] at h
  cases h
  exact ⟨rfl, rfl, rfl, rfl, rfl, rfl⟩

theorem step_timeout_writes {s t : State} (turn : s.turn = .hostTimeout) (h : step s = .next t) :
    t.slots = s.slots ∧ t.cse = s.cse ∧ t.mcg = s.mcg ∧ t.done = s.done ∧ t.scr = s.scr ∧ t.lines = s.lines ∧ t.busLog = s.busLog := by
  obtain ⟨ts, n, taken⟩ := exists_turnTaken s
  rw [step_timeout turn, taken] at h
  cases h
  rcases hostTimeout_eq { s with oracle := { s.oracle with turns := ts, turnDraws := n } } with same | ⟨-, left⟩
  · rw [same]; exact ⟨rfl, rfl, rfl, rfl, rfl, rfl, rfl⟩
  · rw [left]; exact ⟨rfl, rfl, rfl, rfl, rfl, rfl, rfl⟩

/-! ### Refusals from a clean driver -/

theorem hostCall_refusal {s : State} {k : Host.Outcome State Fault Refusal} {r : Refusal} (free : s.host.hphase = .hNone)
    (h : s.hostCall k = .refused r) : k = .refused r := by
  rwa [State.hostCall_of_free k free] at h

theorem xfer_answers {s : State} (caller : Caller) (c : Byte) (p : Frame) (clean : s.clean = true) (r : Refusal) :
    s.xfer caller c p ≠ .refused r := by
  by_cases above : 31 < c.toNat
  · rw [s.xfer_above31 caller p above]
    nofun
  · cases ha : s.atomicXfer with
    | true => rw [State.xfer_atomic caller p above clean ha]; nofun
    | false => rw [State.xfer_enter caller p above clean ha]; nofun

/-- Outside XFER, from a clean driver, the one refusal left is a slot index above 31 (60_exceptions.md R156). -/
theorem exec_refusal_of_clean {i : Instr} {s : State} {r : Refusal} (clean : s.clean = true) (h : exec i s = .refused r) :
    r = .slotIndexAbove31 := by
  have free := State.clean_outside clean
  have slot {n : Byte} {f : Fin 32 → State} (h : s.hostCall (withSlot n fun i => .next (f i)) = .refused r) : r = .slotIndexAbove31 :=
    withSlot_refusal (hostCall_refusal free h) fun _ => nofun
  have row (hi : i.format = .frame) : r = .slotIndexAbove31 := by
    obtain ⟨p, rfl⟩ := exists_decodeFrame hi
    rw [exec_decodeFrame, exec_des_outside_xfer p free] at h
    cases h
  cases i with
  | cswSelect n u => rcases exec_cswSelect_eq n u s with held | selected <;> simp_all
  | ser e => cases hostCall_refusal free h
  | des p => cases hostCall_refusal free h
  | qpush q x => exact slot h
  | qpop q => exact slot h
  | qpeek q => exact slot h
  | qdiscard q => exact slot h
  | slotSend n e => exact slot h
  | slotRecv n => exact slot h
  | xfer c p => exact absurd (hostCall_refusal free h) (xfer_answers .xfer c p clean r)
  | slotPoll n =>
    exact withSlot_refusal (hostCall_refusal free h) fun i =>
      xfer_answers (.slotPoll i) _ _ ((pollPopped_untouched s i).clean.trans clean) r
  | _ => exact row rfl

/-! ### The select lines -/

/-- What CSE holds for the length of a transaction. -/
structure SelectionKept (s t : State) : Prop where
  csl : t.cse.csl = s.cse.csl
  csIndex : t.cse.csIndex = s.cse.csIndex
  csActive : t.cse.csActive = s.cse.csActive
  phase0 : t.cse.phase0 = s.cse.phase0

theorem SelectionKept.of_eq {s t : State} (h : t.cse = s.cse) : SelectionKept s t := by
  constructor <;> rw [h]

theorem SubStepEffect.selection {s t : State} (h : SubStepEffect s t) : SelectionKept s t := by
  cases h with
  | ctl phase room h => subst h; exact ⟨rfl, rfl, rfl, rfl⟩
  | r1 w rest phase rxf h => subst h; exact .of_eq (xferFinish_untouched _ _ _ _ _).cse
  | _ => subst_vars; exact .of_eq rfl

/-- While CSE holds and the completion signal is down: no agent can select, release, or begin a transaction. -/
theorem Transition.selection {s t : State} (h : Transition s t) (hold : s.cse.phase0 = .cHold) (down : s.done = false) :
    SelectionKept s t := by
  have unclean {u : State} (hu : DriverUntouched s u) (clean : u.clean = true) : False := by
    obtain ⟨⟨idle | ⟨-, up⟩, -⟩, -⟩ := u.clean_iff.1 clean
    · rw [hu.cse, hold] at idle; cases idle
    · rw [hu.done, down] at up; cases up
  cases h with
  | silent h => exact .of_eq h.cse
  | operation free h => exact .of_eq h.cse
  | atomic u caller c p hu clean ha h => exact (unclean hu clean).elim
  | enter u caller c p hu clean ha h => exact (unclean hu clean).elim
  | subStep busy h => exact h.selection
  | timeout may h => subst h; exact .of_eq rfl
  | select w rest pre ctlf h => rw [preCseSelect_hold hold] at pre; cases pre
  | release h =>
    cases h with
    | held h => subst h; exact .of_eq rfl
    | released running phase up h => rw [down] at up; cases up
  | mcg running h => rw [h.frame.1]; exact .of_eq rfl

/-! ### The bits of a frame -/

theorem toNat_append_mul {n m : Nat} (x : BitVec n) (y : BitVec m) : (x ++ y).toNat = x.toNat * 2 ^ m + y.toNat := by
  rw [BitVec.toNat_append, Nat.shiftLeft_eq, Nat.mul_comm]
  exact (Nat.two_pow_add_eq_or_of_lt y.isLt _).symm

theorem toNat_append_word (a b c d : Byte) : BitVec.toNat (w := 32) (a ++ (b ++ (c ++ d))) =
    a.toNat * 2 ^ 24 + b.toNat * 2 ^ 16 + c.toNat * 2 ^ 8 + d.toNat := by
  have h1 := toNat_append_mul a (b ++ (c ++ d))
  have h2 := toNat_append_mul b (c ++ d)
  have h3 := toNat_append_mul c d
  refine h1.trans ?_
  rw [h2, h3]
  omega

/-- The word MCG is shifting, in bus order (20_memory.md R44). -/
theorem currentWord_bit (s : State) (few : s.delivered < 2) {k : Nat} (hk : k < 32) :
    s.currentWord.getLsbD (31 - k) = frameBit (frameOfWords s.host.hW0 s.host.hW1) (32 * s.delivered + k) := by
  obtain ⟨first, second⟩ := frameBit_frameOfWords s.host.hW0 s.host.hW1 hk
  have which : s.delivered = 0 ∨ s.delivered = 1 := by omega
  rcases which with h | h
  · rw [State.currentWord, if_pos h, h, Nat.mul_zero, Nat.zero_add, first]
  · rw [State.currentWord, if_neg (by omega), h, Nat.mul_one, second]

end Sys2Proof.Machine

namespace Sys2Proof

open Sys2Proof.Machine

/-- Settles O37, turn by turn. -/
theorem agentsWriteOnlyTheirOwnState : Obligations.AgentsWriteOnlyTheirOwnState := by
  refine fun s t h => ⟨fun turn => step_cse_writes turn h, fun turn => step_mcg_writes turn h, fun turn => step_scr_writes turn h,
    fun l v turn => step_env_writes turn h, fun turn => ?_, fun turn => step_timeout_writes turn h⟩
  obtain ⟨scr, lines, machines⟩ := step_hostWrites turn h
  exact ⟨scr, lines, machines⟩

/-- Settles O49: the invariant makes the driver clean, and a clean driver leaves one refusal. -/
theorem driverIsCleanOutsideXfer : Obligations.DriverIsCleanOutsideXfer :=
  fun _ inv free => ⟨inv.clean free, fun _ _ h => exec_refusal_of_clean (inv.clean free) h⟩

/-- Settles O50: no transition moves the selection while CSE holds with `done` down. -/
theorem selectLinesHoldDuringTransaction : Obligations.SelectLinesHoldDuringTransaction := by
  intro s t hold down h
  obtain ⟨u, taken, move⟩ := step_transition h
  obtain ⟨csl, csIndex, csActive, phase0⟩ := move.selection (taken.cse ▸ hold) (taken.done.trans down)
  rw [taken.cse] at csl csIndex csActive phase0
  exact ⟨csl, csIndex, csActive, phase0.trans hold⟩

/-- Settles O51: a release finds MCG in M_DONE with `done` up; an idle CSE finds no slot selected, so MCG can only re-arm. -/
theorem oneMachineEnabledAtATime : Obligations.OneMachineEnabledAtATime := by
  intro s inv cse mcg
  have rearm : s.preMcgRearm = true ∨ s.cse.csActive = true := by
    by_contra other
    obtain ⟨noRearm, inactive⟩ := not_or.1 other
    have between : ¬ (s.mcg.phase1.inWord = true ∨ s.mcg.wordcnt = 1) := fun word => inactive (inv.active word)
    cases phase : s.mcg.phase1 <;>
      simp_all [State.preMcgLoad, State.preMcgShift, State.preMcgSample, State.preMcgPush, State.preMcgRearm, McgPhase.inWord]
  rcases (Bool.or_eq_true _ _).mp cse with select | release
  · obtain ⟨-, idle, -⟩ := s.preCseSelect_iff.1 select
    refine ⟨select, rearm.resolve_right fun active => ?_⟩
    rw [inv.phase0_of_active active] at idle
    cases idle
  · obtain ⟨-, -, up⟩ := s.preCseRelease_iff.1 release
    obtain ⟨phase, -⟩ := inv.completion up
    simp [State.preMcgLoad, State.preMcgShift, State.preMcgSample, State.preMcgPush, State.preMcgRearm, phase, up] at mcg

/-- Settles O52: no call is left, no time-out is possible, and both machines wait. -/
theorem finishedRunStaysFinished : Obligations.FinishedRunStaysFinished := by
  rintro s ⟨free, noCalls, ⟨idle, load, down, ctlf, txf, rxf⟩⟩ (turn | turn | turn | turn)
  · exact step_no_call turn free noCalls
  · have not : ¬ s.turnTaken.mayTimeout = true := by
      unfold State.mayTimeout State.hostWaits
      split <;> simp [free]
    rw [step_timeout turn, State.hostTimeout, if_neg not]
  · exact step_cse_held turn (.inr (.inl ⟨idle, ctlf⟩))
  · rw [step_mcg turn, State.mcgLoad_held (by simpa using load) (by simp [txf])]

/-- Settles O53: the words as numbers, their bits as the frame's, and back. -/
theorem bitOrderOfAFrame : Obligations.BitOrderOfAFrame := by
  refine ⟨fun p => ⟨toNat_append_word p.b0 p.b1 p.b2 p.b3, toNat_append_word p.b4 p.b5 p.b6 p.b7⟩, fun p k hk => ?_,
    frameWords_frameOfWords⟩
  obtain ⟨first, second⟩ := frameBit_frameOfWords (frameWord0 p) (frameWord1 p) hk
  rw [frameOfWords_frameWords] at first second
  exact ⟨first.symm, second.symm⟩

/-- Settles O54: the data register holds the current word shifted by its bits already sent. -/
theorem shiftEdgeSendsTheBitOfItsBitTime : Obligations.ShiftEdgeSendsTheBitOfItsBitTime := by
  intro s inv turn running phase
  have word : s.mcg.phase1.inWord = true := by rw [phase]; rfl
  obtain ⟨-, -, -, index, few⟩ := inv.transacting_inWord word
  have below : s.mcg.bitcnt < 32 := by simpa [Mcg.BitcntOk, phase] using inv.driver.bitcnt
  have active := inv.driver.active (.inl word)
  have osr : s.mcg.osr = s.currentWord <<< s.mcg.bitcnt := by simpa [State.sendRegister, phase] using inv.data
  have bit : s.mcg.osr.getLsbD 31 = frameBit (frameOfWords s.host.hW0 s.host.hW1) s.bitTime := by
    rw [osr, sent_bit _ below, currentWord_bit s few below]
    rfl
  refine ⟨by unfold State.bitTime; omega, _, mcgShiftAndSampleSteps.1 s turn running phase, bit, ?_, rfl⟩
  simp [State.selected, active, index]

end Sys2Proof
end

section
/-! How a transfer ends, or hangs (43_transfer.md R134 (a), R135 (a), 42_waveform.md R118): the measure, progress, and every fair run. -/

namespace Sys2Proof.Machine

/-! ### The measure -/

/-- How many steps MCG still takes, by its phase, the bits of the word sampled, and the words delivered. -/
def mcgLeft (phase : McgPhase) (bitcnt delivered : Nat) : Nat :=
  (match phase with
    | .mLoad => 66 * (2 - delivered)
    | .mDone => 66 * (2 - delivered) + 1
    | .mShift => 66 * (1 - delivered) + 2 * (32 - bitcnt) + 1
    | .mSample => 66 * (1 - delivered) + 2 * (32 - bitcnt)
    | .mPush => 66 * (1 - delivered) + 1) + (if delivered < 2 then 1 else 0)

theorem State.mcgStepsLeft_eq (s : State) : s.mcgStepsLeft = mcgLeft s.mcg.phase1 s.mcg.bitcnt s.delivered := by
  unfold State.mcgStepsLeft mcgLeft Mcg.wordStepsLeft
  cases s.mcg.phase1 <;> simp [McgPhase.inWord] <;> omega

theorem stepsLeft_xferEnter {s : State} (caller : Caller) (c : Byte) (p : Frame) (clean : s.clean = true) :
    (s.xferEnter caller c p).stepsLeft =
      140 + (if s.cse.phase0 = .cHold then 1 else 0) + (if s.mcg.phase1 = .mDone then 1 else 0) := by
  obtain ⟨free, -, -, -, rxf, -⟩ := s.clean_iff.1 clean
  have delivered : (s.xferEnter caller c p).delivered = 0 := by simp [State.delivered, State.xferEnter, rxf, HostPhase.read]
  have cse : (s.xferEnter caller c p).cseStepsLeft = (if s.cse.phase0 = .cHold then 1 else 0) + 2 := rfl
  have mcg : (s.xferEnter caller c p).mcgStepsLeft = 133 + (if s.mcg.phase1 = .mDone then 1 else 0) := by
    rw [State.mcgStepsLeft_eq, delivered]
    show mcgLeft s.mcg.phase1 s.mcg.bitcnt 0 = _
    obtain ⟨-, load | done⟩ := free
    · rw [load]; rfl
    · rw [done]; rfl
  rw [State.stepsLeft_inside (by nofun), cse, mcg, show (s.xferEnter caller c p).host.hphase.stepsLeft = 5 from rfl]
  omega

/-- HOST inside XFER did not move, and neither did CSE, MCG or `done`. -/
def Unmoved (s t : State) : Prop := t.cse = s.cse ∧ t.mcg = s.mcg ∧ t.done = s.done ∧ t.host.hphase = s.host.hphase

/-- What one step inside XFER does to the measure. -/
def CountsDown (s t : State) : Prop :=
  (t.host.hphase ≠ .hNone ∧ t.stepsLeft + 1 = s.stepsLeft) ∨ (t.host.hphase = .hNone ∧ s.host.hphase = .hR1) ∨ Unmoved s t

section

variable {s t : State} (busy : s.host.hphase ≠ .hNone)
include busy

/-- One off HOST's or CSE's part of the measure. -/
theorem CountsDown.of_host_cse (inside : t.host.hphase ≠ .hNone) (phase1 : t.mcg.phase1 = s.mcg.phase1)
    (bitcnt : t.mcg.bitcnt = s.mcg.bitcnt) (delivered : t.delivered = s.delivered)
    (parts : t.host.hphase.stepsLeft + t.cseStepsLeft + 1 = s.host.hphase.stepsLeft + s.cseStepsLeft) : CountsDown s t := by
  refine .inl ⟨inside, ?_⟩
  rw [State.stepsLeft_inside busy, State.stepsLeft_inside inside, t.mcgStepsLeft_eq, s.mcgStepsLeft_eq, phase1, bitcnt, delivered]
  omega

/-- One off MCG's part of the measure. -/
theorem CountsDown.of_mcg (host : t.host = s.host) (cse : t.cse = s.cse)
    (left : mcgLeft t.mcg.phase1 t.mcg.bitcnt t.delivered + 1 = mcgLeft s.mcg.phase1 s.mcg.bitcnt s.delivered) : CountsDown s t := by
  have inside : t.host.hphase ≠ .hNone := by rwa [host]
  refine .inl ⟨inside, ?_⟩
  rw [State.stepsLeft_inside busy, State.stepsLeft_inside inside, t.mcgStepsLeft_eq, s.mcgStepsLeft_eq, State.cseStepsLeft,
    State.cseStepsLeft, host, cse]
  omega

end

theorem CountsDown.of_silent {s u t : State} (h : TransferUntouched s u) (g : CountsDown u t) : CountsDown s t := by
  have left : u.stepsLeft = s.stepsLeft := State.stepsLeft_congr h.cse h.mcg h.hphase
  unfold CountsDown Unmoved at *
  rwa [left, h.cse, h.mcg, h.done, h.hphase] at g

theorem subStep_countsDown {s t : State} (busy : s.host.hphase ≠ .hNone) (h : SubStepEffect s t) : CountsDown s t := by
  cases h with
  | held h => subst h; exact .inr (.inr ⟨rfl, rfl, rfl, rfl⟩)
  | poll empty h => subst h; exact .inr (.inr ⟨rfl, rfl, rfl, rfl⟩)
  | ctl phase room h =>
    subst h
    exact .of_host_cse busy nofun rfl rfl (by simp [State.delivered, phase, HostPhase.read])
      (by simp [State.cseStepsLeft, phase, HostPhase.stepsLeft]; omega)
  | w0 phase room h =>
    subst h
    exact .of_host_cse busy nofun rfl rfl (by simp [State.delivered, phase, HostPhase.read])
      (by simp [State.cseStepsLeft, phase, HostPhase.stepsLeft]; omega)
  | w1 phase room h =>
    subst h
    exact .of_host_cse busy nofun rfl rfl (by simp [State.delivered, phase, HostPhase.read])
      (by simp [State.cseStepsLeft, phase, HostPhase.stepsLeft]; omega)
  | r0 w rest phase rxf h =>
    subst h
    exact .of_host_cse busy nofun rfl rfl (by simp [State.delivered, phase, rxf, HostPhase.read])
      (by simp [State.cseStepsLeft, phase, HostPhase.stepsLeft]; omega)
  | r1 w rest phase rxf h =>
    subst h
    exact .inr (.inl ⟨by rw [xferFinish_host]; rfl, phase⟩)

section

variable {s t : State} (inv : s.TransferInv) (busy : s.host.hphase ≠ .hNone)
include inv busy

theorem select_countsDown {w : Word32} {rest : List Word32} (pre : s.preCseSelect = true) (ctlf : s.cse.ctlf = w :: rest) (n : BitVec 5) :
    CountsDown s { s with cse := s.cse.select n } := by
  obtain ⟨controlled, -, empty, -⟩ := inv.waiting_word ctlf
  obtain ⟨-, idle, -⟩ := s.preCseSelect_iff.1 pre
  have beyond : s.host.hphase ≠ .hCtl := by intro h; rw [h] at controlled; cases controlled
  exact .of_host_cse busy busy rfl rfl rfl (by simp [State.cseStepsLeft, Cse.select, idle, ctlf, empty, beyond])

omit inv in
theorem release_countsDown (h : ReleaseEffect s t) : CountsDown s t := by
  cases h with
  | held h => subst h; exact .inr (.inr ⟨rfl, rfl, rfl, rfl⟩)
  | released running phase done h =>
    subst h
    exact .of_host_cse busy busy rfl rfl rfl (by simp [State.cseStepsLeft, phase]; omega)

omit inv in
/-- A word pushed is one delivered. -/
theorem push_countsDown {w : Nat} {next : McgPhase} {d : Bool} (phase : s.mcg.phase1 = .mPush)
    (h : (s.delivered = 0 ∧ next = .mLoad) ∨ (s.delivered = 1 ∧ next = .mDone)) :
    CountsDown s { s with mcg := { s.mcg with rxf := s.mcg.rxf ++ [s.mcg.isr], wordcnt := w, phase1 := next }, done := d } := by
  have delivered : { s with mcg := { s.mcg with rxf := s.mcg.rxf ++ [s.mcg.isr], wordcnt := w, phase1 := next }, done := d : State
      }.delivered = s.delivered + 1 := by simp [State.delivered]; omega
  refine .of_mcg busy rfl rfl ?_
  rw [delivered, phase]
  rcases h with ⟨count, rfl⟩ | ⟨count, rfl⟩ <;> rw [count] <;> rfl

theorem mcg_countsDown (h : McgEffect s t) : CountsDown s t := by
  cases h with
  | held h => subst h; exact .inr (.inr ⟨rfl, rfl, rfl, rfl⟩)
  | load w rest phase active txf h =>
    subst h
    obtain ⟨-, -, -, -, few⟩ := inv.transacting active (inv.driver.done_down (.inl (by simp [phase])))
    refine .of_mcg busy rfl rfl ?_
    rw [phase]
    show mcgLeft .mShift 0 s.delivered + 1 = _
    simp only [mcgLeft]
    omega
  | shift phase h =>
    subst h
    refine .of_mcg busy rfl rfl ?_
    rw [phase]
    show mcgLeft .mSample s.mcg.bitcnt s.delivered + 1 = _
    simp only [mcgLeft]
    omega
  | sample phase h =>
    subst h
    have below : s.mcg.bitcnt < 32 := by simpa [Mcg.BitcntOk, phase] using inv.driver.bitcnt
    refine .of_mcg busy rfl rfl ?_
    rw [phase]
    show mcgLeft (if s.mcg.bitcnt + 1 = 32 then .mPush else .mShift) (s.mcg.bitcnt + 1) s.delivered + 1 = _
    split <;> simp only [mcgLeft] <;> omega
  | pushFirst phase room wordcnt h =>
    subst h
    exact push_countsDown busy phase (d := s.done) (.inl ⟨inv.none_delivered phase wordcnt, rfl⟩)
  | pushSecond phase room wordcnt h =>
    subst h
    exact push_countsDown busy phase (.inr ⟨inv.one_delivered wordcnt, rfl⟩)
  | rearm phase done h =>
    subst h
    refine .of_mcg busy rfl rfl ?_
    rw [phase]
    show mcgLeft .mLoad s.mcg.bitcnt s.delivered + 1 = _
    simp only [mcgLeft]
    omega

theorem transition_countsDown (noTimeout : s.params.xferTimeout = none) (h : Transition s t) : CountsDown s t := by
  have unclean {u : State} (hu : DriverUntouched s u) (clean : u.clean = true) : False :=
    busy (by have outside := State.clean_outside clean; rwa [hu.host] at outside)
  cases h with
  | silent h => exact .inr (.inr ⟨h.cse, h.mcg, h.done, h.hphase⟩)
  | operation free h => exact absurd free busy
  | atomic u caller c p hu clean ha h => exact (unclean hu clean).elim
  | enter u caller c p hu clean ha h => exact (unclean hu clean).elim
  | subStep _ h => exact subStep_countsDown busy h
  | timeout may h => simp [State.mayTimeout, noTimeout] at may
  | select w rest pre ctlf h => subst h; exact select_countsDown inv busy pre ctlf _
  | release h => exact release_countsDown busy h
  | mcg running h => exact mcg_countsDown inv busy h

theorem step_countsDown (noTimeout : s.params.xferTimeout = none) (h : step s = .next t) : CountsDown s t := by
  obtain ⟨u, taken, move⟩ := step_transition h
  exact .of_silent taken
    (transition_countsDown (inv.silent taken) (taken.hphase ▸ busy) (by rw [taken.params, noTimeout]) move)

end

end Sys2Proof.Machine
end

section
/-! Progress of a transfer: some agent can always take a step, so every fair run ends it (43_transfer.md R134 (a), (e)). -/

namespace Sys2Proof.Machine

/-! ### An agent that can step -/

/-- The agents with an enabled step of the XFER in progress (42_waveform.md R118, 43_transfer.md R133). -/
inductive Enabled (s : State) : Turn → Prop where
  | ctl (phase : s.host.hphase = .hCtl) (room : s.cse.ctlf.length < s.params.wfifoDepth) : Enabled s .host
  | w0 (phase : s.host.hphase = .hW0) (room : s.mcg.txf.length < s.params.wfifoDepth) : Enabled s .host
  | w1 (phase : s.host.hphase = .hW1) (room : s.mcg.txf.length < s.params.wfifoDepth) : Enabled s .host
  | r0 (phase : s.host.hphase = .hR0) (rxf : s.mcg.rxf ≠ []) : Enabled s .host
  | r1 (phase : s.host.hphase = .hR1) (rxf : s.mcg.rxf ≠ []) : Enabled s .host
  | select (pre : s.preCseSelect = true) : Enabled s .cse
  | release (pre : s.preCseRelease = true) : Enabled s .cse
  | load (running : s.mcg.en1 = true) (phase : s.mcg.phase1 = .mLoad) (active : s.cse.csActive = true) (txf : s.mcg.txf ≠ []) : Enabled s .mcg
  | shift (running : s.mcg.en1 = true) (phase : s.mcg.phase1 = .mShift) : Enabled s .mcg
  | sample (running : s.mcg.en1 = true) (phase : s.mcg.phase1 = .mSample) : Enabled s .mcg
  | push (running : s.mcg.en1 = true) (phase : s.mcg.phase1 = .mPush) (room : s.mcg.rxf.length < s.params.wfifoDepth) : Enabled s .mcg
  | rearm (running : s.mcg.en1 = true) (phase : s.mcg.phase1 = .mDone) (done : s.done = false) : Enabled s .mcg

theorem Enabled.agent {s : State} {a : Turn} (h : Enabled s a) : a = .host ∨ a = .cse ∨ a = .mcg := by
  cases h <;> simp

/-- Whether an agent can step is in the parameters, the machines and HOST's position alone. -/
theorem Enabled.congr {s t : State} {a : Turn} (h : Enabled s a) (params : t.params = s.params) (same : Unmoved s t) : Enabled t a := by
  obtain ⟨cse, mcg, done, hphase⟩ := same
  cases h with
  | ctl phase room => exact .ctl (hphase.trans phase) (by rwa [cse, params])
  | w0 phase room => exact .w0 (hphase.trans phase) (by rwa [mcg, params])
  | w1 phase room => exact .w1 (hphase.trans phase) (by rwa [mcg, params])
  | r0 phase rxf => exact .r0 (hphase.trans phase) (by rwa [mcg])
  | r1 phase rxf => exact .r1 (hphase.trans phase) (by rwa [mcg])
  | select pre => exact .select (by rwa [State.preCseSelect, cse])
  | release pre => exact .release (by rwa [State.preCseRelease, cse, done])
  | load running phase active txf => exact .load (by rwa [mcg]) (by rwa [mcg]) (by rwa [cse]) (by rwa [mcg])
  | shift running phase => exact .shift (by rwa [mcg]) (by rwa [mcg])
  | sample running phase => exact .sample (by rwa [mcg]) (by rwa [mcg])
  | push running phase room => exact .push (by rwa [mcg]) (by rwa [mcg]) (by rwa [mcg, params])
  | rearm running phase down => exact .rearm (by rwa [mcg]) (by rwa [mcg]) (by rwa [done])

theorem not_unmoved_of_hphase {s t : State} {p q : HostPhase} (hs : s.host.hphase = p) (ht : t.host.hphase = q) (ne : q ≠ p) :
    ¬ Unmoved s t := fun ⟨_, _, _, same⟩ => ne (ht.symm.trans (same.trans hs))

theorem not_unmoved_of_phase0 {s t : State} {p q : CsePhase} (hs : s.cse.phase0 = p) (ht : t.cse.phase0 = q) (ne : q ≠ p) :
    ¬ Unmoved s t := fun ⟨same, _⟩ => ne (ht.symm.trans ((congrArg Cse.phase0 same).trans hs))

theorem not_unmoved_of_phase1 {s t : State} {p q : McgPhase} (hs : s.mcg.phase1 = p) (ht : t.mcg.phase1 = q) (ne : q ≠ p) :
    ¬ Unmoved s t := fun ⟨_, same, _⟩ => ne (ht.symm.trans ((congrArg Mcg.phase1 same).trans hs))

/-- The turn of an agent that can step moves its own phase. -/
theorem Enabled.moves {s t : State} {a : Turn} (enabled : Enabled s a) (turn : s.turn = a) (h : step s = .next t) : ¬ Unmoved s t := by
  obtain ⟨-, ctlRow, w0Row, w1Row, -, r0Row, -⟩ := hostSubStepsFollowTheTable
  obtain ⟨selectStep, releaseStep⟩ := cseSelectAndReleaseSteps
  cases enabled with
  | ctl phase room =>
    rw [ctlRow s turn phase, if_pos room] at h
    cases h
    exact not_unmoved_of_hphase phase rfl nofun
  | w0 phase room =>
    rw [w0Row s turn phase, if_pos room] at h
    cases h
    exact not_unmoved_of_hphase phase rfl nofun
  | w1 phase room =>
    rw [w1Row s turn phase, if_pos room] at h
    cases h
    exact not_unmoved_of_hphase phase rfl nofun
  | r0 phase rxf =>
    obtain ⟨w, rest, word⟩ := List.exists_cons_of_ne_nil rxf
    rw [r0Row s w rest turn phase word] at h
    cases h
    exact not_unmoved_of_hphase phase rfl nofun
  | r1 phase rxf =>
    obtain ⟨w, rest, word⟩ := List.exists_cons_of_ne_nil rxf
    rw [step_last_read turn phase word] at h
    cases h
    exact not_unmoved_of_hphase (q := .hNone) phase (congrArg HostFlow.hphase (xferFinish_host _ _ _ _ _)) nofun
  | select pre =>
    obtain ⟨running, idle, waiting⟩ := s.preCseSelect_iff.1 pre
    obtain ⟨w, rest, ctlf⟩ := List.exists_cons_of_ne_nil waiting
    rw [selectStep w rest s turn running idle ctlf] at h
    cases h
    exact not_unmoved_of_phase0 idle rfl nofun
  | release pre =>
    obtain ⟨running, hold, done⟩ := s.preCseRelease_iff.1 pre
    rw [releaseStep s turn running hold done] at h
    cases h
    exact not_unmoved_of_phase0 hold rfl nofun
  | load running phase active txf =>
    obtain ⟨w, rest, word⟩ := List.exists_cons_of_ne_nil txf
    rw [(mcgLoadAndRearmSteps.1 s turn running phase).1 w rest active word] at h
    cases h
    exact not_unmoved_of_phase1 phase rfl nofun
  | shift running phase =>
    rw [mcgShiftAndSampleSteps.1 s turn running phase] at h
    cases h
    exact not_unmoved_of_phase1 phase rfl nofun
  | sample running phase =>
    obtain ⟨u, stepped, -, -, -, -, -, mcg, -⟩ := mcgShiftAndSampleSteps.2 s turn running phase
    rw [stepped] at h
    cases h
    exact not_unmoved_of_phase1 phase (congrArg Mcg.phase1 mcg) (by split <;> nofun)
  | push running phase room =>
    rw [mcgPushStep s turn running phase, if_pos room] at h
    split at h <;> cases h <;> exact not_unmoved_of_phase1 phase rfl nofun
  | rearm running phase down =>
    rw [mcgLoadAndRearmSteps.2 s turn running phase, if_neg (by simp [down])] at h
    cases h
    exact not_unmoved_of_phase1 phase rfl nofun

theorem stepsLeft_outside {s : State} (free : s.host.hphase = .hNone) : s.stepsLeft = 0 := if_pos free

section

variable {s : State} (inv : s.TransferInv) (busy : s.host.hphase ≠ .hNone)
include inv busy

theorem Enabled.decreases {a : Turn} (enabled : Enabled s a) (noTimeout : s.params.xferTimeout = none) (turn : s.turn = a) :
    ∃ t, step s = .next t ∧ t.stepsLeft < s.stepsLeft := by
  obtain ⟨t, h⟩ := step_inside_answers busy
  refine ⟨t, h, ?_⟩
  rcases step_countsDown inv busy noTimeout h with ⟨-, off⟩ | ⟨free, -⟩ | same
  · omega
  · rw [stepsLeft_outside free]
    exact State.stepsLeft_pos busy
  · exact absurd same (enabled.moves turn h)

omit busy in
/-- HOST waiting on an empty `rxf`: both words are written, and what is not delivered waits, is being shifted, or is in `txf`. -/
theorem enabled_machine (run : s.machinesRun) (depth : 2 ≤ s.params.wfifoDepth) (controlled : s.host.hphase.controlled = true)
    (written : s.host.hphase.written = 2) (rxf : s.mcg.rxf = []) (few : s.delivered < 2) : ∃ a, Enabled s a := by
  obtain ⟨en0, en1⟩ := run
  rcases inv.stage controlled with ⟨ctlf, -, ⟨idle | ⟨hold, done⟩, -⟩⟩ | ⟨ctlf, hold, -, -, down⟩ | ⟨-, both, -⟩
  · exact ⟨_, .select (s.preCseSelect_iff.2 ⟨en0, idle, by simp [ctlf]⟩)⟩
  · exact ⟨_, .release (s.preCseRelease_iff.2 ⟨en0, hold, done⟩)⟩
  · have active : s.cse.csActive = true := by
      rcases inv.driver.select with ⟨idle, -⟩ | ⟨-, active, -⟩
      · rw [hold] at idle; cases idle
      · exact active
    cases phase : s.mcg.phase1 with
    | mLoad =>
      have pending := inv.pending
      rw [written, phase] at pending
      refine ⟨_, .load en1 phase active fun empty => ?_⟩
      have length := congrArg List.length pending
      simp [empty, McgPhase.inWord] at length
      omega
    | mShift => exact ⟨_, .shift en1 phase⟩
    | mSample => exact ⟨_, .sample en1 phase⟩
    | mPush => exact ⟨_, .push en1 phase (by rw [rxf]; exact Nat.lt_of_lt_of_le (by decide) depth)⟩
    | mDone => exact ⟨_, .rearm en1 phase down⟩
  · omega

theorem exists_enabled (run : s.machinesRun) (depth : 2 ≤ s.params.wfifoDepth) : ∃ a, Enabled s a := by
  have pending := congrArg List.length inv.pending
  have waits (h : s.host.hphase = .hR0 ∨ s.host.hphase = .hR1) (rxf : s.mcg.rxf = []) : ∃ a, Enabled s a := by
    have phase : s.host.hphase.controlled = true ∧ s.host.hphase.written = 2 ∧ s.host.hphase.read ≤ 1 := by
      rcases h with h | h <;> rw [h] <;> exact ⟨rfl, rfl, by decide⟩
    obtain ⟨controlled, written, read⟩ := phase
    have few : s.delivered < 2 := by
      rw [State.delivered, rxf, List.length_nil]
      omega
    exact enabled_machine inv run depth controlled written rxf few
  cases phase : s.host.hphase with
  | hNone => exact absurd phase busy
  | hCtl =>
    obtain ⟨ctlf, -⟩ := inv.idle (by rw [phase]; rfl)
    exact ⟨_, .ctl phase (by rw [ctlf]; exact Nat.lt_of_lt_of_le (by decide) depth)⟩
  | hW0 =>
    rw [phase] at pending
    simp [HostPhase.written] at pending
    exact ⟨_, .w0 phase (by rw [pending]; exact Nat.lt_of_lt_of_le (by decide) depth)⟩
  | hW1 =>
    rw [phase] at pending
    simp [HostPhase.written] at pending
    exact ⟨_, .w1 phase (by omega)⟩
  | hR0 =>
    by_cases rxf : s.mcg.rxf = []
    · exact waits (.inl phase) rxf
    · exact ⟨_, .r0 phase rxf⟩
  | hR1 =>
    by_cases rxf : s.mcg.rxf = []
    · exact waits (.inr phase) rxf
    · exact ⟨_, .r1 phase rxf⟩

end

/-! ### Runs -/

/-- A step consumes its turn and no other (20_memory.md R55). -/
theorem step_turns {s t : State} (h : step s = .next t) : t.oracle.turns = s.turnTaken.oracle.turns := by
  have exec_turns {i : Instr} {u : State} (h : exec i u = .next t) : t.oracle.turns = u.oracle.turns := by
    cases exec_effect h with
    | held n w hi h => rw [h]
    | select n w hi pre head h => rw [h]
    | host free h => rw [h.oracle]
    | atomic v caller c p hv hc clean ha h => rw [h]; exact (hv.transferKeeps.trans (xferAtomic_transferKeeps v caller c p)).turns
    | enter v caller c p hv hc clean ha h => rw [h]; exact congrArg Oracle.turns hv.oracle
  cases step_effect h with
  | call c rest i turn free calls hi h => exact (exec_turns h :)
  | idle turn h => rw [h]
  | subStep turn busy h =>
    rw [h]
    cases hostSubStep_effect s.turnTaken with
    | r1 w rest phase rxf h => rw [h, (xferFinish_untouched _ _ _ _ _).oracle]; rfl
    | held h => rw [h]
    | poll empty h => rw [h]; rfl
    | ctl phase room h => rw [h]
    | w0 phase room h => rw [h]
    | w1 phase room h => rw [h]
    | r0 w rest phase rxf h => rw [h]
  | timeout turn h =>
    rw [h]
    rcases hostTimeout_eq s.turnTaken with same | ⟨-, left⟩
    · rw [same]
    · rw [left]; rfl
  | select w rest turn pre ctlf h => exact exec_turns h
  | release turn pre h =>
    rw [h]
    cases cseRelease_effect s.turnTaken with
    | held h => rw [h]
    | released running phase done h => rw [h]
  | mcg turn h =>
    rw [h]
    cases mcgStep_effect s.turnTaken with
    | held h => rw [h]
    | load w rest phase active txf h => rw [h]
    | shift phase h => rw [h]
    | sample phase h => rw [h]; rfl
    | pushFirst phase room wordcnt h => rw [h]
    | pushSecond phase room wordcnt h => rw [h]
    | rearm phase done h => rw [h]
  | scr turn h =>
    rw [h]
    unfold State.scrStep
    split_ifs
    · rfl
    · unfold State.scrShift
      split <;> rfl
    · rfl
    · rfl
    · rfl
  | env line v turn h => rw [h, envSet_frame]

theorem step_turns_cons {s t : State} {a : Turn} {rest : List Turn} (turns : s.oracle.turns = a :: rest) (h : step s = .next t) :
    t.oracle.turns = rest := by
  rw [step_turns h, State.turnTaken_of_turns turns]

/-- A state inside the XFER that began at the oracle `o`, under the premises of 43_transfer.md R134. -/
structure Transferring (o : Oracle) (s : State) : Prop where
  run : s.machinesRun
  noTimeout : s.params.xferTimeout = none
  depth : 2 ≤ s.params.wfifoDepth
  inv : s.TransferInv
  receive : s.ReceiveInv o
  inside : s.host.hphase ≠ .hNone

/-- The end of a run: XFER is left within `n` steps, with the invariant and what it should return. -/
def EndsWithin (o : Oracle) (n : Nat) (s : State) : Prop :=
  ∃ k t, k ≤ n ∧ Host.Core.run Sys2Proof.core k s = .next t ∧ t.TransferInv ∧ LeavesXfer o s t

theorem EndsWithin.of_run {o : Oracle} {s t : State} {k n : Nat} (run : Host.Core.run Sys2Proof.core k s = .next t)
    (stays : StaysInXfer o s t) (h : EndsWithin o n t) : EndsWithin o (k + n) s := by
  obtain ⟨j, u, hj, ran, inv, leaves⟩ := h
  exact ⟨k + j, u, by omega, (run_add run).trans ran, inv, leaves.of_stays stays⟩

theorem EndsWithin.mono {o : Oracle} {s : State} {n m : Nat} (h : EndsWithin o n s) (le : n ≤ m) : EndsWithin o m s := by
  obtain ⟨k, t, hk, rest⟩ := h
  exact ⟨k, t, hk.trans le, rest⟩

/-- One step under the premises: XFER is over, or the transfer goes on with the measure counted. -/
theorem Transferring.step {o : Oracle} {s t : State} (h : Transferring o s) (stepped : step s = .next t) :
    (t.TransferInv ∧ LeavesXfer o s t) ∨ (Transferring o t ∧ StaysInXfer o s t ∧ (t.stepsLeft + 1 = s.stepsLeft ∨ Unmoved s t)) := by
  obtain ⟨run, noTimeout, depth, inv, receive, inside⟩ := h
  have settings := step_settings stepped
  have inv' := stepKeepsTransfer s t noTimeout inv stepped
  rcases step_stays_or_leaves inv receive noTimeout inside stepped with stays | leaves
  · refine .inr ⟨⟨⟨settings.en0.trans run.1, settings.en1.trans run.2⟩, settings.params ▸ noTimeout, settings.params ▸ depth, inv',
      stays.receive, stays.inside⟩, stays, ?_⟩
    rcases step_countsDown inv inside noTimeout stepped with ⟨-, off⟩ | ⟨free, -⟩ | same
    · exact .inl off
    · exact absurd free stays.inside
    · exact .inr same
  · exact .inl ⟨inv', leaves⟩

theorem Unmoved.stepsLeft {s t : State} (h : Unmoved s t) : t.stepsLeft = s.stepsLeft :=
  let ⟨cse, mcg, _, hphase⟩ := h
  State.stepsLeft_congr cse mcg hphase

theorem StaysInXfer.refl {o : Oracle} {s : State} (h : Transferring o s) : StaysInXfer o s s := .silent h.inside h.receive (.rfl s)

/-- Through a list of turns: XFER is over on the way, or the measure is counted, and is less if an agent that can step has a turn. -/
theorem Transferring.turns {o : Oracle} (l : List Turn) : ∀ {s : State} {rest : List Turn}, Transferring o s →
    s.oracle.turns = l ++ rest → EndsWithin o l.length s ∨
      ∃ t, Host.Core.run Sys2Proof.core l.length s = .next t ∧ Transferring o t ∧ StaysInXfer o s t ∧ t.oracle.turns = rest ∧
        t.stepsLeft ≤ s.stepsLeft ∧ ∀ a ∈ l, Enabled s a → t.stepsLeft < s.stepsLeft := by
  induction l with
  | nil => exact fun h turns => .inr ⟨_, rfl, h, .refl h, turns, Nat.le_refl _, by simp⟩
  | cons b l ih =>
    intro s rest h turns
    obtain ⟨u, stepped⟩ := step_inside_answers h.inside
    have ran : Host.Core.run Sys2Proof.core 1 s = .next u := run_succ (n := 0) stepped
    rcases h.step stepped with ⟨inv, leaves⟩ | ⟨hu, stays, moved⟩
    · exact .inl ⟨1, u, by simp, ran, inv, leaves⟩
    · rcases ih hu (step_turns_cons turns stepped) with ends | ⟨t, runs, ht, stays', turns', le, less⟩
      · exact .inl ((ends.of_run ran stays).mono (by simp; omega))
      · refine .inr ⟨t, (run_succ stepped).trans runs, ht, stays.trans stays', turns', ?_⟩
        rcases moved with off | same
        · exact ⟨by omega, fun _ _ _ => by omega⟩
        · rw [same.stepsLeft] at le less
          refine ⟨le, fun a ha enabled => ?_⟩
          have other : a ≠ b := by
            rintro rfl
            exact enabled.moves (State.turn_of_turns turns) stepped same
          exact less a (List.mem_of_ne_of_mem other ha) (enabled.congr (step_settings stepped).params same)

/-- As many rounds as steps are left end XFER: each has a turn of an agent that can step. -/
theorem Transferring.rounds {o : Oracle} (rounds : List (List Turn)) : ∀ {s : State} {rest : List Turn}, Transferring o s →
    s.oracle.turns = rounds.flatten ++ rest → s.stepsLeft ≤ rounds.length → (∀ r ∈ rounds, .host ∈ r ∧ .cse ∈ r ∧ .mcg ∈ r) →
    EndsWithin o rounds.flatten.length s := by
  induction rounds with
  | nil =>
    intro s rest h _ left _
    exact absurd left (Nat.not_le.2 (State.stepsLeft_pos h.inside))
  | cons r rs ih =>
    intro s rest h turns left fair
    rw [List.flatten_cons, List.append_assoc] at turns
    rw [List.flatten_cons, List.length_append]
    obtain ⟨a, enabled⟩ := exists_enabled h.inv h.inside h.run h.depth
    have mem : a ∈ r := by
      obtain ⟨host, cse, mcg⟩ := fair r (by simp)
      rcases enabled.agent with rfl | rfl | rfl
      · exact host
      · exact cse
      · exact mcg
    rcases h.turns r turns with ends | ⟨t, ran, ht, stays, turns', -, less⟩
    · exact ends.mono (by omega)
    · have fewer := less a mem enabled
      rw [List.length_cons] at left
      exact (ih ht turns' (by omega) fun r' hr => fair r' (by simp [hr])).of_run ran stays

end Sys2Proof.Machine

namespace Sys2Proof

open Sys2Proof.Machine

/-- Settles O56: the entry by its measure, a step by what it counts, progress by the agent that can step. -/
theorem transferStepsCountDown : Obligations.TransferStepsCountDown := by
  refine ⟨fun s caller c p _ clean => ?_, fun s run noTimeout depth inv busy => ⟨fun t h => step_countsDown inv busy noTimeout h, ?_⟩⟩
  · rw [stepsLeft_xferEnter caller c p clean]
    split <;> split <;> omega
  · obtain ⟨a, enabled⟩ := exists_enabled inv busy run depth
    refine ⟨a, enabled.agent, fun u params cse mcg done hphase invU turn => ?_⟩
    have same : Unmoved s u := ⟨cse, mcg, done, hphase⟩
    rw [← same.stepsLeft]
    exact (enabled.congr params same).decreases invU (hphase ▸ busy) (by rw [params, noTimeout]) turn

/-- Settles O57: by induction on the rounds, each of which takes at least one step off. -/
theorem xferEndsUnderEveryFairSchedule : Obligations.XferEndsUnderEveryFairSchedule := by
  intro o s rounds turns run noTimeout depth inv receive busy schedule left fair
  obtain ⟨n, t, hn, ran, inv', ⟨outside, busLog, returned, slots⟩⟩ :=
    Transferring.rounds rounds ⟨run, noTimeout, depth, inv, receive, busy⟩ schedule left fair
  exact ⟨n, t, hn, ran, outside, inv', busLog, returned, slots⟩

end Sys2Proof
end

section
/-! A stopped machine hangs XFER (43_transfer.md R135 (a)): the entry stalls, and every step keeps the stall. -/

namespace Sys2Proof.Machine

/-- A stopped machine leaves no premise for the atomic step. -/
theorem State.atomicXfer_of_stopped {s : State} (stopped : ¬ s.machinesRun) : s.atomicXfer = false := by
  cases atomic : s.atomicXfer with
  | false => rfl
  | true =>
    simp only [State.atomicXfer, Bool.and_eq_true] at atomic
    obtain ⟨⟨⟨⟨-, en0⟩, en1⟩, -⟩, -⟩ := atomic
    exact absurd ⟨en0, en1⟩ stopped

/-- The entry of XFER from a clean driver with a stopped machine stalls. -/
theorem State.Stalled.xferEnter {s : State} (inv : s.DriverInv) (clean : s.clean = true) (noTimeout : s.params.xferTimeout = none)
    (stopped : ¬ s.machinesRun) (caller : Caller) (c : Byte) (p : Frame) : (s.xferEnter caller c p).Stalled := by
  obtain ⟨⟨consumed, between⟩, -, -, -, rxf, -⟩ := s.clean_iff.1 clean
  refine ⟨noTimeout, ⟨nofun, nofun⟩, rxf, ?_⟩
  show s.mcg.en1 = false ∨ (s.cse.en0 = false ∧ _)
  cases en1 : s.mcg.en1 with
  | false => exact .inl rfl
  | true =>
    have en0 : s.cse.en0 = false := Bool.eq_false_iff.2 fun en0 => stopped ⟨en0, en1⟩
    refine .inr ⟨en0, ?_⟩
    rcases consumed with idle | ⟨-, done⟩
    · rcases inv.select with ⟨-, inactive, -⟩ | ⟨hold, -⟩
      · exact .inl ⟨inactive, between⟩
      · rw [idle] at hold; cases hold
    · exact .inr ⟨done, (inv.completion done).1⟩

theorem State.Stalled.untouched {s t : State} (h : s.Stalled) (same : TransferUntouched s t) : t.Stalled := by
  obtain ⟨noTimeout, inside, noWord, stopped⟩ := h
  exact ⟨by rw [same.params, noTimeout], by rw [same.hphase]; exact inside, by rw [same.mcg, noWord],
    by rw [same.mcg, same.cse, same.done]; exact stopped⟩

/-- HOST's position moves short of the last read, and what stalls the machines stands as it was. -/
theorem State.Stalled.hostMoves {s t : State} (h : s.Stalled) (inside : t.host.hphase ≠ .hNone ∧ t.host.hphase ≠ .hR1)
    (params : t.params = s.params) (rxf : t.mcg.rxf = s.mcg.rxf) (en1 : t.mcg.en1 = s.mcg.en1) (phase1 : t.mcg.phase1 = s.mcg.phase1)
    (en0 : t.cse.en0 = s.cse.en0) (csActive : t.cse.csActive = s.cse.csActive) (done : t.done = s.done) : t.Stalled :=
  ⟨params ▸ h.noTimeout, inside, rxf.trans h.noWord, by rw [en1, en0, csActive, phase1, done]; exact h.stopped⟩

/-- The one step a running MCG still has with CSE stopped is MCG-REARM. -/
theorem State.Stalled.mcg {s t : State} (h : s.Stalled) (running : s.mcg.en1 = true) (moved : McgEffect s t) :
    t.Stalled ∧ t.host.returned = s.host.returned := by
  obtain ⟨noTimeout, inside, noWord, stopped⟩ := h
  obtain ⟨en0, pending⟩ := stopped.resolve_left (by simp [running])
  have between : s.mcg.phase1 = .mLoad ∨ s.mcg.phase1 = .mDone := by
    rcases pending with ⟨-, between⟩ | ⟨-, mDone⟩
    · exact between
    · exact .inr mDone
  cases moved with
  | held same => rw [same]; exact ⟨⟨noTimeout, inside, noWord, stopped⟩, rfl⟩
  | load w rest phase active txf _ => simp [phase, active] at pending
  | shift phase _ => simp [phase] at between
  | sample phase _ => simp [phase] at between
  | pushFirst phase room wordcnt _ => simp [phase] at between
  | pushSecond phase room wordcnt _ => simp [phase] at between
  | rearm phase done moved =>
    subst moved
    have inactive : s.cse.csActive = false := by
      rcases pending with ⟨inactive, -⟩ | ⟨up, -⟩
      · exact inactive
      · rw [done] at up; cases up
    exact ⟨⟨noTimeout, inside, noWord, .inr ⟨en0, .inl ⟨inactive, .inl rfl⟩⟩⟩, rfl⟩

theorem State.Stalled.subStep {s t : State} (h : s.Stalled) (moved : SubStepEffect s t) :
    t.Stalled ∧ t.host.returned = s.host.returned := by
  cases moved with
  | held same => rw [same]; exact ⟨h, rfl⟩
  | poll empty moved => subst moved; exact ⟨h.hostMoves h.inside rfl rfl rfl rfl rfl rfl rfl, rfl⟩
  | ctl phase room moved => subst moved; exact ⟨h.hostMoves ⟨nofun, nofun⟩ rfl rfl rfl rfl rfl rfl rfl, rfl⟩
  | w0 phase room moved => subst moved; exact ⟨h.hostMoves ⟨nofun, nofun⟩ rfl rfl rfl rfl rfl rfl rfl, rfl⟩
  | w1 phase room moved => subst moved; exact ⟨h.hostMoves ⟨nofun, nofun⟩ rfl rfl rfl rfl rfl rfl rfl, rfl⟩
  | r0 w rest phase rxf _ => rw [h.noWord] at rxf; cases rxf
  | r1 w rest phase rxf _ => exact absurd phase h.inside.2

theorem State.Stalled.transition {s t : State} (h : s.Stalled) (moved : Transition s t) :
    t.Stalled ∧ t.host.returned = s.host.returned := by
  have busy := h.inside.1
  have mcgStopped (en0 : s.cse.en0 = true) : s.mcg.en1 = false := by
    rcases h.stopped with en1 | ⟨down, -⟩
    · exact en1
    · rw [en0] at down; cases down
  cases moved with
  | silent same => exact ⟨h.untouched same, same.returned⟩
  | operation free _ => exact absurd free busy
  | atomic u caller c p same clean _ _ => exact absurd (State.clean_outside (same.clean.symm.trans clean)) busy
  | enter u caller c p same clean _ _ => exact absurd (State.clean_outside (same.clean.symm.trans clean)) busy
  | subStep _ moved => exact h.subStep moved
  | timeout may _ => simp [State.mayTimeout, h.noTimeout] at may
  | select w rest pre ctlf moved =>
    obtain ⟨en0, -⟩ := s.preCseSelect_iff.1 pre
    subst moved
    exact ⟨⟨h.noTimeout, h.inside, h.noWord, .inl (mcgStopped en0)⟩, rfl⟩
  | release moved =>
    cases moved with
    | held same => rw [same]; exact ⟨h, rfl⟩
    | released en0 phase done moved =>
      subst moved
      exact ⟨⟨h.noTimeout, h.inside, h.noWord, .inl (mcgStopped en0)⟩, rfl⟩
  | mcg running moved => exact h.mcg running moved

theorem State.Stalled.step {s : State} (h : s.Stalled) :
    ∃ t, step s = .next t ∧ t.Stalled ∧ t.host.returned = s.host.returned := by
  obtain ⟨t, stepped⟩ := step_inside_answers h.inside.1
  obtain ⟨u, same, moved⟩ := step_transition stepped
  obtain ⟨stalled, returned⟩ := (h.untouched same).transition moved
  exact ⟨t, stepped, stalled, returned.trans same.returned⟩

theorem State.Stalled.run (n : Nat) {s : State} (h : s.Stalled) :
    ∃ t, Host.Core.run Sys2Proof.core n s = .next t ∧ t.host.hphase ≠ .hNone ∧ t.host.returned = s.host.returned := by
  induction n generalizing s with
  | zero => exact ⟨s, rfl, h.inside.1, rfl⟩
  | succ n ih =>
    obtain ⟨u, stepped, stalled, returned⟩ := h.step
    obtain ⟨t, ran, inside, returned'⟩ := ih stalled
    exact ⟨t, (run_succ stepped).trans ran, inside, returned'.trans returned⟩

end Sys2Proof.Machine

namespace Sys2Proof

open Sys2Proof.Machine

/-- Settles O58: the entry stalls, a step keeps the stall, and so does a run. -/
theorem stoppedMachineHangsXfer : Obligations.StoppedMachineHangsXfer := by
  refine ⟨fun s inv clean noTimeout stopped => ?_, fun s h => h.step, fun s n h => h.run n⟩
  have free := State.clean_outside clean
  have ha := State.atomicXfer_of_stopped stopped
  refine ⟨fun c p below => ?_, fun n below => ?_⟩
  · rw [exec_xfer_outside_xfer c p free, State.xfer_enter .xfer p (Nat.not_lt.2 below) clean ha]
    exact ⟨_, rfl, .xferEnter inv clean noTimeout stopped _ _ _⟩
  · have popped := pollPopped_untouched s ⟨n.toNat, by omega⟩
    rw [exec_slotPoll_outside_xfer (i := ⟨n.toNat, by omega⟩) free rfl, State.slotPoll_enter _ clean ha]
    refine ⟨_, rfl, .xferEnter (inv.untouched popped) (popped.clean.trans clean) (by rw [popped.params, noTimeout]) ?_ _ _ _⟩
    rwa [State.machinesRun, popped.cse, popped.mcg]

end Sys2Proof
end

section
/-! One transfer at the waveform level, its turns in the order of 42_waveform.md R118, and the atomic step it refines (43_transfer.md R134). -/

namespace Sys2Proof.Machine

/-! ### The turns of a transfer, one at a time -/

/-- CSE with its release done. -/
def Cse.idled (m : Cse) : Cse := { m with phase0 := .cIdle, csActive := false, csl := Config.csIdle }

theorem Cse.idled_of_idle {m : Cse} (phase : m.phase0 = .cIdle) (inactive : m.csActive = false) (csl : m.csl = Config.csIdle) :
    m.idled = m := by
  rw [Cse.idled, ← phase, ← inactive, ← csl]

section

variable {s : State} {rest : List Turn}

theorem step_release_done (running : s.cse.en0 = true) (hold : s.cse.phase0 = .cHold) (done : s.done = true)
    (turns : s.oracle.turns = .cse :: rest) :
    step s = .next { s with cse := s.cse.idled, done := false, oracle := { s.oracle with turns := rest } } := by
  rw [step_release (State.turn_of_turns turns) (preCseSelect_hold hold), State.turnTaken_of_turns turns]
  exact congrArg Host.Outcome.next (cseRelease_of_done running hold done)

theorem step_cse_settle (inv : s.DriverInv) (clean : s.clean = true) (running : s.cse.en0 = true)
    (turns : s.oracle.turns = .cse :: rest) :
    step s = .next { s with cse := s.cse.idled, done := false, oracle := { s.oracle with turns := rest } } := by
  obtain ⟨⟨consumed, -⟩, -, ctlf, -⟩ := s.clean_iff.1 clean
  rcases consumed with idle | ⟨hold, done⟩
  · have same : s.cse.idled = s.cse := by
      rcases inv.select with ⟨-, inactive, csl⟩ | ⟨hold, -⟩
      · exact Cse.idled_of_idle idle inactive csl
      · rw [idle] at hold; cases hold
    have down : s.done = false := by
      cases done : s.done with
      | false => rfl
      | true => rw [(inv.completion done).2] at idle; cases idle
    rw [step_cse_held (State.turn_of_turns turns) (.inr (.inl ⟨idle, ctlf⟩)), State.turnTaken_of_turns turns, same, ← down]
  · exact step_release_done running hold done turns

theorem step_mcg_settle (between : s.mcg.phase1 = .mLoad ∨ s.mcg.phase1 = .mDone) (running : s.mcg.en1 = true)
    (inactive : s.cse.csActive = false) (down : s.done = false) (turns : s.oracle.turns = .mcg :: rest) :
    step s = .next { s with mcg := { s.mcg with phase1 := .mLoad }, oracle := { s.oracle with turns := rest } } := by
  rw [step_mcg (State.turn_of_turns turns), State.turnTaken_of_turns turns]
  rcases between with load | mDone
  · rw [← load]
    exact congrArg Host.Outcome.next (State.mcgLoad_held load (.inl inactive))
  · exact congrArg Host.Outcome.next (State.mcgRearm_eq running mDone down)

theorem step_xfer_call {c : Byte} {p : Frame} {calls : List Call} (clean : s.clean = true) (atomic : s.atomicXfer = false)
    (below : c.toNat ≤ 31) (called : s.host.calls = ⟨.op, encode (.xfer c p)⟩ :: calls) (turns : s.oracle.turns = .host :: rest) :
    step s = .next (State.xferEnter { s with host := { s.host with calls := calls }, oracle := { s.oracle with turns := rest } }
      .xfer c p) := by
  have free := State.clean_outside clean
  have decoded := decodeCall_of_ok (c := ⟨.op, encode (.xfer c p)⟩) (.inl rfl) (decodeOfEncodeIsTheInstruction (.xfer c p))
  rw [step_call (State.turn_of_turns turns) free called decoded, State.turnTaken_of_turns turns]
  exact (exec_xfer_outside_xfer c p (by exact free)).trans
    (State.xfer_enter .xfer p (Nat.not_lt.2 below) (by exact clean) (by exact atomic))

theorem step_ctl_room (phase : s.host.hphase = .hCtl) (room : s.cse.ctlf.length < s.params.wfifoDepth)
    (turns : s.oracle.turns = .host :: rest) :
    step s = .next { s with
      cse := { s.cse with ctlf := s.cse.ctlf ++ [controlWord s.host.hCs] }
      host := { s.host with hphase := .hW0 }
      oracle := { s.oracle with turns := rest } } := by
  rw [step_ctl (State.turn_of_turns turns) phase, State.turnTaken_of_turns turns]
  exact congrArg Host.Outcome.next (if_pos room)

theorem step_w0_room (phase : s.host.hphase = .hW0) (room : s.mcg.txf.length < s.params.wfifoDepth)
    (turns : s.oracle.turns = .host :: rest) :
    step s = .next { s with
      mcg := { s.mcg with txf := s.mcg.txf ++ [s.host.hW0] }
      host := { s.host with hphase := .hW1 }
      oracle := { s.oracle with turns := rest } } := by
  rw [step_w0 (State.turn_of_turns turns) phase, State.turnTaken_of_turns turns]
  exact congrArg Host.Outcome.next (if_pos room)

theorem step_w1_room (phase : s.host.hphase = .hW1) (room : s.mcg.txf.length < s.params.wfifoDepth)
    (turns : s.oracle.turns = .host :: rest) :
    step s = .next { s with
      mcg := { s.mcg with txf := s.mcg.txf ++ [s.host.hW1] }
      host := { s.host with hphase := .hR0 }
      oracle := { s.oracle with turns := rest } } := by
  rw [step_w1 (State.turn_of_turns turns) phase, State.turnTaken_of_turns turns]
  exact congrArg Host.Outcome.next (if_pos room)

theorem step_select_word {w : Word32} {ctlf : List Word32} (running : s.cse.en0 = true) (idle : s.cse.phase0 = .cIdle)
    (word : s.cse.ctlf = w :: ctlf) (turns : s.oracle.turns = .cse :: rest) :
    step s = .next { s with cse := s.cse.select (w.extractLsb' 0 5), oracle := { s.oracle with turns := rest } } := by
  have pre : s.preCseSelect = true := s.preCseSelect_iff.2 ⟨running, idle, by simp [word]⟩
  rw [step_cse_select (State.turn_of_turns turns) pre word, State.turnTaken_of_turns turns]

theorem step_r0_word {w : Word32} {rxf : List Word32} (phase : s.host.hphase = .hR0) (word : s.mcg.rxf = w :: rxf)
    (turns : s.oracle.turns = .host :: rest) :
    step s = .next { s with
      mcg := { s.mcg with rxf := rxf }
      host := { s.host with hR0 := w, hphase := .hR1 }
      oracle := { s.oracle with turns := rest } } := by
  rw [step_subStep (State.turn_of_turns turns) (by simp [phase]), State.turnTaken_of_turns turns]
  exact congrArg Host.Outcome.next (hostSubStep_r0 phase word)

theorem step_r1_word {w : Word32} {rxf : List Word32} (phase : s.host.hphase = .hR1) (caller : s.host.caller = .xfer)
    (word : s.mcg.rxf = w :: rxf) (turns : s.oracle.turns = .host :: rest) :
    step s = .next { s with
      mcg := { s.mcg with rxf := rxf }
      host := { s.host with
        hphase := .hNone
        returned := s.host.returned ++
          [if s.busFaultNow = true then .error (.busError .fault) else .frame (frameOfWords s.host.hR0 w)] }
      busLog := s.busLog ++ [⟨s.host.hCs, frameOfWords s.host.hW0 s.host.hW1, frameOfWords s.host.hR0 w⟩]
      oracle := { s.oracle with turns := rest, busFault := s.oracle.busFault.drop 1 } } := by
  rw [step_last_read (State.turn_of_turns turns) phase word, State.turnTaken_of_turns turns, caller, xferFinish_xfer]
  rfl

end

/-! ### The parts of a transfer -/

/-- Whatever the last transfer left pending: its release and its re-arm. -/
theorem run_settle {s : State} {turns : List Turn} (inv : s.DriverInv) (clean : s.clean = true) (run : s.machinesRun)
    (order : s.oracle.turns = .cse :: .mcg :: turns) :
    Host.Core.run Sys2Proof.core 2 s = .next { s with
      cse := s.cse.idled, mcg := { s.mcg with phase1 := .mLoad }, done := false, oracle := { s.oracle with turns := turns } } := by
  obtain ⟨⟨-, between⟩, -⟩ := s.clean_iff.1 clean
  obtain ⟨en0, en1⟩ := run
  exact (run_succ (step_cse_settle inv clean en0 order)).trans (run_succ (step_mcg_settle between en1 rfl rfl rfl))

/-- HOST's entry and three writes, and CSE-SELECT. -/
theorem run_send {s : State} {c : Byte} {p : Frame} {calls : List Call} {turns : List Turn} (clean : s.clean = true)
    (atomic : s.atomicXfer = false) (depth : 2 ≤ s.params.wfifoDepth) (below : c.toNat ≤ 31) (running : s.cse.en0 = true)
    (idle : s.cse.phase0 = .cIdle) (called : s.host.calls = ⟨.op, encode (.xfer c p)⟩ :: calls)
    (order : s.oracle.turns = .host :: .host :: .host :: .host :: .cse :: turns) :
    Host.Core.run Sys2Proof.core 5 s = .next { s with
      cse := { s.cse with phase0 := .cHold, csActive := true, csIndex := c.setWidth 5, csl := c.setWidth 5 }
      mcg := { s.mcg with txf := [frameWord0 p, frameWord1 p] }
      host := { s.host with
        hphase := .hR0, hCs := c, hW0 := frameWord0 p, hW1 := frameWord1 p, caller := .xfer, polls := 0, calls := calls }
      oracle := { s.oracle with turns := turns } } := by
  obtain ⟨-, -, ctlf, txf, -⟩ := s.clean_iff.1 clean
  refine (run_succ (step_xfer_call clean atomic below called order)).trans ?_
  refine (run_succ (step_ctl_room rfl (by show s.cse.ctlf.length < s.params.wfifoDepth; simp [ctlf]; omega) rfl)).trans ?_
  refine (run_succ (step_w0_room rfl (by show s.mcg.txf.length < s.params.wfifoDepth; simp [txf]; omega) rfl)).trans ?_
  refine (run_succ (step_w1_room rfl (by show (s.mcg.txf ++ _).length < s.params.wfifoDepth; simp [txf]; omega) rfl)).trans ?_
  refine (run_succ (step_select_word (w := controlWord c) (ctlf := []) (by exact running) (by exact idle)
    (by show s.cse.ctlf ++ [controlWord c] = _; rw [ctlf, List.nil_append]) rfl)).trans ?_
  simp [Host.Core.run, Cse.select, State.xferEnter, ctlf, txf, extract_controlWord]

theorem misoWord_of_shifted {o o' : Oracle} (h : ∀ k, o'.misoBit k = o.misoBit (32 + k)) : o'.misoWord 0 32 = o.misoWord 32 32 := by
  apply eq_misoWord
  intro j hj
  rw [getLsbD_misoWord o' 0 hj (Nat.le_refl 32), h]
  congr 1
  omega

/-- The levels of MISO are drawn apart from the turns. -/
theorem misoWord_turns (o : Oracle) (turns : List Turn) (base n : Nat) :
    Oracle.misoWord { o with turns := turns } base n = o.misoWord base n := by
  induction n with
  | zero => rfl
  | succ n ih => rw [Oracle.misoWord, ih]; rfl

/-- The 132 steps of MCG: two words. -/
theorem run_words {s : State} {w0 w1 : Word32} {turns : List Turn} (running : s.mcg.en1 = true) (phase : s.mcg.phase1 = .mLoad)
    (wordcnt : s.mcg.wordcnt = 0) (active : s.cse.csActive = true) (txf : s.mcg.txf = [w0, w1]) (rxf : s.mcg.rxf = [])
    (depth : 2 ≤ s.params.wfifoDepth) (order : s.oracle.turns = List.replicate 66 Turn.mcg ++ (List.replicate 66 Turn.mcg ++ turns)) :
    Host.Core.run Sys2Proof.core 132 s = .next { s with
      mcg := { s.mcg with
        osr := 0, isr := s.oracle.misoWord 32 32, bitcnt := 32, phase1 := .mDone, wordcnt := 0, sck := s.params.sckIdle,
        mosi := w1.getLsbD 0, txf := [], rxf := [s.oracle.misoWord 0 32, s.oracle.misoWord 32 32] }
      done := true
      oracle := { s.oracle with turns := turns, miso := s.oracle.miso.drop 64, misoDraws := s.oracle.misoDraws + 64 } } := by
  have room : s.mcg.rxf.length < s.params.wfifoDepth := by simp [rxf]; omega
  have roomAgain : (s.mcg.rxf ++ [s.oracle.misoWord 0 32]).length < s.params.wfifoDepth := by simp [rxf]; omega
  have second (order' : List Turn) : Oracle.misoWord { s.oracle with
      turns := order', miso := s.oracle.miso.drop 32, misoDraws := s.oracle.misoDraws + 32 } 0 32 = s.oracle.misoWord 32 32 :=
    misoWord_of_shifted (Oracle.misoTaken_misoBit s.oracle 32)
  refine (run_add (n := 66) (m := 66) (run_word s w0 [w1] _ running phase active txf room order)).trans ?_
  refine (run_word _ w1 [] turns (by exact running) (if_pos wordcnt) (by exact active) rfl (by exact roomAgain) rfl).trans ?_
  simp [wordcnt, rxf, second]

/-- HOST's two reads, CSE-RELEASE and MCG-REARM. -/
theorem run_receive {s : State} {r0 r1 : Word32} {turns : List Turn} (run : s.machinesRun) (phase : s.host.hphase = .hR0)
    (caller : s.host.caller = .xfer) (hold : s.cse.phase0 = .cHold) (mDone : s.mcg.phase1 = .mDone) (done : s.done = true)
    (rxf : s.mcg.rxf = [r0, r1]) (order : s.oracle.turns = .host :: .host :: .cse :: .mcg :: turns) :
    Host.Core.run Sys2Proof.core 4 s = .next { s with
      cse := s.cse.idled
      mcg := { s.mcg with phase1 := .mLoad, rxf := [] }
      done := false
      host := { s.host with
        hphase := .hNone
        hR0 := r0
        returned := s.host.returned ++ [if s.busFaultNow = true then .error (.busError .fault) else .frame (frameOfWords r0 r1)] }
      busLog := s.busLog ++ [⟨s.host.hCs, frameOfWords s.host.hW0 s.host.hW1, frameOfWords r0 r1⟩]
      oracle := { s.oracle with turns := turns, busFault := s.oracle.busFault.drop 1 } } := by
  obtain ⟨en0, en1⟩ := run
  refine (run_succ (step_r0_word phase rxf order)).trans ?_
  refine (run_succ (step_r1_word rfl (by exact caller) rfl rfl)).trans ?_
  refine (run_succ (step_release_done (by exact en0) (by exact hold) (by exact done) rfl)).trans ?_
  exact run_succ (step_mcg_settle (.inr mDone) (by exact en1) rfl rfl rfl)

/-- The order of a transfer, cut where its parts meet. -/
theorem transferTurns_append (turns : List Turn) : transferTurns ++ turns = .cse :: .mcg :: .host :: .host :: .host :: .host :: .cse ::
    (List.replicate 66 Turn.mcg ++ (List.replicate 66 Turn.mcg ++ .host :: .host :: .cse :: .mcg :: turns)) := by
  rw [transferTurns, show 132 = 66 + 66 from rfl, List.replicate_add]
  simp only [List.append_assoc, List.cons_append, List.nil_append]

/-- What a transfer of `p` to `c` by HOST leaves, HOST's latches and the oracle's turns aside: the state of the atomic step. -/
def State.transferred (s : State) (c : Byte) (p : Frame) (calls : List Call) (turns : List Turn) : State :=
  { s with
    cse := s.cse.afterXfer c
    mcg := s.mcg.afterXfer s.params p s.oracle.misoFrame
    done := false
    host := { s.host with
      hphase := .hNone, hCs := c, hW0 := frameWord0 p, hW1 := frameWord1 p, hR0 := s.oracle.misoWord 0 32, caller := .xfer, polls := 0
      calls := calls
      returned := s.host.returned ++ [if s.busFaultNow = true then .error (.busError .fault) else .frame s.oracle.misoFrame] }
    busLog := s.busLog ++ [⟨c, p, s.oracle.misoFrame⟩]
    oracle := { s.oracle with
      turns := turns, miso := s.oracle.miso.drop 64, misoDraws := s.oracle.misoDraws + 64, busFault := s.oracle.busFault.drop 1 } }

/-- The last bit sent is the lowest of the last byte. -/
theorem frameWord1_lowestBit (p : Frame) : (frameWord1 p).getLsbD 0 = p.b7.getLsbD 0 := by
  simp only [frameWord1, BitVec.getLsbD_append]
  rfl

/-- The turns of one transfer in order: settled, sent, shifted, received. -/
theorem run_transferTurns {s : State} {c : Byte} {p : Frame} {calls : List Call} {turns : List Turn} (inv : s.DriverInv)
    (clean : s.clean = true) (run : s.machinesRun) (depth : 2 ≤ s.params.wfifoDepth) (below : c.toNat ≤ 31)
    (waveform : s.atomicXfer = false) (called : s.host.calls = ⟨.op, encode (.xfer c p)⟩ :: calls)
    (order : s.oracle.turns = transferTurns ++ turns) :
    Host.Core.run Sys2Proof.core transferTurns.length s = .next (s.transferred c p calls turns) := by
  have free := State.clean_outside clean
  obtain ⟨-, wordcnt, ctlf, txf, rxf, -⟩ := s.clean_iff.1 clean
  rw [transferTurns_append] at order
  have settledClean : State.clean { s with
      cse := s.cse.idled, mcg := { s.mcg with phase1 := .mLoad }, done := false
      oracle := { s.oracle with
        turns := .host :: .host :: .host :: .host :: .cse ::
          (List.replicate 66 Turn.mcg ++ (List.replicate 66 Turn.mcg ++ .host :: .host :: .cse :: .mcg :: turns)) } } = true :=
    (State.clean_iff _).2 ⟨⟨.inl rfl, .inl rfl⟩, wordcnt, ctlf, txf, rxf, free⟩
  refine (run_add (n := 2) (m := 141) (run_settle inv clean run order)).trans ?_
  refine (run_add (n := 5) (m := 136) (run_send settledClean waveform depth below run.1 rfl called rfl)).trans ?_
  refine (run_add (n := 132) (m := 4) (run_words (by exact run.2) rfl (by exact wordcnt) rfl rfl (by exact rxf) (by exact depth) rfl)).trans ?_
  refine (run_receive (by exact run) rfl rfl rfl rfl rfl rfl rfl).trans ?_
  obtain ⟨-, second⟩ := frameWords_frameOfWords (s.oracle.misoWord 0 32) (s.oracle.misoWord 32 32)
  simp only [State.transferred, Cse.idled, Cse.afterXfer, Mcg.afterXfer, Oracle.misoFrame, misoWord_turns, frameOfWords_frameWords, second,
    frameWord1_lowestBit, ctlf]
  rfl

end Sys2Proof.Machine

namespace Sys2Proof

open Sys2Proof.Machine

/-- Settles O59: both runs are carried out, and the state the turns leave is the atomic step's but for HOST's latches. -/
theorem waveformTransferRefinesAtomicTransfer : Obligations.WaveformTransferRefinesAtomicTransfer := by
  intro s c p rest turns inv clean run noTimeout depth below level calls order
  have free := State.clean_outside clean
  have atomic : State.atomicXfer { s with chosenLevel := .transaction } = true := by
    simp [State.atomicXfer, run.1, run.2, noTimeout, depth]
  refine ⟨_, State.xferAtomic { s with chosenLevel := .transaction } .xfer c p,
    run_transferTurns inv clean run depth below (s.level_waveform_iff.1 level) calls order,
    (exec_xfer_outside_xfer c p (by exact free)).trans (State.xfer_atomic .xfer p (Nat.not_lt.2 below) (by exact clean) atomic), ?_⟩
  rw [State.xferAtomic, xferFinish_xfer]
  exact ⟨rfl, rfl, rfl, rfl, rfl, rfl, rfl, rfl, rfl, rfl, rfl, rfl, rfl⟩

end Sys2Proof
end
